-- ==== Sys2Proof/Word.lean ====
section
/-! DEFINITION. The word types of the block: a binary32 lane or instruction word, a framebuffer byte, a lane group. -/

namespace Sys2Proof

/-- 32 bits: an instruction word of PROG, a CSR value, or the binary32 pattern of one lane (spec/00_scope.md R3, R8). -/
abbrev Word := BitVec 32

/-- 8 bits: a framebuffer byte, a table entry or a fault code. -/
abbrev Byte := BitVec 8

/-- One lane group: the binary32 patterns of lanes 0 to L-1, in order (spec/10_state.md R21). -/
abbrev Lanes := List Word

/-- A store of values by address, as (address, value) pairs; its canonical form has strictly rising addresses. -/
abbrev Store (β : Type) := List (Nat × β)

end Sys2Proof
end

