-- ==== Sys2Proof/Fields.lean ====
section
/-! DEFINITION. The values an instruction field or a fault code can name: vector registers, RDS selectors, STQ channels, fault codes. -/

namespace Sys2Proof

/-- A vector register number, v0 to v31 (spec/30_encoding.md R71). -/
abbrev VReg := Fin 32

/-- RDS's special-value selector (spec/30_encoding.md R73, R82; spec/43_sequencing.md R175). -/
inductive Sel where
  /-- LANEX, 0: the pixel column of the lane. -/
  | laneX
  /-- ROWY, 1: the row's vertical coordinate, flipped. -/
  | rowY
  /-- TIME, 2: the frame's time value. -/
  | time
  /-- WIDTHF, 3: the frame's width. -/
  | widthF
  /-- HEIGHTF, 4: the frame's height. -/
  | heightF
  /-- ITER, 5: the loop index. -/
  | iter
deriving DecidableEq, Repr

/-- STQ's channel (spec/30_encoding.md R73): R = 0, G = 1, B = 2. -/
inductive Channel where
  | red
  | green
  | blue
deriving DecidableEq, Repr

/-- The channel number `c` of the framebuffer layout (spec/20_memory.md R52). -/
def Channel.index : Channel → Nat
  | .red => 0
  | .green => 1
  | .blue => 2

/-- The faults of the block (spec/60_exceptions.md R300). They are recorded, not trapped: see `Machine.raiseFault`. -/
inductive FaultCode where
  | cfgDim
  | cfgFb
  | cfgEntry
  | illegalOpcode
  | reservedBits
  | regRange
  | badOperand
  | loopNest
  | loopBounds
  | pcOverflow
deriving DecidableEq, Repr

end Sys2Proof
end

