-- ==== Sys2Proof/Syntax.lean ====
section
/-! DEFINITION. The AK1 kernel instructions: one constructor per row of spec/opcode_table.json, in the table's order. -/

namespace Sys2Proof

/-- The 22 kernel instructions (spec/30_encoding.md R77). Register groups are named by their first register (R75). -/
inductive Instr where
  /-- NOP (spec/43_sequencing.md R172). -/
  | nop
  /-- END (R174). -/
  | endInv
  /-- LOOP count, len (R173). -/
  | loop (count len : BitVec 8)
  /-- RDS vd, SEL (R175). -/
  | rds (rd : VReg) (sel : Sel)
  /-- FMOV vd, va (spec/42_swizzle_move.md R150). -/
  | fmov (rd ra : VReg)
  /-- FLIH vd, imm16 (R151). -/
  | flih (rd : VReg) (imm : BitVec 16)
  /-- FLIL vd, imm16 (R152). -/
  | flil (rd : VReg) (imm : BitVec 16)
  /-- FADD vd, va, vb (spec/40_fp_arith.md R110). -/
  | fadd (rd ra rb : VReg)
  /-- FSUB vd, va, vb (R111). -/
  | fsub (rd ra rb : VReg)
  /-- FMUL vd, va, vb (R112). -/
  | fmul (rd ra rb : VReg)
  /-- FDIV vd, va, vb (R113). -/
  | fdiv (rd ra rb : VReg)
  /-- FABS vd, va (R114). -/
  | fabs (rd ra : VReg)
  /-- FNEG vd, va (R115). -/
  | fneg (rd ra : VReg)
  /-- DOT2 vd, va, vb: va and vb are pairs (R116). -/
  | dot2 (rd ra rb : VReg)
  /-- DOT4 vd, va, vb: va and vb are quads (R117). -/
  | dot4 (rd ra rb : VReg)
  /-- FSIN vd, va (spec/41_transcendental.md R140). -/
  | fsin (rd ra : VReg)
  /-- FCOS vd, va (R141). -/
  | fcos (rd ra : VReg)
  /-- FEXP vd, va (R142). -/
  | fexp (rd ra : VReg)
  /-- FTANH vd, va (R143). -/
  | ftanh (rd ra : VReg)
  /-- SWZ4 vd, va: va is a pair, vd a quad (spec/42_swizzle_move.md R153). -/
  | swz4 (rd ra : VReg)
  /-- SWAP2 vd, va: both pairs (R154). -/
  | swap2 (rd ra : VReg)
  /-- STQ va, CH (spec/44_quantizer_store.md R200). -/
  | stq (ra : VReg) (ch : Channel)
deriving DecidableEq, Repr

end Sys2Proof
end

