-- ==== Sys2Proof/WellFormed.lean ====
section
/-! DEFINITION. Which instruction terms an encoding spells: the register-group checks (spec/30_encoding.md R75, R78 check 3).
Selectors, channels and single registers are right by their types. -/

namespace Sys2Proof

/-- The pair named by `r` ends at v31 or below (R75). -/
def pairFits (r : VReg) : Bool := r.val ≤ 30

/-- The quad named by `r` ends at v31 or below (R75). -/
def quadFits (r : VReg) : Bool := r.val ≤ 28

/-- Every register group of the instruction ends at v31 or below (R76, R78 check 3). -/
def Instr.wellFormed : Instr → Bool
  | .dot2 _ ra rb => pairFits ra && pairFits rb
  | .dot4 _ ra rb => quadFits ra && quadFits rb
  | .swz4 rd ra => quadFits rd && pairFits ra
  | .swap2 rd ra => pairFits rd && pairFits ra
  | .nop => true
  | .endInv => true
  | .loop _ _ => true
  | .rds _ _ => true
  | .fmov _ _ => true
  | .flih _ _ => true
  | .flil _ _ => true
  | .fadd _ _ _ => true
  | .fsub _ _ _ => true
  | .fmul _ _ _ => true
  | .fdiv _ _ _ => true
  | .fabs _ _ => true
  | .fneg _ _ => true
  | .fsin _ _ => true
  | .fcos _ _ => true
  | .fexp _ _ => true
  | .ftanh _ _ => true
  | .stq _ _ => true

end Sys2Proof
end

