-- ==== Sys2Proof/Decode.lean ====
section
/-! DEFINITION. The decoder (spec/30_encoding.md R70 to R80), total on every word and rejecting by fault code, and the encoder.
A PROG entry is one 32-bit word, so no byte order arises (spec/20_memory.md R53). -/

namespace Sys2Proof

/-- The 8-bit code of a fault (spec/60_exceptions.md R300). -/
def FaultCode.code : FaultCode → Byte
  | .cfgDim => 0x01
  | .cfgFb => 0x02
  | .cfgEntry => 0x03
  | .illegalOpcode => 0x10
  | .reservedBits => 0x11
  | .regRange => 0x12
  | .badOperand => 0x13
  | .loopNest => 0x14
  | .loopBounds => 0x15
  | .pcOverflow => 0x16

/-- The assigned opcodes, in the order of R77's map. -/
inductive Op where
  | nop | endInv | loop | rds | fmov | flih | flil | fadd | fsub | fmul | fdiv | fabs | fneg | dot2 | dot4
  | fsin | fcos | fexp | ftanh | swz4 | swap2 | stq
deriving DecidableEq, Repr

/-- The seven formats (R72). -/
inductive Format where
  | n | r3 | r2 | i16 | sp | st | lp
deriving DecidableEq, Repr

/-- The opcode map (R77); `none` is an unassigned opcode (R80). -/
def opOf : Nat → Option Op
  | 0x01 => some .nop
  | 0x02 => some .endInv
  | 0x03 => some .loop
  | 0x04 => some .rds
  | 0x05 => some .fmov
  | 0x06 => some .flih
  | 0x07 => some .flil
  | 0x08 => some .fadd
  | 0x09 => some .fsub
  | 0x0A => some .fmul
  | 0x0B => some .fdiv
  | 0x0C => some .fabs
  | 0x0D => some .fneg
  | 0x0E => some .dot2
  | 0x0F => some .dot4
  | 0x10 => some .fsin
  | 0x11 => some .fcos
  | 0x12 => some .fexp
  | 0x13 => some .ftanh
  | 0x14 => some .swz4
  | 0x15 => some .swap2
  | 0x16 => some .stq
  | _ => none

/-- The format each opcode uses (R72, R77). -/
def Op.format : Op → Format
  | .nop | .endInv => .n
  | .fadd | .fsub | .fmul | .fdiv | .dot2 | .dot4 => .r3
  | .fmov | .fabs | .fneg | .fsin | .fcos | .fexp | .ftanh | .swz4 | .swap2 => .r2
  | .flih | .flil => .i16
  | .rds => .sp
  | .stq => .st
  | .loop => .lp

/-- The bits a format reserves (R72). -/
def Format.reservedMask : Format → Word
  | .n => 0x03FFFFFF
  | .r3 => 0x000007FF
  | .r2 => 0x0000FFFF
  | .i16 => 0x001F0000
  | .sp => 0x001FFFF0
  | .st => 0x03E0FFFC
  | .lp => 0x03FF0000

/-- `op = w[31:26]` (R71). -/
def fieldOp (w : Word) : BitVec 6 := w.extractLsb' 26 6

/-- `rd = w[25:21]` (R71). -/
def fieldRd (w : Word) : VReg := (w.extractLsb' 21 5).toFin

/-- `ra = w[20:16]` (R71). -/
def fieldRa (w : Word) : VReg := (w.extractLsb' 16 5).toFin

/-- `rb = w[15:11]` (R71). -/
def fieldRb (w : Word) : VReg := (w.extractLsb' 11 5).toFin

/-- `imm16 = w[15:0]` (R73). -/
def fieldImm (w : Word) : BitVec 16 := w.extractLsb' 0 16

/-- `count = w[15:8]` (R73). -/
def fieldCount (w : Word) : BitVec 8 := w.extractLsb' 8 8

/-- `len = w[7:0]` (R73). -/
def fieldLen (w : Word) : BitVec 8 := w.extractLsb' 0 8

/-- `sel = w[3:0]`, 0 to 5 legal (R73, R78 check 4). -/
def selOf : Nat → Option Sel
  | 0 => some .laneX
  | 1 => some .rowY
  | 2 => some .time
  | 3 => some .widthF
  | 4 => some .heightF
  | 5 => some .iter
  | _ => none

/-- `ch = w[1:0]`, 0 to 2 legal (R73, R78 check 4). -/
def channelOf : Nat → Option Channel
  | 0 => some .red
  | 1 => some .green
  | 2 => some .blue
  | _ => none

/-- An instruction of register groups, or REG_RANGE (R78 check 3). -/
def checkGroups (i : Instr) : Except FaultCode Instr :=
  if i.wellFormed then .ok i else .error .regRange

/-- The instruction of an opcode with the fields of `w`, or the fault of R78 checks 3 and 4. -/
def assemble (op : Op) (w : Word) : Except FaultCode Instr :=
  match op with
  | .nop => .ok .nop
  | .endInv => .ok .endInv
  | .loop => .ok (.loop (fieldCount w) (fieldLen w))
  | .rds =>
    match selOf (w.extractLsb' 0 4).toNat with
    | some sel => .ok (.rds (fieldRd w) sel)
    | none => .error .badOperand
  | .fmov => .ok (.fmov (fieldRd w) (fieldRa w))
  | .flih => .ok (.flih (fieldRd w) (fieldImm w))
  | .flil => .ok (.flil (fieldRd w) (fieldImm w))
  | .fadd => .ok (.fadd (fieldRd w) (fieldRa w) (fieldRb w))
  | .fsub => .ok (.fsub (fieldRd w) (fieldRa w) (fieldRb w))
  | .fmul => .ok (.fmul (fieldRd w) (fieldRa w) (fieldRb w))
  | .fdiv => .ok (.fdiv (fieldRd w) (fieldRa w) (fieldRb w))
  | .fabs => .ok (.fabs (fieldRd w) (fieldRa w))
  | .fneg => .ok (.fneg (fieldRd w) (fieldRa w))
  | .dot2 => checkGroups (.dot2 (fieldRd w) (fieldRa w) (fieldRb w))
  | .dot4 => checkGroups (.dot4 (fieldRd w) (fieldRa w) (fieldRb w))
  | .fsin => .ok (.fsin (fieldRd w) (fieldRa w))
  | .fcos => .ok (.fcos (fieldRd w) (fieldRa w))
  | .fexp => .ok (.fexp (fieldRd w) (fieldRa w))
  | .ftanh => .ok (.ftanh (fieldRd w) (fieldRa w))
  | .swz4 => checkGroups (.swz4 (fieldRd w) (fieldRa w))
  | .swap2 => checkGroups (.swap2 (fieldRd w) (fieldRa w))
  | .stq =>
    match channelOf (w.extractLsb' 0 2).toNat with
    | some ch => .ok (.stq (fieldRa w) ch)
    | none => .error .badOperand

/-- Decoding (R78): the checks in their order, the first that fails naming the fault. LOOP's own checks are made when it
executes (R78 check 5). -/
def decode (w : Word) : Except FaultCode Instr :=
  match opOf (fieldOp w).toNat with
  | none => .error .illegalOpcode
  | some op =>
    if w &&& op.format.reservedMask ≠ 0 then .error .reservedBits else assemble op w

/-- The instruction the decoder reads from the low `nbits` bits of `w`, every higher bit 0. -/
def decodeTableWord (nbits w : Nat) : Option Instr :=
  (decode (BitVec.ofNat 32 (w % 2 ^ nbits))).toOption

/-! ### The encoder -/

/-- A register number as its 5-bit field (R71). -/
def regBits (r : VReg) : BitVec 5 := BitVec.ofFin r

/-- Format N (R72). -/
def wordN (op : BitVec 6) : Word := op ++ (0 : BitVec 26)

/-- Format R3 (R72). -/
def wordR3 (op : BitVec 6) (rd ra rb : VReg) : Word :=
  op ++ regBits rd ++ regBits ra ++ regBits rb ++ (0 : BitVec 11)

/-- Format R2 (R72). -/
def wordR2 (op : BitVec 6) (rd ra : VReg) : Word := op ++ regBits rd ++ regBits ra ++ (0 : BitVec 16)

/-- Format I16 (R72). -/
def wordI16 (op : BitVec 6) (rd : VReg) (imm : BitVec 16) : Word := op ++ regBits rd ++ (0 : BitVec 5) ++ imm

/-- Format SP (R72). -/
def wordSP (op : BitVec 6) (rd : VReg) (sel : BitVec 4) : Word := op ++ regBits rd ++ (0 : BitVec 17) ++ sel

/-- Format ST (R72). -/
def wordST (op : BitVec 6) (ra : VReg) (ch : BitVec 2) : Word :=
  op ++ (0 : BitVec 5) ++ regBits ra ++ (0 : BitVec 14) ++ ch

/-- Format LP (R72). -/
def wordLP (op : BitVec 6) (count len : BitVec 8) : Word := op ++ (0 : BitVec 10) ++ count ++ len

/-- The selector's 4-bit field (R73, R82). -/
def Sel.bits : Sel → BitVec 4
  | .laneX => 0
  | .rowY => 1
  | .time => 2
  | .widthF => 3
  | .heightF => 4
  | .iter => 5

/-- The channel's 2-bit field (R73, R82). -/
def Channel.bits : Channel → BitVec 2
  | .red => 0
  | .green => 1
  | .blue => 2

/-- The word of an instruction (R72, R77). It is the instruction's own word when the instruction is well formed. -/
def encode : Instr → Word
  | .nop => wordN 0x01
  | .endInv => wordN 0x02
  | .loop count len => wordLP 0x03 count len
  | .rds rd sel => wordSP 0x04 rd sel.bits
  | .fmov rd ra => wordR2 0x05 rd ra
  | .flih rd imm => wordI16 0x06 rd imm
  | .flil rd imm => wordI16 0x07 rd imm
  | .fadd rd ra rb => wordR3 0x08 rd ra rb
  | .fsub rd ra rb => wordR3 0x09 rd ra rb
  | .fmul rd ra rb => wordR3 0x0A rd ra rb
  | .fdiv rd ra rb => wordR3 0x0B rd ra rb
  | .fabs rd ra => wordR2 0x0C rd ra
  | .fneg rd ra => wordR2 0x0D rd ra
  | .dot2 rd ra rb => wordR3 0x0E rd ra rb
  | .dot4 rd ra rb => wordR3 0x0F rd ra rb
  | .fsin rd ra => wordR2 0x10 rd ra
  | .fcos rd ra => wordR2 0x11 rd ra
  | .fexp rd ra => wordR2 0x12 rd ra
  | .ftanh rd ra => wordR2 0x13 rd ra
  | .swz4 rd ra => wordR2 0x14 rd ra
  | .swap2 rd ra => wordR2 0x15 rd ra
  | .stq ra ch => wordST 0x16 ra ch.bits

/-- The opcode an instruction is encoded with. -/
def Instr.op : Instr → Op
  | .nop => .nop
  | .endInv => .endInv
  | .loop _ _ => .loop
  | .rds _ _ => .rds
  | .fmov _ _ => .fmov
  | .flih _ _ => .flih
  | .flil _ _ => .flil
  | .fadd _ _ _ => .fadd
  | .fsub _ _ _ => .fsub
  | .fmul _ _ _ => .fmul
  | .fdiv _ _ _ => .fdiv
  | .fabs _ _ => .fabs
  | .fneg _ _ => .fneg
  | .dot2 _ _ _ => .dot2
  | .dot4 _ _ _ => .dot4
  | .fsin _ _ => .fsin
  | .fcos _ _ => .fcos
  | .fexp _ _ => .fexp
  | .ftanh _ _ => .ftanh
  | .swz4 _ _ => .swz4
  | .swap2 _ _ => .swap2
  | .stq _ _ => .stq

/-- The opcode map as the spec's table writes it (R77): opcode, match, mask. -/
def opcodeRows : List (Op × Word × Word) :=
  [(.nop, 0x04000000, 0xFFFFFFFF), (.endInv, 0x08000000, 0xFFFFFFFF), (.loop, 0x0C000000, 0xFFFF0000),
   (.rds, 0x10000000, 0xFC1FFFF0), (.fmov, 0x14000000, 0xFC00FFFF), (.flih, 0x18000000, 0xFC1F0000),
   (.flil, 0x1C000000, 0xFC1F0000), (.fadd, 0x20000000, 0xFC0007FF), (.fsub, 0x24000000, 0xFC0007FF),
   (.fmul, 0x28000000, 0xFC0007FF), (.fdiv, 0x2C000000, 0xFC0007FF), (.fabs, 0x30000000, 0xFC00FFFF),
   (.fneg, 0x34000000, 0xFC00FFFF), (.dot2, 0x38000000, 0xFC0007FF), (.dot4, 0x3C000000, 0xFC0007FF),
   (.fsin, 0x40000000, 0xFC00FFFF), (.fcos, 0x44000000, 0xFC00FFFF), (.fexp, 0x48000000, 0xFC00FFFF),
   (.ftanh, 0x4C000000, 0xFC00FFFF), (.swz4, 0x50000000, 0xFC00FFFF), (.swap2, 0x54000000, 0xFC00FFFF),
   (.stq, 0x58000000, 0xFFE0FFFC)]

end Sys2Proof
end

