-- ==== Sys2Proof/Machine/Binary32.lean ====
section
/-! DEFINITION. Binary32 arithmetic on bit patterns (spec/00_scope.md R10; spec/40_fp_arith.md R100 to R105), computed exactly in
integers and rounded once. A finite value is held as an integer number of units of 2^-149, the smallest subnormal. -/

namespace Sys2Proof.Machine

/-- CNAN, the canonical quiet NaN (R10, R105). -/
def cnan : Word := 0x7FC00000

/-- +infinity. -/
def posInf : Word := 0x7F800000

/-- -infinity. -/
def negInf : Word := 0xFF800000

/-- 1.0. -/
def one32 : Word := 0x3F800000

/-- The sign bit `a[31]` (R100). -/
def sign (a : Word) : Bool := a.msb

/-- The exponent field `a[30:23]` (R10). -/
def expField (a : Word) : BitVec 8 := a.extractLsb' 23 8

/-- The fraction field `a[22:0]` (R10). -/
def fracField (a : Word) : BitVec 23 := a.extractLsb' 0 23

/-- `isNaN(a)` (R10). -/
def isNaN (a : Word) : Bool := expField a == 0xFF && fracField a != 0

/-- `isInf(a)` (R10). -/
def isInf (a : Word) : Bool := expField a == 0xFF && fracField a == 0

/-- `a` denotes a real number. -/
def isFinite (a : Word) : Bool := expField a != 0xFF

/-- |val(a)| in units of 2^-149 (R10). Of an infinity it is a number above every finite one, so that comparisons of `units`
order the infinities too. -/
def magUnits (a : Word) : Nat :=
  if expField a = 0 then (fracField a).toNat else (2 ^ 23 + (fracField a).toNat) * 2 ^ ((expField a).toNat - 1)

/-- val(a) in units of 2^-149 (R10): 0 for either zero. -/
def units (a : Word) : Int := if sign a then -(magUnits a : Int) else magUnits a

/-- A magnitude pattern with a sign. -/
def withSign (neg : Bool) (m : Word) : Word := if neg then m ||| 0x80000000 else m

/-- `n / d` rounded to the nearest natural number, a tie to the even one. -/
def roundEven (n d : Nat) : Nat :=
  if 2 * (n % d) < d then n / d else if d < 2 * (n % d) then n / d + 1 else n / d + n / d % 2

/-- The exponent shift of `n / d` units: 0 in the subnormal and first normal binade, one more for each binade above. -/
def shiftOf (n d : Nat) : Nat := (n / d).log2 - 23

/-- The magnitude pattern of `n / d` units rounded to nearest even, up to infinity (R10). -/
def rneMag (n d : Nat) : Nat :=
  min (shiftOf n d * 2 ^ 23 + roundEven n (d * 2 ^ shiftOf n d)) 0x7F800000

/-- RNE of the real number of magnitude `n / d` units (of 2^-149) and sign `neg` (R10): overflow gives an infinity, underflow a
zero, each with the sign. -/
def rne (neg : Bool) (n d : Nat) : Word := withSign neg (BitVec.ofNat 32 (rneMag n d))

/-- `add32` (R100). -/
def add32 (a b : Word) : Word :=
  if isNaN a || isNaN b then cnan
  else if isInf a && isInf b && sign a != sign b then cnan
  else if isInf a then a
  else if isInf b then b
  else if units a + units b ≠ 0 then rne (decide (units a + units b < 0)) (units a + units b).natAbs 1
  else if a = 0x80000000 ∧ b = 0x80000000 then 0x80000000
  else 0x00000000

/-- `sub32` (R101). -/
def sub32 (a b : Word) : Word := add32 a (b ^^^ 0x80000000)

/-- `mul32` (R102): the product of two unit counts is in units of 2^-298. -/
def mul32 (a b : Word) : Word :=
  if isNaN a || isNaN b then cnan
  else if (isInf a && units b == 0) || (isInf b && units a == 0) then cnan
  else if isInf a || isInf b then withSign (sign a ^^ sign b) posInf
  else if magUnits a * magUnits b ≠ 0 then rne (sign a ^^ sign b) (magUnits a * magUnits b) (2 ^ 149)
  else withSign (sign a ^^ sign b) 0x00000000

/-- `div32` (R103). -/
def div32 (a b : Word) : Word :=
  if isNaN a || isNaN b then cnan
  else if isInf a && isInf b then cnan
  else if units a = 0 ∧ units b = 0 then cnan
  else if isInf a then withSign (sign a ^^ sign b) posInf
  else if isInf b then withSign (sign a ^^ sign b) 0x00000000
  else if units b = 0 then withSign (sign a ^^ sign b) posInf
  else if units a ≠ 0 then rne (sign a ^^ sign b) (magUnits a * 2 ^ 149) (magUnits b)
  else withSign (sign a ^^ sign b) 0x00000000

/-- `float32(n)`, exact for n below 2^24 (R10). -/
def float32 (n : Nat) : Word := rne false (n * 2 ^ 149) 1

/-- `roundHalfAway(val(x))` of a finite `x` (R10): the nearest integer, a tie away from zero. -/
def roundHalfAway (x : Word) : Int :=
  if sign x then -(((2 * magUnits x + 2 ^ 149) / 2 ^ 150 : Nat) : Int) else ((2 * magUnits x + 2 ^ 149) / 2 ^ 150 : Nat)

/-- `floor(val(x))` of a finite `x` (R10). -/
def floorOf (x : Word) : Int := units x / 2 ^ 149

end Sys2Proof.Machine
end

