-- ==== Sys2Proof/Machine/Reference.lean ====
section
/-! DEFINITION. The numbers the spec's rules are stated in: the value of a binary32 pattern, round-to-nearest-even as a property
(spec/00_scope.md R10), and the contract of the transcendental units (spec/41_transcendental.md R130 to R132). -/

namespace Sys2Proof.Machine

/-- `val(a)` of a finite pattern (R10). -/
def val32 (a : Word) : ℚ := (units a : ℚ) / 2 ^ 149

/-- `r` is RNE(x) for a nonzero real number `x`, here a rational (R10): its sign is that of `x`; it is an infinity exactly from
2^128 - 2^103 up; otherwise it is the finite pattern nearest to `x`, a tie going to the even significand. -/
def IsRNE (x : ℚ) (r : Word) : Prop :=
  sign r = decide (x < 0) ∧
    (2 ^ 128 - 2 ^ 103 ≤ |x| → isInf r = true) ∧
    (|x| < 2 ^ 128 - 2 ^ 103 →
      isFinite r = true ∧
        ∀ y : Word, isFinite y = true →
          |val32 r - x| ≤ |val32 y - x| ∧
            (|val32 r - x| = |val32 y - x| → val32 y ≠ val32 r → r.getLsbD 0 = false))

/-- TRANS_TOL (spec/00_scope.md R7). -/
def transTol : ℚ := 1 / 10 ^ 6

/-- TRIG_RANGE (R7). -/
def trigRange : ℚ := 65536

/-- R131 for one unit `f` with its real function and its value at zero: S1 to S4. -/
def TrigContract (f : Word → Word) (real : ℝ → ℝ) (zero : Word → Word) : Prop :=
  (∀ x, isNaN x = true ∨ isInf x = true → f x = cnan) ∧
    (∀ x, x = 0x00000000 ∨ x = 0x80000000 → f x = zero x) ∧
    (∀ x, isFinite x = true → isFinite (f x) = true ∧ |val32 (f x)| ≤ 1) ∧
    (∀ x, isFinite x = true → |val32 x| ≤ trigRange →
      |((val32 (f x) : ℚ) : ℝ) - real ((val32 x : ℚ) : ℝ)| ≤ (transTol : ℚ))

/-- R132: E1 to E6, with e the exact real exponential. -/
def ExpContract (f : Word → Word) : Prop :=
  (∀ x, isNaN x = true → f x = cnan) ∧ f posInf = posInf ∧ f negInf = 0x00000000 ∧
    (∀ x, x = 0x00000000 ∨ x = 0x80000000 → f x = one32) ∧
    (∀ x, isFinite x = true → isNaN (f x) = false ∧ sign (f x) = false) ∧
    (∀ x, isFinite x = true → 1 / 2 ^ 126 ≤ Real.exp ((val32 x : ℚ) : ℝ) → Real.exp ((val32 x : ℚ) : ℝ) ≤ 2 ^ 127 →
      isFinite (f x) = true ∧
        |((val32 (f x) : ℚ) : ℝ) - Real.exp ((val32 x : ℚ) : ℝ)| ≤ (transTol : ℚ) * Real.exp ((val32 x : ℚ) : ℝ)) ∧
    (∀ x, isFinite x = true → 2 ^ 128 ≤ Real.exp ((val32 x : ℚ) : ℝ) → f x = posInf) ∧
    (∀ x, isFinite x = true → 2 ^ 127 < Real.exp ((val32 x : ℚ) : ℝ) → Real.exp ((val32 x : ℚ) : ℝ) < 2 ^ 128 →
      f x = posInf ∨
        isFinite (f x) = true ∧
          |((val32 (f x) : ℚ) : ℝ) - Real.exp ((val32 x : ℚ) : ℝ)| ≤ (transTol : ℚ) * Real.exp ((val32 x : ℚ) : ℝ)) ∧
    (∀ x, isFinite x = true → Real.exp ((val32 x : ℚ) : ℝ) < 1 / 2 ^ 126 →
      isFinite (f x) = true ∧ 0 ≤ val32 (f x) ∧ val32 (f x) ≤ 1 / 2 ^ 126)

/-- TransContract(TRANS_TOL, TRIG_RANGE): the conjunction of R131 and R132 (R130). -/
def TransContract (sine cosine exponential : Word → Word) : Prop :=
  TrigContract sine Real.sin (fun x => x) ∧ TrigContract cosine Real.cos (fun _ => one32) ∧ ExpContract exponential

end Sys2Proof.Machine
end

