-- ==== Sys2Proof/Machine/SampleUnits.lean ====
section
/-! DEFINITION. Units that meet TransContract (spec/41_transcendental.md R130 to R132), with the proof. They are NOT the units of the
machine (R133): they exist so that `Config.units` can be declared as units of which the contract and nothing else is known. No
instruction runs them. The value of a unit is found by a search: enough terms of the power series, then a pattern close to the sum. -/

namespace Sys2Proof.Machine

/-! ### Patterns close to a real number -/

/-- The normal pattern of exponent field `e` and significand `k`. -/
def normalPattern (e k : Nat) : Word := BitVec.ofNat 32 (e * 2 ^ 23 + (k - 2 ^ 23))

theorem normalPattern_toNat {e k : Nat} (he : e < 255) (hk : k < 2 ^ 24) (hk' : 2 ^ 23 ≤ k) :
    (normalPattern e k).toNat = e * 2 ^ 23 + (k - 2 ^ 23) := by
  simp only [normalPattern, BitVec.toNat_ofNat]
  omega

theorem expField_eq (w : Word) : (expField w).toNat = w.toNat / 2 ^ 23 % 256 := by
  simp [expField, BitVec.extractLsb'_toNat, Nat.shiftRight_eq_div_pow]

theorem fracField_eq (w : Word) : (fracField w).toNat = w.toNat % 2 ^ 23 := by
  simp [fracField, BitVec.extractLsb'_toNat]

theorem sign_eq (w : Word) : sign w = decide (2 ^ 31 ≤ w.toNat) := by
  simp [sign, BitVec.msb_eq_decide]

theorem normalPattern_spec {e k : Nat} (he : e < 255) (he' : 1 ≤ e) (hk : k < 2 ^ 24) (hk' : 2 ^ 23 ≤ k) :
    isFinite (normalPattern e k) = true ∧ sign (normalPattern e k) = false ∧
      val32 (normalPattern e k) = (k : ℚ) * 2 ^ (e - 1) / 2 ^ 149 := by
  have hn := normalPattern_toNat he hk hk'
  have hexp : (expField (normalPattern e k)).toNat = e := by rw [expField_eq, hn]; omega
  have hfrac : (fracField (normalPattern e k)).toNat = k - 2 ^ 23 := by rw [fracField_eq, hn]; omega
  have hsign : sign (normalPattern e k) = false := by rw [sign_eq, hn]; simp; omega
  refine ⟨?_, hsign, ?_⟩
  · simp only [isFinite, bne_iff_ne, ne_eq]
    intro h
    rw [h] at hexp
    simp at hexp
    omega
  · have h0 : expField (normalPattern e k) ≠ 0 := by
      intro h
      rw [h] at hexp
      simp at hexp
      omega
    simp only [val32, units, hsign, magUnits, if_neg h0, hexp, hfrac]
    rw [Nat.add_sub_cancel' hk']
    push_cast
    simp

/-- Every positive real number of the normal range is truncated to a pattern within one part in 2^23. -/
theorem exists_truncation (y : ℝ) (hlo : 1 / 2 ^ 126 ≤ y) (hhi : y < 2 ^ 128) :
    ∃ w : Word, isFinite w = true ∧ sign w = false ∧ 0 ≤ ((val32 w : ℚ) : ℝ) ∧ ((val32 w : ℚ) : ℝ) ≤ y ∧
      y - ((val32 w : ℚ) : ℝ) ≤ y / 2 ^ 23 := by
  have hy : 0 < y := lt_of_lt_of_le (by positivity) hlo
  obtain ⟨m, hm⟩ : ∃ m : ℕ, Int.log 2 y = (m : ℤ) - 126 := by
    have h : (-126 : ℤ) ≤ Int.log 2 y := by
      rw [← Int.zpow_le_iff_le_log (by norm_num) hy]
      calc ((2 : ℕ) : ℝ) ^ (-126 : ℤ) = 1 / 2 ^ 126 := by norm_num
        _ ≤ y := hlo
    exact ⟨(Int.log 2 y + 126).toNat, by omega⟩
  have hm' : m ≤ 253 := by
    have h : Int.log 2 y < 128 := by
      rw [← Int.lt_zpow_iff_log_lt (by norm_num) hy]
      calc y < 2 ^ 128 := hhi
        _ = ((2 : ℕ) : ℝ) ^ (128 : ℤ) := by norm_num
    omega
  have h1 : (2 : ℝ) ^ m / 2 ^ 126 ≤ y := by
    have h := Int.zpow_log_le_self (b := 2) (by norm_num) hy
    rw [hm, Nat.cast_ofNat, zpow_sub₀ (by norm_num)] at h
    exact_mod_cast h
  have h2 : y < (2 : ℝ) ^ m / 2 ^ 126 * 2 := by
    have h := Int.lt_zpow_succ_log_self (b := 2) (by norm_num) y
    rw [hm, Nat.cast_ofNat, zpow_add₀ (by norm_num), zpow_sub₀ (by norm_num), zpow_one] at h
    exact_mod_cast h
  set c : ℝ := 2 ^ m / 2 ^ 149 with hc
  have hcpos : 0 < c := by positivity
  have hc1 : (2 : ℝ) ^ m / 2 ^ 126 = c * 2 ^ 23 := by rw [hc]; ring
  rw [hc1] at h1 h2
  obtain ⟨k, hk⟩ : ∃ k : ℕ, k = ⌊y / c⌋₊ := ⟨_, rfl⟩
  have hk1 : (k : ℝ) ≤ y / c := hk ▸ Nat.floor_le (by positivity)
  have hk2 : y / c < k + 1 := hk ▸ Nat.lt_floor_add_one _
  have hklo : 2 ^ 23 ≤ k := by
    rw [hk]
    apply Nat.le_floor
    rw [le_div_iff₀ hcpos]
    push_cast
    linarith
  have hkhi : k < 2 ^ 24 := by
    have : (k : ℝ) < 2 ^ 24 := by
      refine lt_of_le_of_lt hk1 ?_
      rw [div_lt_iff₀ hcpos]
      linarith
    exact_mod_cast this
  obtain ⟨hf, hs, hv⟩ := normalPattern_spec (e := m + 1) (k := k) (by omega) (by omega) hkhi hklo
  have hval : ((val32 (normalPattern (m + 1) k) : ℚ) : ℝ) = k * c := by
    rw [hv, hc, Nat.add_sub_cancel]
    push_cast
    ring
  refine ⟨normalPattern (m + 1) k, hf, hs, ?_, ?_, ?_⟩
  · rw [hval]; positivity
  · rw [hval]
    rwa [le_div_iff₀ hcpos] at hk1
  · rw [hval]
    rw [div_lt_iff₀ hcpos] at hk2
    have : c * 2 ^ 23 ≤ y := h1
    have h3 : c ≤ y / 2 ^ 23 := by
      rw [le_div_iff₀ (by positivity)]
      exact this
    linarith

theorem val32_flip (w : Word) : val32 (w ^^^ 0x80000000) = -val32 w := by
  have h1 : expField (w ^^^ 0x80000000) = expField w := by
    unfold expField
    apply BitVec.eq_of_getLsbD_eq
    intro i hi
    interval_cases i <;> simp [-BitVec.getLsbD_eq_getElem]
  have h2 : fracField (w ^^^ 0x80000000) = fracField w := by
    unfold fracField
    apply BitVec.eq_of_getLsbD_eq
    intro i hi
    interval_cases i <;> simp [-BitVec.getLsbD_eq_getElem]
  have h3 : sign (w ^^^ 0x80000000) = !sign w := by
    simp only [sign, BitVec.msb_xor, show BitVec.msb (0x80000000 : Word) = true by decide, Bool.xor_true]
  unfold val32 units
  rw [h3]
  have h4 : magUnits (w ^^^ 0x80000000) = magUnits w := by unfold magUnits; rw [h1, h2]
  rw [h4]
  cases sign w <;> simp <;> ring

theorem isFinite_flip (w : Word) : isFinite (w ^^^ 0x80000000) = isFinite w := by
  have h1 : expField (w ^^^ 0x80000000) = expField w := by
    unfold expField
    apply BitVec.eq_of_getLsbD_eq
    intro i hi
    interval_cases i <;> simp [-BitVec.getLsbD_eq_getElem]
  unfold isFinite
  rw [h1]

/-- Every real number of [-1, 1] is within 2^-23 of a finite pattern of [-1, 1]. -/
theorem exists_unit_value (y : ℝ) (h : |y| ≤ 1) :
    ∃ w : Word, isFinite w = true ∧ |val32 w| ≤ 1 ∧ |((val32 w : ℚ) : ℝ) - y| ≤ 1 / 2 ^ 23 := by
  have hbelow : ∀ z : ℝ, 0 ≤ z → z ≤ 1 →
      ∃ w : Word, isFinite w = true ∧ |val32 w| ≤ 1 ∧ |((val32 w : ℚ) : ℝ) - z| ≤ 1 / 2 ^ 23 := by
    intro z hz0 hz1
    by_cases hz : 1 / 2 ^ 126 ≤ z
    · obtain ⟨w, hf, -, hv0, hv1, hv2⟩ := exists_truncation z hz (by linarith [show (1 : ℝ) < 2 ^ 128 by norm_num])
      refine ⟨w, hf, ?_, ?_⟩
      · have h0 : (0 : ℚ) ≤ val32 w := by exact_mod_cast hv0
        have h1 : val32 w ≤ (1 : ℚ) := by
          have : ((val32 w : ℚ) : ℝ) ≤ 1 := hv1.trans hz1
          exact_mod_cast this
        rw [abs_of_nonneg h0]
        exact h1
      · rw [abs_sub_comm, abs_of_nonneg (by linarith)]
        refine hv2.trans ?_
        gcongr
    · refine ⟨0x00000000, by decide, ?_, ?_⟩
      · simp [val32, units, magUnits, expField, fracField, sign]
      · have : ((val32 (0x00000000 : Word) : ℚ) : ℝ) = 0 := by simp [val32, units, magUnits, expField, fracField, sign]
        rw [this, zero_sub, abs_neg, abs_of_nonneg hz0]
        have h5 : z < 1 / 2 ^ 126 := not_le.1 hz
        refine h5.le.trans ?_
        norm_num
  rcases le_total 0 y with hy | hy
  · exact hbelow y hy (le_of_abs_le h)
  · obtain ⟨w, hf, h1, h2⟩ := hbelow (-y) (by linarith) (neg_le_of_neg_le (by linarith [neg_le_of_abs_le h]))
    refine ⟨w ^^^ 0x80000000, (isFinite_flip w).trans hf, ?_, ?_⟩
    · rw [val32_flip, abs_neg]
      exact h1
    · rw [val32_flip]
      push_cast
      rw [show -((val32 w : ℚ) : ℝ) - y = -(((val32 w : ℚ) : ℝ) - -y) by ring, abs_neg]
      exact h2

theorem zero_patterns {x : Word} (h : x = 0x00000000 ∨ x = 0x80000000) : isFinite x = true ∧ val32 x = 0 := by
  rcases h with rfl | rfl <;> refine ⟨by decide, by simp [val32, units, magUnits, expField, fracField, sign]⟩

theorem val32_one : val32 one32 = 1 := by
  have h : units one32 = 2 ^ 149 := by decide +kernel
  rw [val32, h]
  norm_num

theorem not_finite {x : Word} (h : isNaN x = true ∨ isInf x = true) : isFinite x = false := by
  unfold isNaN isInf isFinite at *
  rcases h with h | h <;> simp_all


/-! ### Partial sums of the power series -/

/-- The first `n` terms of the power series with coefficients `c m / m!`. -/
def taylor (c : ℕ → ℚ) (n : ℕ) (x : ℚ) : ℚ := ∑ m ∈ Finset.range n, c m * x ^ m / m.factorial

/-- The coefficients of exp. -/
def expCoef (_ : ℕ) : ℚ := 1
/-- The coefficients of sin. -/
def sinCoef (m : ℕ) : ℚ := if m % 4 = 1 then 1 else if m % 4 = 3 then -1 else 0
/-- The coefficients of cos. -/
def cosCoef (m : ℕ) : ℚ := if m % 4 = 0 then 1 else if m % 4 = 2 then -1 else 0

/-- `n` terms are enough for an error of at most `eps`. -/
abbrev Enough (x eps : ℚ) (n : ℕ) : Prop := 2 * |x| ≤ n + 1 ∧ |x| ^ n / n.factorial * 2 ≤ eps

theorem exists_enough (x eps : ℚ) (h : 0 < eps) : ∃ n, Enough x eps n := by
  have h1 := (FloorSemiring.tendsto_pow_div_factorial_atTop (|x| : ℝ)).eventually
    (gt_mem_nhds (show (0 : ℝ) < eps / 2 by positivity))
  obtain ⟨n, h2, h3⟩ := (h1.and (Filter.eventually_ge_atTop ⌈2 * |x|⌉₊)).exists
  refine ⟨n, ?_, ?_⟩
  · have : 2 * |x| ≤ n := Nat.ceil_le.1 h3
    linarith
  · have h4 : |(x : ℝ)| ^ n / n.factorial * 2 ≤ eps := by linarith
    exact_mod_cast h4

theorem exp_series_near (z : ℂ) (x eps : ℚ) (n : ℕ) (hz : ‖z‖ = |x|) (h : Enough x eps n) :
    ‖Complex.exp z - ∑ m ∈ Finset.range n, z ^ m / m.factorial‖ ≤ eps := by
  have h1 : 2 * |(x : ℝ)| ≤ n + 1 := by exact_mod_cast h.1
  have h2 : |(x : ℝ)| ^ n / n.factorial * 2 ≤ eps := by exact_mod_cast h.2
  rw [Rat.cast_abs] at hz
  refine (Complex.exp_bound' ?_).trans (by rw [hz]; exact h2)
  rw [hz, div_le_iff₀ (by positivity)]
  push_cast
  linarith

theorem exp_near (x eps : ℚ) (n : ℕ) (h : Enough x eps n) :
    |Real.exp x - (taylor expCoef n x : ℚ)| ≤ eps := by
  have h1 := exp_series_near ((x : ℝ) : ℂ) x eps n (by simp) h
  refine le_trans (le_of_eq_of_le ?_ (Complex.abs_re_le_norm _)) h1
  have h2 (m : ℕ) : (((x : ℝ) : ℂ) ^ m / (m.factorial : ℂ)).re = ((expCoef m * x ^ m / m.factorial : ℚ) : ℝ) := by
    rw [← Complex.ofReal_pow, ← Complex.ofReal_natCast, ← Complex.ofReal_div, Complex.ofReal_re, expCoef]
    push_cast
    ring
  rw [Complex.sub_re, Complex.exp_ofReal_re, Complex.re_sum, taylor, Rat.cast_sum]
  simp_rw [h2]

theorem I_pow_parts (m : ℕ) : (Complex.I ^ m).re = cosCoef m ∧ (Complex.I ^ m).im = sinCoef m := by
  rw [Complex.I_pow_eq_pow_mod]
  have : m % 4 < 4 := Nat.mod_lt _ (by norm_num)
  simp only [cosCoef, sinCoef]
  interval_cases m % 4 <;> simp [pow_succ]

theorem rot_term (x : ℚ) (m : ℕ) :
    (((x : ℝ) * Complex.I) ^ m / (m.factorial : ℂ)).re = ((cosCoef m * x ^ m / m.factorial : ℚ) : ℝ) ∧
    (((x : ℝ) * Complex.I) ^ m / (m.factorial : ℂ)).im = ((sinCoef m * x ^ m / m.factorial : ℚ) : ℝ) := by
  have h : ((x : ℝ) * Complex.I) ^ m / (m.factorial : ℂ) = (((x : ℝ) ^ m / m.factorial : ℝ) : ℂ) * Complex.I ^ m := by
    push_cast
    ring
  rw [h, Complex.re_ofReal_mul, Complex.im_ofReal_mul, (I_pow_parts m).1, (I_pow_parts m).2]
  push_cast
  constructor <;> ring

theorem cos_near (x eps : ℚ) (n : ℕ) (h : Enough x eps n) :
    |Real.cos x - (taylor cosCoef n x : ℚ)| ≤ eps := by
  have h1 := exp_series_near ((x : ℝ) * Complex.I) x eps n (by simp) h
  refine le_trans (le_of_eq_of_le ?_ (Complex.abs_re_le_norm _)) h1
  rw [Complex.sub_re, Complex.exp_ofReal_mul_I_re, Complex.re_sum, taylor, Rat.cast_sum]
  simp_rw [(rot_term x _).1]

theorem sin_near (x eps : ℚ) (n : ℕ) (h : Enough x eps n) :
    |Real.sin x - (taylor sinCoef n x : ℚ)| ≤ eps := by
  have h1 := exp_series_near ((x : ℝ) * Complex.I) x eps n (by simp) h
  refine le_trans (le_of_eq_of_le ?_ (Complex.abs_im_le_norm _)) h1
  rw [Complex.sub_im, Complex.exp_ofReal_mul_I_im, Complex.im_sum, taylor, Rat.cast_sum]
  simp_rw [(rot_term x _).2]

/-! ### The units -/

/-- The first pattern with property `p`. -/
def firstPattern (p : Word → Prop) [DecidablePred p] (h : ∃ w, p w) : Word :=
  BitVec.ofNat 32 (Nat.find (p := fun n => p (BitVec.ofNat 32 n)) (h.imp' BitVec.toNat fun w hw => by simpa using hw))

theorem firstPattern_spec (p : Word → Prop) [DecidablePred p] (h : ∃ w, p w) : p (firstPattern p h) :=
  Nat.find_spec (p := fun n => p (BitVec.ofNat 32 n)) (h.imp' BitVec.toNat fun w hw => by simpa using hw)

/-- The sum of enough terms for an error of at most `eps`. -/
def sumNear (c : ℕ → ℚ) (eps : ℚ) (h : 0 < eps) (x : ℚ) : ℚ := taylor c (Nat.find (exists_enough x eps h)) x

theorem exp_sum (eps : ℚ) (h : 0 < eps) (x : ℚ) : |Real.exp x - (sumNear expCoef eps h x : ℚ)| ≤ eps :=
  exp_near _ _ _ (Nat.find_spec (exists_enough x eps h))

theorem sin_sum (eps : ℚ) (h : 0 < eps) (x : ℚ) : |Real.sin x - (sumNear sinCoef eps h x : ℚ)| ≤ eps :=
  sin_near _ _ _ (Nat.find_spec (exists_enough x eps h))

theorem cos_sum (eps : ℚ) (h : 0 < eps) (x : ℚ) : |Real.cos x - (sumNear cosCoef eps h x : ℚ)| ≤ eps :=
  cos_near _ _ _ (Nat.find_spec (exists_enough x eps h))

/-- A pattern of [-1, 1] close to `q`. -/
abbrev CloseTrig (q : ℚ) (w : Word) : Prop := isFinite w = true ∧ |val32 w| ≤ 1 ∧ |val32 w - q| ≤ 1 / 2 ^ 22

theorem exists_closeTrig (q : ℚ) (y : ℝ) (hy : |y| ≤ 1) (hq : |y - q| ≤ ((1 / 2 ^ 23 : ℚ) : ℝ)) : ∃ w, CloseTrig q w := by
  obtain ⟨w, h1, h2, h3⟩ := exists_unit_value y hy
  refine ⟨w, h1, h2, ?_⟩
  rw [← Rat.cast_le (K := ℝ)]
  push_cast at hq ⊢
  refine (abs_sub_le _ y _).trans ((add_le_add h3 hq).trans ?_)
  norm_num

/-- The sine of R131. -/
def sampleSine (x : Word) : Word :=
  if isFinite x = false then cnan
  else if x = 0x00000000 ∨ x = 0x80000000 then x
  else firstPattern (CloseTrig (sumNear sinCoef (1 / 2 ^ 23) (by norm_num) (val32 x)))
    (exists_closeTrig _ _ (Real.abs_sin_le_one _) (sin_sum _ _ _))

/-- The cosine of R131. -/
def sampleCosine (x : Word) : Word :=
  if isFinite x = false then cnan
  else if x = 0x00000000 ∨ x = 0x80000000 then one32
  else firstPattern (CloseTrig (sumNear cosCoef (1 / 2 ^ 23) (by norm_num) (val32 x)))
    (exists_closeTrig _ _ (Real.abs_cos_le_one _) (cos_sum _ _ _))

theorem trig_contract (f : Word → Word) (real : ℝ → ℝ) (zero : Word → Word) (q : Word → ℚ)
    (hnf : ∀ x, isFinite x = false → f x = cnan)
    (hz : ∀ x, x = 0x00000000 ∨ x = 0x80000000 → f x = zero x)
    (hzero : ∀ x, x = 0x00000000 ∨ x = 0x80000000 →
      isFinite (zero x) = true ∧ |val32 (zero x)| ≤ 1 ∧ ((val32 (zero x) : ℚ) : ℝ) = real 0)
    (hf : ∀ x, isFinite x = true → ¬(x = 0x00000000 ∨ x = 0x80000000) → CloseTrig (q x) (f x))
    (hq : ∀ x, |real (val32 x : ℚ) - q x| ≤ ((1 / 2 ^ 23 : ℚ) : ℝ)) : TrigContract f real zero := by
  refine ⟨fun x h => hnf x (not_finite h), hz, fun x hx => ?_, fun x hx _ => ?_⟩
  · by_cases h0 : x = 0x00000000 ∨ x = 0x80000000
    · rw [hz x h0]
      exact ⟨(hzero x h0).1, (hzero x h0).2.1⟩
    · exact ⟨(hf x hx h0).1, (hf x hx h0).2.1⟩
  · by_cases h0 : x = 0x00000000 ∨ x = 0x80000000
    · rw [hz x h0, (hzero x h0).2.2, (zero_patterns h0).2]
      simp [transTol]
    · have h1 : |((val32 (f x) : ℚ) : ℝ) - q x| ≤ ((1 / 2 ^ 22 : ℚ) : ℝ) := by exact_mod_cast (hf x hx h0).2.2
      have h2 := hq x
      rw [abs_sub_comm] at h2
      refine (abs_sub_le _ (q x : ℝ) _).trans ((add_le_add h1 h2).trans ?_)
      norm_num [transTol]

theorem sampleSine_contract : TrigContract sampleSine Real.sin (fun x => x) := by
  refine trig_contract _ _ _ (fun x => sumNear sinCoef (1 / 2 ^ 23) (by norm_num) (val32 x)) (fun x h => by rw [sampleSine, if_pos h])
    (fun x h => by rw [sampleSine, if_neg (by simp [(zero_patterns h).1]), if_pos h]) (fun x h => ?_) (fun x hx h0 => ?_)
    (fun x => sin_sum _ _ _)
  · simp [zero_patterns h]
  · rw [sampleSine, if_neg (by simp [hx]), if_neg h0]
    exact firstPattern_spec _ _

theorem sampleCosine_contract : TrigContract sampleCosine Real.cos (fun _ => one32) := by
  refine trig_contract _ _ _ (fun x => sumNear cosCoef (1 / 2 ^ 23) (by norm_num) (val32 x))
    (fun x h => by rw [sampleCosine, if_pos h])
    (fun x h => by rw [sampleCosine, if_neg (by simp [(zero_patterns h).1]), if_pos h]) (fun x h => ?_) (fun x hx h0 => ?_)
    (fun x => cos_sum _ _ _)
  · rw [val32_one]
    simp
    decide
  · rw [sampleCosine, if_neg (by simp [hx]), if_neg h0]
    exact firstPattern_spec _ _

/-- The sum for the exponential. -/
def expSum (x : Word) : ℚ := sumNear expCoef (1 / 2 ^ 160) (by norm_num) (val32 x)

theorem expSum_near (x : Word) : |Real.exp (val32 x : ℚ) - expSum x| ≤ 1 / 2 ^ 160 := by
  have h := exp_sum (1 / 2 ^ 160) (by norm_num) (val32 x)
  push_cast at h
  exact h

/-- A pattern of sign 0 close to `q`. -/
abbrev CloseExp (q : ℚ) (w : Word) : Prop := isFinite w = true ∧ sign w = false ∧ |val32 w - q| ≤ q / 2 ^ 23

theorem exists_closeExp (q : ℚ) (h1 : 1 / 2 ^ 126 ≤ q) (h2 : q < 2 ^ 128) : ∃ w, CloseExp q w := by
  rw [← Rat.cast_le (K := ℝ)] at h1
  rw [← Rat.cast_lt (K := ℝ)] at h2
  push_cast at h1 h2
  obtain ⟨w, hf, hs, -, hv1, hv2⟩ := exists_truncation (q : ℝ) h1 h2
  refine ⟨w, hf, hs, ?_⟩
  rw [abs_sub_comm, abs_of_nonneg (sub_nonneg.2 (by exact_mod_cast hv1)), ← Rat.cast_le (K := ℝ)]
  push_cast
  exact hv2

/-- The exponential of R132: infinity clearly above 2^127, 2^-126 clearly below it, and else a pattern close to the sum. -/
def sampleExponential (x : Word) : Word :=
  if isNaN x = true then cnan
  else if x = negInf then 0x00000000
  else if x = posInf then posInf
  else if x = 0x00000000 ∨ x = 0x80000000 then one32
  else if h2 : 2 ^ 127 + 2 ^ 100 ≤ expSum x then posInf
  else if h1 : 1 / 2 ^ 126 + 1 / 2 ^ 150 ≤ expSum x then
    firstPattern (CloseExp (expSum x)) (exists_closeExp _ (by linarith) (by linarith))
  else 0x00800000

theorem sampleExponential_contract : ExpContract sampleExponential := by
  have hfin : ∀ x, isFinite x = true → ¬isNaN x = true ∧ x ≠ negInf ∧ x ≠ posInf := by
    intro x hf
    refine ⟨fun h => ?_, ?_, ?_⟩
    · simp [not_finite (.inl h)] at hf
    · rintro rfl
      revert hf
      decide
    · rintro rfl
      revert hf
      decide
  have hz : ∀ x, x = 0x00000000 ∨ x = 0x80000000 → sampleExponential x = one32 := by
    intro x h0
    obtain ⟨h1, h2, h3⟩ := hfin x (zero_patterns h0).1
    rw [sampleExponential, if_neg h1, if_neg h2, if_neg h3, if_pos h0]
  -- what the sample does with a finite nonzero argument, in terms of e and of the sum q near it
  have hx : ∀ x, isFinite x = true → ¬(x = 0x00000000 ∨ x = 0x80000000) →
      (sampleExponential x = posInf ∧ 2 ^ 127 < Real.exp (val32 x : ℚ)) ∨
        (sampleExponential x = 0x00800000 ∧ Real.exp (val32 x : ℚ) ≤ 1 / 2 ^ 126 + 1 / 2 ^ 149) ∨
        ((isFinite (sampleExponential x) = true ∧ sign (sampleExponential x) = false ∧
            |((val32 (sampleExponential x) : ℚ) : ℝ) - Real.exp (val32 x : ℚ)| ≤ (transTol : ℚ) * Real.exp (val32 x : ℚ)) ∧
          1 / 2 ^ 126 ≤ Real.exp (val32 x : ℚ) ∧ Real.exp (val32 x : ℚ) < 2 ^ 128) := by
    intro x hf h0
    obtain ⟨h1, h2, h3⟩ := hfin x hf
    have hn := abs_le.1 (expSum_near x)
    rw [sampleExponential, if_neg h1, if_neg h2, if_neg h3, if_neg h0]
    by_cases h4 : 2 ^ 127 + 2 ^ 100 ≤ expSum x
    · rw [dif_pos h4]
      rw [← Rat.cast_le (K := ℝ)] at h4
      push_cast at h4
      exact .inl ⟨rfl, by norm_num at hn h4 ⊢; linarith [hn.1]⟩
    · rw [dif_neg h4]
      rw [not_le, ← Rat.cast_lt (K := ℝ)] at h4
      push_cast at h4
      by_cases h5 : 1 / 2 ^ 126 + 1 / 2 ^ 150 ≤ expSum x
      · rw [dif_pos h5]
        obtain ⟨g1, g2, g3⟩ := firstPattern_spec (CloseExp (expSum x)) (exists_closeExp _ (by linarith) (by
          rw [← Rat.cast_lt (K := ℝ)]; push_cast; norm_num at h4 ⊢; linarith))
        rw [← Rat.cast_le (K := ℝ)] at h5 g3
        push_cast at h5 g3
        refine .inr (.inr ⟨⟨g1, g2, ?_⟩, ?_, ?_⟩)
        · refine (abs_sub_le _ (expSum x : ℝ) _).trans ?_
          rw [abs_sub_comm (expSum x : ℝ)]
          refine (add_le_add g3 (expSum_near x)).trans ?_
          norm_num [transTol] at hn h5 ⊢
          linarith [hn.1, hn.2]
        · norm_num at hn h5 ⊢; linarith [hn.1]
        · norm_num at hn h4 ⊢; linarith [hn.2]
      · rw [dif_neg h5]
        rw [not_le, ← Rat.cast_lt (K := ℝ)] at h5
        push_cast at h5
        exact .inr (.inl ⟨rfl, by norm_num at hn h5 ⊢; linarith [hn.2]⟩)
  have hone : ((val32 one32 : ℚ) : ℝ) = 1 := by rw [val32_one]; norm_num
  have hmin' : val32 (0x00800000 : Word) = 1 / 2 ^ 126 := by
    rw [val32, show units 0x00800000 = 2 ^ 23 by decide]
    norm_num
  have hmin : ((val32 (0x00800000 : Word) : ℚ) : ℝ) = 1 / 2 ^ 126 := by
    rw [hmin']
    norm_num
  refine ⟨fun x h => by rw [sampleExponential, if_pos h], ?_, ?_, hz, fun x hf => ?_, fun x hf hlo hhi => ?_,
    fun x hf h => ?_, fun x hf hlo hhi => ?_, fun x hf h => ?_⟩
  · rw [sampleExponential, if_neg (by decide), if_neg (by decide), if_pos rfl]
  · rw [sampleExponential, if_neg (by decide), if_pos rfl]
  · by_cases h0 : x = 0x00000000 ∨ x = 0x80000000
    · rw [hz x h0]
      decide
    · rcases hx x hf h0 with ⟨h, -⟩ | ⟨h, -⟩ | ⟨⟨h1, h2, -⟩, -⟩
      · rw [h]
        decide
      · rw [h]
        decide
      · exact ⟨by simpa using (hfin _ h1).1, h2⟩
  · by_cases h0 : x = 0x00000000 ∨ x = 0x80000000
    · rw [hz x h0, (zero_patterns h0).2, hone]
      norm_num [transTol]
      decide
    · rcases hx x hf h0 with ⟨-, h⟩ | ⟨h, h'⟩ | ⟨⟨h1, -, h3⟩, -⟩
      · exact absurd h (not_lt.2 hhi)
      · rw [h, hmin]
        refine ⟨by decide, ?_⟩
        rw [abs_sub_comm, abs_of_nonneg (by linarith)]
        norm_num [transTol] at hlo h' ⊢
        linarith
      · exact ⟨h1, h3⟩
  · have h0 : ¬(x = 0x00000000 ∨ x = 0x80000000) := by
      intro h0
      rw [(zero_patterns h0).2] at h
      norm_num at h
    rcases hx x hf h0 with ⟨h1, -⟩ | ⟨-, h'⟩ | ⟨-, -, h'⟩
    · exact h1
    · norm_num at h h'
      linarith
    · linarith
  · have h0 : ¬(x = 0x00000000 ∨ x = 0x80000000) := by
      intro h0
      rw [(zero_patterns h0).2] at hlo
      norm_num at hlo
    rcases hx x hf h0 with ⟨h1, -⟩ | ⟨-, h'⟩ | ⟨⟨h1, -, h3⟩, -⟩
    · exact .inl h1
    · norm_num at hlo h'
      linarith
    · exact .inr ⟨h1, h3⟩
  · have h0 : ¬(x = 0x00000000 ∨ x = 0x80000000) := by
      intro h0
      rw [(zero_patterns h0).2] at h
      norm_num at h
    rcases hx x hf h0 with ⟨-, h'⟩ | ⟨h1, -⟩ | ⟨-, h', -⟩
    · norm_num at h h'
      linarith
    · rw [h1, hmin']
      norm_num
      decide
    · linarith

theorem sample_contract : TransContract sampleSine sampleCosine sampleExponential :=
  ⟨sampleSine_contract, sampleCosine_contract, sampleExponential_contract⟩

/-- Sine, cosine and exponential units that meet TransContract (R130). -/
structure TransUnits where
  sine : Word → Word := sampleSine
  cosine : Word → Word := sampleCosine
  exponential : Word → Word := sampleExponential
  /-- TransContract(TRANS_TOL, TRIG_RANGE) (R130). -/
  contract : TransContract sine cosine exponential := by exact sample_contract
deriving Inhabited

end Sys2Proof.Machine
end

