-- ==== Sys2Proof/Config.lean ====
section
/-! DEFINITION. What an implementation fixes (the parameters) and what the spec leaves free (opaque constants without a body).
The events an execution is made of stand here too, because the free schedule is a sequence of them. -/

namespace Sys2Proof

/-- The implementation parameters that are read-only registers of the instance (spec/00_scope.md R7; spec/10_state.md R31). -/
structure Params where
  /-- L, lanes per lane group (LANES). -/
  laneWidth : Nat
  /-- NUM_WORKERS (WORKERS). -/
  numWorkers : Nat
  /-- PROG_DEPTH, words of kernel program memory (PROGDEPTH). -/
  progDepth : Nat
  /-- FB_CAPACITY, bytes of framebuffer space (FBCAP). -/
  fbCapacity : Nat
  /-- MAX_DIM, the largest accepted WIDTH and HEIGHT (MAXDIM). -/
  maxDim : Nat
deriving DecidableEq, Repr

/-- The ranges of spec/00_scope.md R7. -/
abbrev Params.Legal (p : Params) : Prop :=
  (p.laneWidth = 4 ∨ p.laneWidth = 8) ∧ 1 ≤ p.numWorkers ∧ (72 ≤ p.progDepth ∧ p.progDepth ≤ 65536) ∧
    (3 ≤ p.fbCapacity ∧ p.fbCapacity < 2 ^ 32) ∧ (1 ≤ p.maxDim ∧ p.maxDim ≤ 65535)

/-- The instance State.reset describes: PROG_DEPTH and MAX_DIM at R7's defaults; L, NUM_WORKERS and FB_CAPACITY have none
(DESIGN CHOICE, notes/assumptions/5.md, unsafe). -/
def Params.default : Params :=
  { laneWidth := 8, numWorkers := 2, progDepth := 1024, fbCapacity := 1440000, maxDim := 65535 }

/-- The host's operations (spec/45_row_dispatch.md R230). The size `n` of a CSR access is part of it because the spec says what
an access of another width than 32 bits does (spec/20_memory.md R50). -/
inductive HostOp where
  | csrRead (off n : Nat)
  | csrWrite (off n : Nat) (v : Word)
  | fbRead (off n : Nat)
  | fbWrite (off n : Nat) (v : Word)
deriving DecidableEq, Repr, Inhabited

/-- One atomic step of an execution (spec/20_memory.md R58; spec/70_reset_and_hazards.md R340). -/
inductive Event where
  /-- The reset input is asserted (R340). -/
  | reset
  /-- One host access (R55 a). -/
  | host (op : HostOp)
  /-- The controller gives row `r` to worker `w` (spec/45_row_dispatch.md R236). -/
  | claim (w r : Nat)
  /-- Worker `w` executes one instruction (spec/43_sequencing.md R171). -/
  | work (w : Nat)
deriving DecidableEq, Repr, Inhabited

/-- Free value: the sine, cosine and exponential units. Which functions they are is a parameter of the model, of which exactly
TransContract is known (spec/41_transcendental.md R130 to R132; spec/00_scope.md R7). notes/assumptions/8.md. -/
opaque Config.units : Machine.TransUnits

/-- Free value: the framebuffer byte at each offset after power-on (spec/10_state.md R47; spec/93_implementation_defined.md U9). -/
opaque Config.powerOnByte : Nat → Byte

/-- Free value: the execution's event number `n` once the agenda of State is used up (spec/20_memory.md R58;
spec/93_implementation_defined.md U7). -/
opaque Config.freeSchedule : Nat → Event

end Sys2Proof
end

