-- ==== Sys2Proof/Machine/RefKernel.lean ====
section
/-! DEFINITION. P-REF, the reference kernel that PROG holds after reset (spec/46_reference_kernel.md R270), and the contents of
PROG after reset (spec/10_state.md R45). -/

namespace Sys2Proof.Machine

/-- The 72 words of R270, eight a line, words 0 to 71. -/
def refKernel : List Word :=
  [0x10000000, 0x10200001, 0x10400003, 0x10600004, 0x20800000, 0x24841000, 0x2C841800, 0x20A10800,
   0x24A51800, 0x2CA51800, 0x38C42000, 0x18E03F33, 0x1CE03333, 0x24C73000, 0x30C60000, 0x19004080,
   0x28C83000, 0x24C83000, 0x29443000, 0x29653000, 0x19203F80, 0x13000002, 0x0C00081E, 0x428A0000,
   0x42AB0000, 0x52140000, 0x26CA5800, 0x32D60000, 0x22104800, 0x22314800, 0x22524800, 0x2A10B000,
   0x2A31B000, 0x2A52B000, 0x218C8000, 0x21AD8800, 0x21CE9000, 0x12E00005, 0x568A0000, 0x2A94B800,
   0x2AB5B800, 0x2294B800, 0x22B5B800, 0x2294C000, 0x22B5C000, 0x46940000, 0x46B50000, 0x2E94B800,
   0x2EB5B800, 0x22943800, 0x22B53800, 0x214AA000, 0x216BA800, 0x27464000, 0x221A2800, 0x263A2800,
   0x22452800, 0x265A9000, 0x4A100000, 0x4A310000, 0x4A520000, 0x1B2040E0, 0x2A198000, 0x2A398800,
   0x2A599000, 0x2E106000, 0x2E316800, 0x2E527000, 0x58100000, 0x58110001, 0x58120002, 0x08000000]

/-- PROG after reset (R45): P-REF at 0 to 71. Every other word is 0, which a store of words leaves unlisted. -/
def resetProg : Store Word := refKernel.mapIdx fun k w => (k, w)

end Sys2Proof.Machine
end

