-- ==== Sys2Proof/Machine/State.lean ====
section
/-! DEFINITION. The state of the block (spec/10_state.md), the reasons a step can stop, and the state after reset (R49). -/

namespace Sys2Proof.Machine

/-- Framebuffer space (R47): a list of (offset, byte) pairs with strictly rising offsets. An offset that is not listed has not
been written since power-on and holds no byte of the list: what it reads as is the free value `Config.powerOnByte`. -/
abbrev Memory := List Host.Cell

/-- The canonical form of a store: addresses strictly rising. -/
abbrev Store.rising {β : Type} (m : Store β) : Prop := m.Pairwise fun p q => p.1 < q.1

/-- The canonical form of framebuffer space. An unlisted offset reads as no byte, so no entry can equal it. -/
abbrev Memory.wf (m : Memory) : Prop := Store.rising m

/-- The canonical form of PROG: rising indices, and no entry 0x00000000, which is what an unlisted word reads as (R45). -/
abbrev ProgMem.wf (m : Store Word) : Prop := Store.rising m ∧ ∀ p ∈ m, p.2 ≠ 0

/-- WSTATE (R25). -/
inductive WState where
  | idle
  | active
deriving DecidableEq, Repr

/-- FSTATE (R27). -/
inductive FState where
  | idle
  | running
deriving DecidableEq, Repr

/-- One row worker (R21 to R25). -/
structure Worker where
  /-- v0 to v31, each L lanes (R21). -/
  v : Vector Lanes 32
  /-- The kernel program counter (R23). -/
  pc : Nat
  /-- LACTIVE (R24). -/
  lactive : Bool
  /-- LSTART (R24). -/
  lstart : Nat
  /-- LEND (R24). -/
  lend : Nat
  /-- LCOUNT (R24). -/
  lcount : BitVec 8
  /-- LITER (R24). -/
  liter : BitVec 8
  /-- X0, the start column of the lane group (R25). -/
  x0 : Nat
  /-- ROW (R25). -/
  row : Nat
  /-- WSTATE (R25). -/
  wstate : WState
deriving DecidableEq, Repr

/-- The frame registers, latched at START (R28). -/
structure Frame where
  /-- F.W. -/
  w : BitVec 16
  /-- F.H. -/
  h : BitVec 16
  /-- F.TIME. -/
  time : Word
  /-- F.QMODE: false exact, true approximate. -/
  qmode : Bool
  /-- F.KENTRY. -/
  kentry : BitVec 16
  /-- F.G, complete lane groups per row. -/
  g : Nat
deriving DecidableEq, Repr

/-- What the block answers to a host access (spec/20_memory.md R50, R51; notes/assumptions/3.md). -/
inductive Response where
  /-- No access since reset. -/
  | none
  /-- A read, with its data. -/
  | readData (data : Word)
  /-- A write was taken (or ignored without notice). -/
  | writeDone
  /-- A bus error on a read, with the data it returns. -/
  | readError (data : Word)
  /-- A bus error on a write. -/
  | writeError
deriving DecidableEq, Repr

/-- The state of the block. -/
structure State where
  /-- The read-only parameters of the instance (R31). -/
  params : Params
  /-- STATUS.DONE (R35). -/
  done : Bool
  /-- STATUS.ERR (R35). -/
  err : Bool
  /-- STATUS.ERR_CODE (R35). -/
  errCode : Byte
  /-- IRQEN.DONE_IE (R36). -/
  doneIE : Bool
  /-- IRQEN.ERR_IE (R36). -/
  errIE : Bool
  /-- ERRLOC (R37). -/
  errLoc : Word
  /-- ERRPC (R38). -/
  errPc : Word
  /-- ERRINSTR (R38). -/
  errInstr : Word
  /-- FRAMES (R39). -/
  frames : Word
  /-- WIDTH[15:0] (R40). -/
  width : BitVec 16
  /-- HEIGHT[15:0] (R40). -/
  height : BitVec 16
  /-- TIME (R41). -/
  time : Word
  /-- QMODE.MODE (R42): false exact, true approximate. -/
  qmode : Bool
  /-- KENTRY[15:0] (R43). -/
  kentry : BitVec 16
  /-- PROG (R45): the words that are not 0, by index. -/
  prog : Store Word
  /-- Framebuffer space (R47). -/
  fb : Memory
  /-- FSTATE (R27). -/
  fstate : FState
  /-- UNCLAIMED (R27), in rising order. -/
  unclaimed : List Nat
  /-- DONE_ROWS (R27), in rising order. -/
  doneRows : List Nat
  /-- The frame registers (R28). -/
  frame : Frame
  /-- The row workers, NUM_WORKERS of them (R20). -/
  workers : List Worker
  /-- The model's own (notes/assumptions/2.md): the number of the worker whose instruction step it is. -/
  turn : Nat
  /-- The model's own (notes/assumptions/1.md): the next atomic steps of the execution. -/
  agenda : List Event
  /-- The model's own (notes/assumptions/1.md): how many events of the free schedule have been taken. -/
  tick : Nat
  /-- The model's own (notes/assumptions/3.md): the block's answer to the latest host access. -/
  resp : Response
deriving DecidableEq, Repr

/-- Why a step stops. The block's own faults (spec/60_exceptions.md R300) are NOT here: they are recorded and the run goes on. -/
inductive Fault where
  /-- STQ computed an address at or above FB_CAPACITY, where no framebuffer byte exists (spec/20_memory.md R51). Raised by
  `storeLanes`. The spec derives that it never happens (R52) and no state a run reaches raises it: safe
  (notes/assumptions/11.md). -/
  | noSuchByte (addr : Nat)
deriving DecidableEq, Repr

/-- Why a step gives no meaning. -/
inductive Refusal where
  /-- An arm of `exec` without a meaning yet. No arm is left so: safe. -/
  | notModelled (mnemonic : String)
deriving DecidableEq, Repr

/-- A lane group of zeros (+0.0 in every lane, R22). -/
def zeroLanes (l : Nat) : Lanes := List.replicate l 0

/-- A worker after reset (R25, R49): IDLE. The other values are unspecified and not observable there
(spec/93_implementation_defined.md U10): DESIGN CHOICE 0, notes/assumptions/6.md. -/
def Worker.atReset (l : Nat) : Worker :=
  { v := Vector.replicate 32 (zeroLanes l), pc := 0, lactive := false, lstart := 0, lend := 0, lcount := 0, liter := 0,
    x0 := 0, row := 0, wstate := .idle }

/-- The frame registers after reset: unspecified and not observable (R28); DESIGN CHOICE 0, notes/assumptions/6.md. -/
def Frame.atReset : Frame := { w := 0, h := 0, time := 0, qmode := false, kentry := 0, g := 0 }

/-- The block after reset (R49, spec/70_reset_and_hazards.md R340), given what reset leaves alone: the parameters, the
framebuffer and the rest of the execution. -/
def State.resetWith (p : Params) (fb : Memory) (agenda : List Event) (tick : Nat) : State :=
  { params := p
    done := false, err := false, errCode := 0, doneIE := false, errIE := false
    errLoc := 0, errPc := 0, errInstr := 0, frames := 0
    width := 0, height := 0, time := 0, qmode := false, kentry := 0
    prog := resetProg, fb := fb
    fstate := .idle, unclaimed := [], doneRows := [], frame := Frame.atReset
    workers := List.replicate p.numWorkers (Worker.atReset p.laneWidth)
    turn := 0, agenda := agenda, tick := tick, resp := .none }

/-- The machine right after power-on reset: the instance `Params.default`, no framebuffer byte written, no event given. -/
def State.reset : State := State.resetWith Params.default [] [] 0

end Sys2Proof.Machine
end

