-- ==== Sys2Proof/Machine/Operands.lean ====
section
/-! DEFINITION. The operand forms of the kernel instructions: registers of the executing worker, register groups, lanes and
immediates (spec/30_encoding.md R71 to R76; spec/00_scope.md R9). -/

namespace Sys2Proof.Machine

/-- Worker number `w`; past the last worker, a worker as after reset. -/
def State.worker (s : State) (w : Nat) : Worker := s.workers.getD w (Worker.atReset s.params.laneWidth)

/-- Replace worker `w`. -/
def State.setWorker (s : State) (w : Nat) (u : Worker) : State := { s with workers := s.workers.set w u }

/-- The executing worker (notes/assumptions/2.md). -/
def State.me (s : State) : Worker := s.worker s.turn

/-- Replace the executing worker. -/
def State.setMe (s : State) (u : Worker) : State := s.setWorker s.turn u

/-- `V[r]` of the executing worker (R9). -/
def reg (s : State) (r : VReg) : Lanes := s.me.v[r]

/-- `V[r] <- x` of the executing worker (R9): every lane is written. -/
def setReg (s : State) (r : VReg) (x : Lanes) : State := s.setMe { s.me with v := s.me.v.set r x }

/-- Lane `j` of a lane group (R9). -/
def lane (x : Lanes) (j : Nat) : Word := x.getD j 0

/-- `V[r][j]` of the executing worker. -/
def regLane (s : State) (r : VReg) (j : Nat) : Word := lane (reg s r) j

/-- The lane group with `f j` in lane `j`, for j = 0 to L-1, all at once (R9, R12). -/
def perLane (s : State) (f : Nat → Word) : Lanes := (List.range s.params.laneWidth).map f

/-- Component `k` of the register group named by `r`: register `v(r+k)` (R75, R76). A group that fits never wraps. -/
def groupReg (r : VReg) (k : Nat) : VReg := ⟨(r.val + k) % 32, Nat.mod_lt _ (by decide)⟩

/-- FLIH's immediate: bits 31:16 of the pattern, the low half zero (R73; spec/42_swizzle_move.md R151). -/
def highHalf (imm : BitVec 16) : Word := imm.setWidth 32 <<< 16

/-- FLIL's immediate inserted below the upper half of `x` (R73; spec/42_swizzle_move.md R152). -/
def insertLow (x : Word) (imm : BitVec 16) : Word := (x &&& 0xFFFF0000) ||| imm.setWidth 32

end Sys2Proof.Machine
end

