-- ==== Sys2Proof/Machine/Ops.lean ====
section
/-! DEFINITION. The named operations over memories, workers and rows that the instructions and the controller share: stores, the
program-counter advance, invocation start, row completion, and the recording of a fault with the recovery from it. -/

namespace Sys2Proof.Machine

/-! ### Stores -/

/-- The value listed at address `a`. -/
def Store.get? {β : Type} : Store β → Nat → Option β
  | [], _ => none
  | (k, v) :: m, a => if a = k then some v else Store.get? m a

/-- The store with `b` at address `a`, in its place in the order. -/
def Store.put {β : Type} : Store β → Nat → β → Store β
  | [], a, b => [(a, b)]
  | (k, v) :: m, a, b =>
    if a < k then (a, b) :: (k, v) :: m else if a = k then (a, b) :: m else (k, v) :: Store.put m a b

/-- The store with nothing at address `a`. -/
def Store.erase {β : Type} (m : Store β) (a : Nat) : Store β := m.filter fun p => p.1 ≠ a

/-- `FB[a]` as the host reads it (spec/10_state.md R47): the byte last written, or the power-on byte. -/
def fbByte (s : State) (a : Nat) : Byte := (Store.get? s.fb a).getD (Config.powerOnByte a)

/-- `FBWrite(a, b)` (spec/00_scope.md R9). -/
def fbPut (s : State) (a : Nat) (b : Byte) : State := { s with fb := Store.put s.fb a b }

/-- Several byte writes, in order. -/
def fbPutAll (s : State) (ws : List (Nat × Byte)) : State := ws.foldl (fun t p => fbPut t p.1 p.2) s

/-- `PROG[k]` (R45). -/
def progWord (s : State) (k : Nat) : Word := (Store.get? s.prog k).getD 0

/-- `PROG[k] <- w`: a zero word is what an unlisted word reads as, so it is not listed (R45). -/
def setProg (s : State) (k : Nat) (w : Word) : State :=
  { s with prog := if w = 0 then Store.erase s.prog k else Store.put s.prog k w }

/-- The word at the executing worker's pc (spec/20_memory.md R53). -/
def fetchWord (s : State) : Word := progWord s s.me.pc

/-! ### Sequencing -/

/-- The program-counter advance at the end of a step (spec/43_sequencing.md R171): pc + 1, or at the end of an active loop's body
the loop-back or the loop's end. -/
def Worker.advance (u : Worker) : Worker :=
  if u.lactive = true ∧ u.pc = u.lend then
    if u.liter < u.lcount then { u with liter := u.liter + 1, pc := u.lstart }
    else { u with lactive := false, liter := 0, pc := u.pc + 1 }
  else { u with pc := u.pc + 1 }

/-- The executing worker's advance (R171). -/
def advance (s : State) : State := s.setMe s.me.advance

/-- Invocation start on worker `w` for lane group `g` of row `r` (spec/43_sequencing.md R170; spec/10_state.md R22). -/
def startInvocation (s : State) (w g r : Nat) : State :=
  s.setWorker w
    { s.worker w with
      x0 := g * s.params.laneWidth, row := r, v := Vector.replicate 32 (zeroLanes s.params.laneWidth)
      lactive := false, liter := 0, pc := s.frame.kentry.toNat }

/-! ### Rows and frames -/

/-- A row added to a set of rows kept in rising order. -/
def insertRow (r : Nat) : List Nat → List Nat
  | [] => [r]
  | x :: xs => if r < x then r :: x :: xs else if r = x then x :: xs else x :: insertRow r xs

/-- A row taken out of a set of rows. -/
def removeRow (r : Nat) (rows : List Nat) : List Nat := rows.filter fun x => x ≠ r

/-- Every row of the frame, 0 to F.H - 1. -/
def allRows (s : State) : List Nat := List.range s.frame.h.toNat

/-- Frame completion (spec/45_row_dispatch.md R239). -/
def completeFrame (s : State) : State := { s with fstate := .idle, done := true, frames := s.frames + 1 }

/-- Row `r` is added to DONE_ROWS and worker `w` becomes IDLE (spec/45_row_dispatch.md R240). -/
def finishRow (s : State) (w r : Nat) : State :=
  { s.setWorker w { s.worker w with wstate := .idle } with doneRows := insertRow r s.doneRows }

/-- Completing row `r` on worker `w`; the last row completes the frame in the same step (R240). -/
def completeRow (s : State) (w r : Nat) : State :=
  if (finishRow s w r).doneRows = allRows s then completeFrame (finishRow s w r) else finishRow s w r

/-- The lane group of the executing worker's invocation: g, where X0 = g * L (R237; notes/assumptions/12.md). -/
def groupIndex (s : State) : Nat := s.me.x0 / s.params.laneWidth

/-- The end of the executing worker's invocation (R237): the next group of the row on the same worker, or the row is complete. -/
def endInvocation (s : State) : State :=
  if groupIndex s + 1 < s.frame.g then startInvocation s s.turn (groupIndex s + 1) s.me.row
  else completeRow s s.turn s.me.row

/-! ### Taking a fault, and the recovery from it -/

/-- `ERRLOC <- (X0 << 16) | ROW` (spec/60_exceptions.md R302). -/
def locWord (x0 row : Nat) : Word := BitVec.ofNat 32 x0 <<< 16 ||| BitVec.ofNat 32 row

/-- Every running invocation is abandoned (R302). -/
def idleAll (ws : List Worker) : List Worker := ws.map fun u => { u with wstate := .idle }

/-- Recording a kernel fault of the executing worker at its pc (R302). The block does not trap: the faulting instruction has no
effect, the frame ends, and STATUS, ERRLOC, ERRPC and ERRINSTR say why. ERRINSTR is 0 for PC_OVERFLOW. -/
def raiseFault (code : FaultCode) (s : State) : State :=
  { s with
    err := true, errCode := code.code
    errLoc := locWord s.me.x0 s.me.row
    errPc := BitVec.ofNat 32 s.me.pc
    errInstr := if code = .pcOverflow then 0 else fetchWord s
    workers := idleAll s.workers, unclaimed := [], fstate := .idle }

/-- Recording a configuration fault in the START step (R302). -/
def configFault (code : FaultCode) (s : State) : State :=
  { s with err := true, errCode := code.code, errLoc := 0, errPc := 0, errInstr := 0 }

/-- The host's recovery, in the place of a return from exception (R303, R304): ERR is cleared, and ERR_CODE with it
(spec/10_state.md R35). -/
def clearErr (s : State) : State := { s with err := false, errCode := 0 }

/-- DONE is cleared (spec/10_state.md R35). -/
def clearDone (s : State) : State := { s with done := false }

end Sys2Proof.Machine
end

