-- ==== Sys2Proof/Machine/Moves.lean ====
section
/-! DEFINITION. The moves and swizzles: FMOV, FLIH, FLIL, SWZ4, SWAP2 (spec/42_swizzle_move.md). Bit operations: nothing is rounded. -/

namespace Sys2Proof.Machine

/-- FMOV (R150). -/
def execFmov (rd ra : VReg) (s : State) : Host.Outcome State Fault Refusal :=
  .next (advance (setReg s rd (reg s ra)))

/-- FLIH (R151): every lane gets the same pattern. -/
def execFlih (rd : VReg) (imm : BitVec 16) (s : State) : Host.Outcome State Fault Refusal :=
  .next (advance (setReg s rd (perLane s fun _ => highHalf imm)))

/-- FLIL (R152): reads vd and keeps each lane's upper half. -/
def execFlil (rd : VReg) (imm : BitVec 16) (s : State) : Host.Outcome State Fault Refusal :=
  .next (advance (setReg s rd (perLane s fun j => insertLow (regLane s rd j) imm)))

/-- The quad `rd` takes (x, y, y, x) (R153). -/
def setSwizzle (s : State) (rd : VReg) (x y : Lanes) : State :=
  setReg (setReg (setReg (setReg s rd x) (groupReg rd 1) y) (groupReg rd 2) y) (groupReg rd 3) x

/-- SWZ4 (R153): both sources are read before any write; a group past v31 is REG_RANGE. -/
def execSwz4 (rd ra : VReg) (s : State) : Host.Outcome State Fault Refusal :=
  if quadFits rd && pairFits ra then .next (advance (setSwizzle s rd (reg s ra) (reg s (groupReg ra 1))))
  else .next (raiseFault .regRange s)

/-- The pair `rd` takes (y, x) (R154). -/
def setSwap (s : State) (rd : VReg) (x y : Lanes) : State := setReg (setReg s rd y) (groupReg rd 1) x

/-- SWAP2 (R154): both sources are read before any write; a group past v31 is REG_RANGE. -/
def execSwap2 (rd ra : VReg) (s : State) : Host.Outcome State Fault Refusal :=
  if pairFits rd && pairFits ra then .next (advance (setSwap s rd (reg s ra) (reg s (groupReg ra 1))))
  else .next (raiseFault .regRange s)

end Sys2Proof.Machine
end

