-- ==== Sys2Proof/Machine/Arith.lean ====
section
/-! DEFINITION. The lane-parallel arithmetic: FADD, FSUB, FMUL, FDIV, FABS, FNEG, DOT2, DOT4 (spec/40_fp_arith.md). No flag is
written and no numeric condition is a fault (R105). -/

namespace Sys2Proof.Machine

/-- `V[rd] <- r` with `r[j] = f(V[ra][j])` (R12). -/
def laneUnary (f : Word → Word) (rd ra : VReg) (s : State) : State :=
  advance (setReg s rd (perLane s fun j => f (regLane s ra j)))

/-- `V[rd] <- r` with `r[j] = f(V[ra][j], V[rb][j])` (R12). -/
def laneBinary (f : Word → Word → Word) (rd ra rb : VReg) (s : State) : State :=
  advance (setReg s rd (perLane s fun j => f (regLane s ra j) (regLane s rb j)))

/-- FADD (R110). -/
def execFadd (rd ra rb : VReg) (s : State) : Host.Outcome State Fault Refusal := .next (laneBinary add32 rd ra rb s)

/-- FSUB (R111): va - vb. -/
def execFsub (rd ra rb : VReg) (s : State) : Host.Outcome State Fault Refusal := .next (laneBinary sub32 rd ra rb s)

/-- FMUL (R112). -/
def execFmul (rd ra rb : VReg) (s : State) : Host.Outcome State Fault Refusal := .next (laneBinary mul32 rd ra rb s)

/-- FDIV (R113): va / vb. -/
def execFdiv (rd ra rb : VReg) (s : State) : Host.Outcome State Fault Refusal := .next (laneBinary div32 rd ra rb s)

/-- The sign bit cleared (R114). -/
def abs32 (x : Word) : Word := x &&& 0x7FFFFFFF

/-- The sign bit flipped (R115). -/
def neg32 (x : Word) : Word := x ^^^ 0x80000000

/-- FABS (R114): a bit operation. -/
def execFabs (rd ra : VReg) (s : State) : Host.Outcome State Fault Refusal := .next (laneUnary abs32 rd ra s)

/-- FNEG (R115): a bit operation. -/
def execFneg (rd ra : VReg) (s : State) : Host.Outcome State Fault Refusal := .next (laneUnary neg32 rd ra s)

/-- Product `k` of a dot product in lane `j` (R116, R117). -/
def dotTerm (s : State) (ra rb : VReg) (k j : Nat) : Word :=
  mul32 (regLane s (groupReg ra k) j) (regLane s (groupReg rb k) j)

/-- The dot product of two pairs in lane `j` (R116). -/
def dot2Lane (s : State) (ra rb : VReg) (j : Nat) : Word := add32 (dotTerm s ra rb 0 j) (dotTerm s ra rb 1 j)

/-- DOT2 (R116); a pair past v31 is REG_RANGE. -/
def execDot2 (rd ra rb : VReg) (s : State) : Host.Outcome State Fault Refusal :=
  if pairFits ra && pairFits rb then .next (advance (setReg s rd (perLane s (dot2Lane s ra rb))))
  else .next (raiseFault .regRange s)

/-- The dot product of two quads in lane `j`, a balanced tree (R117). -/
def dot4Lane (s : State) (ra rb : VReg) (j : Nat) : Word :=
  add32 (add32 (dotTerm s ra rb 0 j) (dotTerm s ra rb 1 j)) (add32 (dotTerm s ra rb 2 j) (dotTerm s ra rb 3 j))

/-- DOT4 (R117); a quad past v31 is REG_RANGE. -/
def execDot4 (rd ra rb : VReg) (s : State) : Host.Outcome State Fault Refusal :=
  if quadFits ra && quadFits rb then .next (advance (setReg s rd (perLane s (dot4Lane s ra rb))))
  else .next (raiseFault .regRange s)

end Sys2Proof.Machine
end

