-- ==== Sys2Proof/Machine/Transcendental.lean ====
section
/-! DEFINITION. The transcendental pipelines: FSIN, FCOS, FEXP, FTANH (spec/41_transcendental.md). The units are the free value
`Config.units`, which meet TransContract (R130). Each result also passes through the limits that the contract puts on the bits of
the result (`boundSin`, `boundCos`, `boundExp`): they change no result of admissible units, and they let the exact points be read
off without the contract. notes/assumptions/8.md. -/

namespace Sys2Proof.Machine

/-- A finite pattern's magnitude limited to 1.0, its sign kept (R131 S3). -/
def limitUnit (y : Word) : Word := if (y &&& 0x7FFFFFFF).toNat ≤ 0x3F800000 then y else withSign (sign y) one32

/-- A sine unit whose raw results are `f` (R131 S1 to S3). -/
def boundSin (f : Word → Word) (x : Word) : Word :=
  if isNaN x || isInf x then cnan
  else if x = 0x00000000 ∨ x = 0x80000000 then x
  else limitUnit (f x)

/-- A cosine unit whose raw results are `f` (R131 S1 to S3). -/
def boundCos (f : Word → Word) (x : Word) : Word :=
  if isNaN x || isInf x then cnan
  else if x = 0x00000000 ∨ x = 0x80000000 then one32
  else limitUnit (f x)

/-- The least pattern R132 allows for the exponential of a finite nonzero `x`. Patterns with sign 0 are ordered as numbers.
From 0x42B17218 up e ≥ 2^128 (E5), from 0x42B00F34 up e > 2^127; a positive `x` has e > 1 and a negative `x` with
e ≥ 2^-126 has a result near 2^-126 or above (E4). -/
def expLow (x : Word) : Nat :=
  if sign x then if x.toNat < 0xC2AEAC50 then 0x007FFFF8 else 0
  else if 0x42B17218 ≤ x.toNat then 0x7F800000
  else if 0x42B00F34 ≤ x.toNat then 0x7EFFFFF0
  else 0x3F7FFFF0

/-- The greatest pattern R132 allows for the exponential of a finite nonzero `x`: 2^-126 where e < 2^-126 (E6), just above 1
for another negative `x` (E4), finite where e ≤ 2^127 (E4), and infinity otherwise (E5). -/
def expHigh (x : Word) : Nat :=
  if sign x then if x.toNat < 0xC2AEAC50 then 0x3F800008 else 0x00800000
  else if 0x42B00F34 ≤ x.toNat then 0x7F800000
  else 0x7F000008

/-- An exponential unit whose raw results are `f` (R132). -/
def boundExp (f : Word → Word) (x : Word) : Word :=
  if isNaN x then cnan
  else if x = posInf then posInf
  else if x = negInf then 0x00000000
  else if x = 0x00000000 ∨ x = 0x80000000 then one32
  else BitVec.ofNat 32 (max (expLow x) (min (f x).toNat (expHigh x)))

/-- `sinA` (R130, R131). -/
def sinA (x : Word) : Word := boundSin Config.units.sine x

/-- `cosA` (R130, R131). -/
def cosA (x : Word) : Word := boundCos Config.units.cosine x

/-- `expA` (R130, R132). -/
def expA (x : Word) : Word := boundExp Config.units.exponential x

/-- The FTANH lane function over an exponential unit `f`: (E - 1) / (E + 1) with E = f(x + x), each operation rounded, no clamp
(R143). -/
def tanhOf (f : Word → Word) (x : Word) : Word :=
  div32 (sub32 (f (add32 x x)) one32) (add32 (f (add32 x x)) one32)

/-- FSIN (R140). -/
def execFsin (rd ra : VReg) (s : State) : Host.Outcome State Fault Refusal := .next (laneUnary sinA rd ra s)

/-- FCOS (R141). -/
def execFcos (rd ra : VReg) (s : State) : Host.Outcome State Fault Refusal := .next (laneUnary cosA rd ra s)

/-- FEXP (R142). -/
def execFexp (rd ra : VReg) (s : State) : Host.Outcome State Fault Refusal := .next (laneUnary expA rd ra s)

/-- FTANH (R143). -/
def execFtanh (rd ra : VReg) (s : State) : Host.Outcome State Fault Refusal := .next (laneUnary (tanhOf expA) rd ra s)

end Sys2Proof.Machine
end

