-- ==== Sys2Proof/Machine/PixelStore.lean ====
section
/-! DEFINITION. The quantizer and the pixel store: the table ROM, the two strategies and STQ (spec/44_quantizer_store.md). -/

namespace Sys2Proof.Machine

/-- The approximation table ROM (R211), sixteen entries a line. It is a constant of the block (spec/10_state.md R46). -/
def lut : List Nat :=
  [0, 5, 10, 15, 20, 25, 30, 35, 40, 45, 49, 54, 59, 64, 68, 73] ++
  [77, 82, 86, 91, 95, 99, 104, 108, 112, 116, 120, 124, 127, 131, 135, 138] ++
  [142, 145, 149, 152, 155, 158, 161, 164, 167, 170, 173, 175, 178, 180, 183, 185] ++
  [188, 190, 192, 194, 196, 198, 200, 202, 204, 206, 207, 209, 211, 212, 214, 215] ++
  [217, 218, 219, 221, 222, 223, 224, 225, 226, 227, 228, 229, 230, 231, 232, 233] ++
  [234, 235, 235, 236, 237, 237, 238, 239, 239, 240, 240, 241, 242, 242, 243, 243] ++
  [243, 244, 244, 245, 245, 245, 246, 246, 247, 247, 247, 247, 248, 248, 248, 249] ++
  [249, 249, 249, 249, 250, 250, 250, 250, 250, 251, 251, 251, 251, 251, 251, 252] ++
  [252, 252, 252, 252, 252, 252, 252, 252, 253, 253, 253, 253, 253, 253, 253, 253] ++
  [253, 253, 253, 253, 253, 254, 254, 254, 254, 254, 254, 254, 254, 254, 254, 254] ++
  [254, 254, 254, 254, 254, 254, 254, 254, 254, 254, 254, 254, 254, 254, 254, 254] ++
  [254, 255, 255, 255, 255, 255, 255, 255, 255, 255, 255, 255, 255, 255, 255, 255] ++
  [255, 255, 255, 255, 255, 255, 255, 255, 255, 255, 255, 255, 255, 255, 255, 255] ++
  [255, 255, 255, 255, 255, 255, 255, 255, 255, 255, 255, 255, 255, 255, 255, 255] ++
  [255, 255, 255, 255, 255, 255, 255, 255, 255, 255, 255, 255, 255, 255, 255, 255] ++
  [255, 255, 255, 255, 255, 255, 255, 255, 255, 255, 255, 255, 255, 255, 255, 255]

/-- `T[k]` (R210). -/
def lutEntry (k : Nat) : Nat := lut.getD k 0

/-- The final clamp to [0, 255] and the byte it gives (R203, R204). -/
def byteOf (n : Int) : Byte := BitVec.ofNat 8 (min n.toNat 255)

/-- The clamp to [0, 1] of R203: -0 has value 0 and stays. -/
def clampUnit (t : Word) : Word :=
  if 0 ≤ units t ∧ units t ≤ units one32 then t else if units t < 0 then 0x00000000 else one32

/-- tanh with its NaN saturated toward +1 (R203). -/
def saturatedTanh (f : Word → Word) (x : Word) : Word := if isNaN (tanhOf f x) then one32 else tanhOf f x

/-- `Qexact` over an exponential unit `f` (R203). -/
def qexactOf (f : Word → Word) (x : Word) : Byte :=
  if isNaN x then 0 else byteOf (roundHalfAway (mul32 (clampUnit (saturatedTanh f x)) 0x437F0000))

/-- `Qexact` (R203). -/
def qexact (x : Word) : Byte := qexactOf expA x

/-- The clamp to the table's domain [0, 5] (R204). -/
def clampDomain (x : Word) : Word :=
  if units x ≤ 0 then 0x00000000 else if units 0x40A00000 ≤ units x then 0x40A00000 else x

/-- The table position `f = a * SCALE`, SCALE = 51.0 (R204). -/
def lutPosition (x : Word) : Word := mul32 (clampDomain x) 0x424C0000

/-- `i0` (R204). -/
def lutIndex (x : Word) : Nat := min (floorOf (lutPosition x)).toNat 255

/-- The interpolated value `y` (R204). -/
def lutValue (x : Word) : Word :=
  let i0 := lutIndex x
  let i1 := min (i0 + 1) 255
  add32 (float32 (lutEntry i0))
    (mul32 (float32 (lutEntry i1 - lutEntry i0)) (sub32 (lutPosition x) (float32 i0)))

/-- `Qapprox` (R204). -/
def qapprox (x : Word) : Byte := if isNaN x then 0 else byteOf (roundHalfAway (lutValue x))

/-- The strategy of the frame (R201): exact or approximate. -/
def quantize (approximate : Bool) (x : Word) : Byte := if approximate then qapprox x else qexact x

/-- `fbaddr(x, r, c)` for a frame of width `w` (spec/20_memory.md R52). -/
def fbaddr (w x r c : Nat) : Nat := (r * w + x) * 3 + c

/-- The address STQ writes for lane `j` of the executing worker (R200). -/
def stqAddr (s : State) (ch : Channel) (j : Nat) : Nat := fbaddr s.frame.w.toNat (s.me.x0 + j) s.me.row ch.index

/-- The byte writes of STQ, lane by lane (R200). -/
def stqWrites (s : State) (ra : VReg) (ch : Channel) : List (Nat × Byte) :=
  (List.range s.params.laneWidth).map fun j => (stqAddr s ch j, quantize s.frame.qmode (regLane s ra j))

/-- The byte writes as one atomic step (spec/20_memory.md R55 b). An address at or above FB_CAPACITY is no byte of the space:
`noSuchByte` (notes/assumptions/11.md). -/
def storeLanes (ws : List (Nat × Byte)) (s : State) : Host.Outcome State Fault Refusal :=
  match ws.find? fun p => decide (s.params.fbCapacity ≤ p.1) with
  | some p => .fault (.noSuchByte p.1)
  | none => .next (advance (fbPutAll s ws))

/-- STQ (R200). -/
def execStq (ra : VReg) (ch : Channel) (s : State) : Host.Outcome State Fault Refusal := storeLanes (stqWrites s ra ch) s

end Sys2Proof.Machine
end

