-- ==== Sys2Proof/Machine/Sequencing.lean ====
section
/-! DEFINITION. The sequencing family: NOP, END, LOOP, RDS (spec/43_sequencing.md). -/

namespace Sys2Proof.Machine

/-- NOP (R172): nothing, then the advance. -/
def execNop (s : State) : Host.Outcome State Fault Refusal := .next (advance s)

/-- END (R174, spec/45_row_dispatch.md R237): the invocation ends; there is no advance. -/
def execEndInv (s : State) : Host.Outcome State Fault Refusal := .next (endInvocation s)

/-- LOOP's bounds check fails (R173): pc + len > PROG_DEPTH - 1 is PROG_DEPTH ≤ pc + len. -/
def loopOutOfBounds (s : State) (count len : BitVec 8) : Bool :=
  count == 0 || len == 0 || decide (s.params.progDepth ≤ s.me.pc + len.toNat)

/-- The loop record LOOP writes (R173). -/
def setLoop (s : State) (count len : BitVec 8) : State :=
  s.setMe { s.me with
    lactive := true, lstart := s.me.pc + 1, lend := s.me.pc + len.toNat, lcount := count, liter := 1 }

/-- LOOP (R173): LOOP_NEST, then LOOP_BOUNDS, then the loop starts. -/
def execLoop (count len : BitVec 8) (s : State) : Host.Outcome State Fault Refusal :=
  if s.me.lactive then .next (raiseFault .loopNest s)
  else if loopOutOfBounds s count len then .next (raiseFault .loopBounds s)
  else .next (advance (setLoop s count len))

/-- The special value lane `j` reads (R175). -/
def special (s : State) (sel : Sel) (j : Nat) : Word :=
  match sel with
  | .laneX => float32 (s.me.x0 + j)
  | .rowY => float32 (s.frame.h.toNat - 1 - s.me.row)
  | .time => s.frame.time
  | .widthF => float32 s.frame.w.toNat
  | .heightF => float32 s.frame.h.toNat
  | .iter => float32 s.me.liter.toNat

/-- RDS (R175). -/
def execRds (rd : VReg) (sel : Sel) (s : State) : Host.Outcome State Fault Refusal :=
  .next (advance (setReg s rd (perLane s (special s sel))))

end Sys2Proof.Machine
end

