-- ==== Sys2Proof/Machine/Dispatch.lean ====
section
/-! DEFINITION. exec: one arm per constructor of Instr, each a direct call of the instruction's meaning. -/

namespace Sys2Proof.Machine

def exec (i : Instr) (s : State) : Host.Outcome State Fault Refusal :=
  match i with
  | .nop => Sys2Proof.Machine.execNop s
  | .endInv => Sys2Proof.Machine.execEndInv s
  | .loop count len => Sys2Proof.Machine.execLoop count len s
  | .rds rd sel => Sys2Proof.Machine.execRds rd sel s
  | .fmov rd ra => Sys2Proof.Machine.execFmov rd ra s
  | .flih rd imm => Sys2Proof.Machine.execFlih rd imm s
  | .flil rd imm => Sys2Proof.Machine.execFlil rd imm s
  | .fadd rd ra rb => Sys2Proof.Machine.execFadd rd ra rb s
  | .fsub rd ra rb => Sys2Proof.Machine.execFsub rd ra rb s
  | .fmul rd ra rb => Sys2Proof.Machine.execFmul rd ra rb s
  | .fdiv rd ra rb => Sys2Proof.Machine.execFdiv rd ra rb s
  | .fabs rd ra => Sys2Proof.Machine.execFabs rd ra s
  | .fneg rd ra => Sys2Proof.Machine.execFneg rd ra s
  | .dot2 rd ra rb => Sys2Proof.Machine.execDot2 rd ra rb s
  | .dot4 rd ra rb => Sys2Proof.Machine.execDot4 rd ra rb s
  | .fsin rd ra => Sys2Proof.Machine.execFsin rd ra s
  | .fcos rd ra => Sys2Proof.Machine.execFcos rd ra s
  | .fexp rd ra => Sys2Proof.Machine.execFexp rd ra s
  | .ftanh rd ra => Sys2Proof.Machine.execFtanh rd ra s
  | .swz4 rd ra => Sys2Proof.Machine.execSwz4 rd ra s
  | .swap2 rd ra => Sys2Proof.Machine.execSwap2 rd ra s
  | .stq ra ch => Sys2Proof.Machine.execStq ra ch s

end Sys2Proof.Machine
end

