-- ==== Sys2Proof/Machine/Controller.lean ====
section
/-! DEFINITION. The row dispatch controller: start requests and row claims (spec/45_row_dispatch.md R233 to R240). -/

namespace Sys2Proof.Machine

/-- One dimension is 0 or above MAX_DIM (R234 check 1). -/
def badDim (s : State) (d : BitVec 16) : Bool := d.toNat == 0 || decide (s.params.maxDim < d.toNat)

/-- `validate()` (R234): the first failing check, or none. -/
def validate (s : State) : Option FaultCode :=
  if badDim s s.width || badDim s s.height then some .cfgDim
  else if s.params.fbCapacity < s.width.toNat * s.height.toNat * 3 then some .cfgFb
  else if s.params.progDepth ≤ s.kentry.toNat then some .cfgEntry
  else none

/-- The frame registers START latches (R233, spec/10_state.md R28). -/
def latchFrame (s : State) : Frame :=
  { w := s.width, h := s.height, time := s.time, qmode := s.qmode, kentry := s.kentry
    g := s.width.toNat / s.params.laneWidth }

/-- The start of an accepted frame (R233). -/
def beginFrame (s : State) : State :=
  { s with frame := latchFrame s, unclaimed := List.range s.height.toNat, doneRows := [], fstate := .running }

/-- A start request (R233): ignored while RUNNING; else DONE and ERR are cleared and the frame starts or is refused. -/
def startRequest (s : State) : State :=
  if s.fstate = .running then s
  else
    match validate (clearErr (clearDone s)) with
    | some code => configFault code (clearErr (clearDone s))
    | none => beginFrame (clearErr (clearDone s))

/-- A claim of row `r` by worker `w` is enabled (R236). -/
def claimEnabled (s : State) (w r : Nat) : Bool :=
  s.fstate == .running && decide (r ∈ s.unclaimed) && decide (w < s.workers.length) && (s.worker w).wstate == .idle

/-- Row `r` leaves UNCLAIMED and worker `w` becomes ACTIVE (R236). -/
def takeRow (s : State) (w r : Nat) : State :=
  { s.setWorker w { s.worker w with wstate := .active } with unclaimed := removeRow r s.unclaimed }

/-- The claim step (R236). -/
def claimRow (s : State) (w r : Nat) : State :=
  if s.frame.g = 0 then completeRow (takeRow s w r) w r else startInvocation (takeRow s w r) w 0 r

end Sys2Proof.Machine
end

