-- ==== Sys2Proof/Machine/Flags.lean ====
section
/-! DEFINITION. The status bits. The block has no condition codes and no floating-point flags (spec/10_state.md R26); its only
flags are those of STATUS and the interrupt output computed from them. -/

namespace Sys2Proof.Machine

/-- A bit as a word with that bit in bit 0. -/
def bitWord (b : Bool) : Word := if b then 1 else 0

/-- STATUS.BUSY (spec/10_state.md R27, R35). -/
def busy (s : State) : Bool := s.fstate == .running

/-- The STATUS register as it reads (R35): BUSY bit 0, DONE bit 1, ERR bit 2, ERR_CODE bits 15:8, every other bit 0. -/
def statusWord (s : State) : Word :=
  bitWord (busy s) ||| bitWord s.done <<< 1 ||| bitWord s.err <<< 2 ||| s.errCode.setWidth 32 <<< 8

/-- The IRQEN register as it reads (R36): DONE_IE bit 0, ERR_IE bit 1. -/
def irqenWord (s : State) : Word := bitWord s.doneIE ||| bitWord s.errIE <<< 1

/-- The interrupt output (spec/60_exceptions.md R310). -/
def irq (s : State) : Bool := (s.done && s.doneIE) || (s.err && s.errIE)

end Sys2Proof.Machine
end

