-- ==== Sys2Proof/Machine/HostPort.lean ====
section
/-! DEFINITION. The host's operations on CSR space and framebuffer space (spec/45_row_dispatch.md R230 to R232;
spec/20_memory.md R50, R51, R54; spec/10_state.md R30 to R43). -/

namespace Sys2Proof.Machine

/-- The registers of CSR space, by name (spec/10_state.md R30). -/
inductive Csr where
  | id | lanes | workers | progDepth | lutSize | fbCap | maxDim
  | ctrl | status | irqen | errLoc | errPc | errInstr | frames
  | width | height | time | qmode | kentry
  | prog (k : Nat)
deriving DecidableEq, Repr

/-- The named registers by offset (R30). -/
def csrNamed : Nat → Option Csr
  | 0x000 => some .id
  | 0x004 => some .lanes
  | 0x008 => some .workers
  | 0x00C => some .progDepth
  | 0x010 => some .lutSize
  | 0x014 => some .fbCap
  | 0x018 => some .maxDim
  | 0x020 => some .ctrl
  | 0x024 => some .status
  | 0x028 => some .irqen
  | 0x02C => some .errLoc
  | 0x030 => some .errPc
  | 0x034 => some .errInstr
  | 0x038 => some .frames
  | 0x040 => some .width
  | 0x044 => some .height
  | 0x048 => some .time
  | 0x04C => some .qmode
  | 0x050 => some .kentry
  | _ => none

/-- The register at an aligned offset; `none` where no register is, which is RAZ/WI (R30, spec/20_memory.md R50). -/
def csrAt (s : State) (off : Nat) : Option Csr :=
  if 0x1000 ≤ off ∧ off < 0x1000 + 4 * s.params.progDepth then some (.prog ((off - 0x1000) / 4)) else csrNamed off

/-- What a register reads as (R231), every RAZ/WI bit 0. -/
def csrValue (s : State) : Csr → Word
  | .id => 0x414E5401
  | .lanes => BitVec.ofNat 32 s.params.laneWidth
  | .workers => BitVec.ofNat 32 s.params.numWorkers
  | .progDepth => BitVec.ofNat 32 s.params.progDepth
  | .lutSize => 256
  | .fbCap => BitVec.ofNat 32 s.params.fbCapacity
  | .maxDim => BitVec.ofNat 32 s.params.maxDim
  | .ctrl => 0
  | .status => statusWord s
  | .irqen => irqenWord s
  | .errLoc => s.errLoc
  | .errPc => s.errPc
  | .errInstr => s.errInstr
  | .frames => s.frames
  | .width => s.width.setWidth 32
  | .height => s.height.setWidth 32
  | .time => s.time
  | .qmode => bitWord s.qmode
  | .kentry => s.kentry.setWidth 32
  | .prog k => progWord s k

/-- `csrRead(off)` at an aligned offset (R231). -/
def csrLoad (s : State) (off : Nat) : Word :=
  match csrAt s off with
  | some r => csrValue s r
  | none => 0

/-- A write to an RWI register: taken while IDLE, ignored while RUNNING (R232). -/
def whenIdle (s t : State) : State := if s.fstate = .idle then t else s

/-- STATUS is write-1-to-clear (R232, spec/10_state.md R35): bit 1 clears DONE, bit 2 clears ERR and ERR_CODE. -/
def writeStatus (s : State) (v : Word) : State :=
  let s1 := if v.getLsbD 1 then clearDone s else s
  if v.getLsbD 2 then clearErr s1 else s1

/-- What a write does to a register, by its access type (R232). -/
def csrPut (s : State) (r : Csr) (v : Word) : State :=
  match r with
  | .id => s
  | .lanes => s
  | .workers => s
  | .progDepth => s
  | .lutSize => s
  | .fbCap => s
  | .maxDim => s
  | .errLoc => s
  | .errPc => s
  | .errInstr => s
  | .frames => s
  | .ctrl => if v.getLsbD 0 then startRequest s else s
  | .status => writeStatus s v
  | .irqen => { s with doneIE := v.getLsbD 0, errIE := v.getLsbD 1 }
  | .width => whenIdle s { s with width := v.setWidth 16 }
  | .height => whenIdle s { s with height := v.setWidth 16 }
  | .time => whenIdle s { s with time := v }
  | .qmode => whenIdle s { s with qmode := v.getLsbD 0 }
  | .kentry => whenIdle s { s with kentry := v.setWidth 16 }
  | .prog k => whenIdle s (setProg s k v)

/-- `csrWrite(off, v)` at an aligned offset (R232); where no register is, the write is ignored. -/
def csrStore (s : State) (off : Nat) (v : Word) : State :=
  match csrAt s off with
  | some r => csrPut s r v
  | none => s

/-- A CSR access the block takes: 32 bits wide, 4-byte aligned, inside the 2^20-byte space (spec/20_memory.md R50). -/
def csrLegal (off n : Nat) : Bool := n == 4 && off % 4 == 0 && decide (off < 2 ^ 20)

/-- A framebuffer access the block takes: 1, 2 or 4 bytes, naturally aligned, every byte below FB_CAPACITY
(spec/20_memory.md R51). -/
def fbLegal (s : State) (off n : Nat) : Bool :=
  (n == 1 || n == 2 || n == 4) && off % n == 0 && decide (off + n ≤ s.params.fbCapacity)

/-- `n` bytes from `off` up, little-endian (spec/20_memory.md R54). -/
def fbLoad (s : State) (off n : Nat) : Word :=
  (List.range n).foldr (fun i acc => acc <<< 8 ||| (fbByte s (off + i)).setWidth 32) 0

/-- The `n` low bytes of `v` to `off` and up, little-endian (spec/20_memory.md R54). -/
def fbStore (s : State) (off n : Nat) (v : Word) : State :=
  fbPutAll s ((List.range n).map fun i => (off + i, v.extractLsb' (8 * i) 8))

/-- One host access (R230): its effect, and the block's answer in `resp`. A bus error has no effect, and a read returns 0 with
it (spec/20_memory.md R50, R51). -/
def hostStep (op : HostOp) (s : State) : State :=
  match op with
  | .csrRead off n => { s with resp := if csrLegal off n then .readData (csrLoad s off) else .readError 0 }
  | .csrWrite off n v =>
    if csrLegal off n then { csrStore s off v with resp := .writeDone } else { s with resp := .writeError }
  | .fbRead off n => { s with resp := if fbLegal s off n then .readData (fbLoad s off n) else .readError 0 }
  | .fbWrite off n v =>
    if fbLegal s off n then { fbStore s off n v with resp := .writeDone } else { s with resp := .writeError }

end Sys2Proof.Machine
end

