-- ==== Sys2Proof/Machine/Agents.lean ====
section
/-! DEFINITION. The atomic steps of an execution (spec/20_memory.md R58): which event is next, and what each agent's step does. -/

namespace Sys2Proof.Machine

/-- The next event: the head of the agenda, or the next one of the free schedule (R58; notes/assumptions/1.md). -/
def nextEvent (s : State) : Event :=
  match s.agenda with
  | e :: _ => e
  | [] => Config.freeSchedule s.tick

/-- The state with that event taken from the agenda or the free schedule. -/
def takeEvent (s : State) : State :=
  match s.agenda with
  | _ :: rest => { s with agenda := rest }
  | [] => { s with tick := s.tick + 1 }

/-- An instruction step of worker `w` is enabled: the frame runs and the worker holds a row (spec/10_state.md R25). -/
def workEnabled (s : State) (w : Nat) : Bool :=
  s.fstate == .running && decide (w < s.workers.length) && (s.worker w).wstate == .active

/-- The executing worker's step (spec/43_sequencing.md R171): fetch, decode, execute, a fault of the first two being recorded. -/
def fetchExecute (s : State) : Host.Outcome State Fault Refusal :=
  if s.params.progDepth ≤ s.me.pc then .next (raiseFault .pcOverflow s)
  else
    match decode (fetchWord s) with
    | .error code => .next (raiseFault code s)
    | .ok i => exec i s

/-- The reset input (spec/70_reset_and_hazards.md R340, R341): every piece of state but the framebuffer and the parameters takes
its reset value; the execution goes on. -/
def resetStep (s : State) : State := State.resetWith s.params s.fb s.agenda s.tick

/-- One event's atomic step. A claim or an instruction step that is not enabled is no step of the block: nothing changes
(notes/assumptions/9.md). -/
def perform (e : Event) (s : State) : Host.Outcome State Fault Refusal :=
  match e with
  | .reset => .next (resetStep s)
  | .host op => .next (hostStep op s)
  | .claim w r => .next (if claimEnabled s w r then claimRow s w r else s)
  | .work w => if workEnabled s w then fetchExecute { s with turn := w } else .next s

/-- Worker 0 can fetch: the frame runs, it holds a row, and its pc names a word of PROG. -/
def fetchReady (s : State) : Bool := workEnabled s 0 && decide (s.me.pc < s.params.progDepth) && s.turn == 0

/-- A frame of one lane group in one row, given to worker 0, as after a START of it and the claim of its row: what a fetch
needs where no frame runs (notes/assumptions/4.md). -/
def prepareFetch (s : State) : State :=
  startInvocation
    { s with
      fstate := .running, turn := 0, unclaimed := [], doneRows := [], done := false, err := false, errCode := 0
      frame :=
        { latchFrame s with
          w := BitVec.ofNat 16 s.params.laneWidth, h := 1, g := 1
          kentry := if s.kentry.toNat < s.params.progDepth then s.kentry else 0 }
      workers := s.workers.set 0 { s.worker 0 with wstate := .active } } 0 0 0

/-- The word stored at worker 0's pc, and worker 0's step as the next event. -/
def placeWord (s : State) (w : Word) : State :=
  { setProg s s.me.pc w with agenda := .work 0 :: s.agenda }

end Sys2Proof.Machine
end

