-- ==== Sys2Proof/Machine/Step.lean ====
section
/-! DEFINITION. The step function, and where the step fetches its next instruction. -/

namespace Sys2Proof.Machine

/-- One atomic step of the block (spec/20_memory.md R58). -/
def step (s : State) : Host.Outcome State Fault Refusal := perform (nextEvent s) (takeEvent s)

/-- The state whose very next step is worker 0's fetch and execution of the word made of the low `nbits` bits of `w`: the word
stands in PROG at worker 0's pc (notes/assumptions/4.md). -/
def State.withFetchWord (s : State) (nbits w : Nat) : State :=
  placeWord (if fetchReady s then s else prepareFetch s) (BitVec.ofNat 32 (w % 2 ^ nbits))

end Sys2Proof.Machine
end

