-- ==== Sys2Proof/Safety.lean ====
section
/-! DEFINITION. What counts as a good state and as a right step, in the terms the statements use: the invariants of the spec's own
prose, the frames of an instruction, and the run of one invocation. -/

namespace Sys2Proof.Machine

/-! ### Invariants -/

/-- The storage has its form: legal parameters (spec/00_scope.md R7), NUM_WORKERS workers whose registers hold L lanes each
(spec/10_state.md R21), framebuffer space and PROG in canonical form and inside their sizes (R45, R47). -/
abbrev StorageOk (s : State) : Prop :=
  s.params.Legal ∧ s.workers.length = s.params.numWorkers ∧
    (∀ u ∈ s.workers, ∀ r : VReg, u.v[r].length = s.params.laneWidth) ∧
    (Memory.wf s.fb ∧ ∀ p ∈ s.fb, p.1 < s.params.fbCapacity) ∧
    (ProgMem.wf s.prog ∧ ∀ p ∈ s.prog, p.1 < s.params.progDepth)

/-- The codes a fault can record (spec/60_exceptions.md R300). -/
def faultCodes : List Byte := [0x01, 0x02, 0x03, 0x10, 0x11, 0x12, 0x13, 0x14, 0x15, 0x16]

/-- The status bits agree (spec/10_state.md R35): DONE and ERR are never both 1, ERR_CODE is 0 exactly when ERR is 0 and is else
a code of R300, and neither bit is set while a frame runs. -/
abbrev StatusOk (s : State) : Prop :=
  ¬(s.done = true ∧ s.err = true) ∧ (s.err = false → s.errCode = 0) ∧ (s.err = true → s.errCode ∈ faultCodes) ∧
    (s.fstate = .running → s.done = false ∧ s.err = false)

/-- The rows held by the active workers. -/
def activeRows (s : State) : List Nat := (s.workers.filter fun u => u.wstate == .active).map fun u => u.row

/-- The frame registers hold what START checked (spec/45_row_dispatch.md R233, R234). -/
abbrev FrameLegal (s : State) : Prop :=
  (1 ≤ s.frame.w.toNat ∧ s.frame.w.toNat ≤ s.params.maxDim) ∧ (1 ≤ s.frame.h.toNat ∧ s.frame.h.toNat ≤ s.params.maxDim) ∧
    s.frame.w.toNat * s.frame.h.toNat * 3 ≤ s.params.fbCapacity ∧ s.frame.kentry.toNat < s.params.progDepth ∧
    s.frame.g = s.frame.w.toNat / s.params.laneWidth

/-- The rows of a running frame are dispatched: each row is in exactly one of UNCLAIMED, DONE_ROWS and the rows of active workers
(spec/45_row_dispatch.md R236, R240), not all are done, and every active worker's lane group lies in its row
(spec/43_sequencing.md R170). While IDLE nothing is held (spec/10_state.md R27, R25). -/
abbrev DispatchOk (s : State) : Prop :=
  (s.fstate = .idle → s.unclaimed = [] ∧ ∀ u ∈ s.workers, u.wstate = .idle) ∧
    (s.fstate = .running →
      FrameLegal s ∧ s.doneRows.Pairwise (· < ·) ∧ s.doneRows ≠ allRows s ∧
        (s.unclaimed ++ s.doneRows ++ activeRows s).Perm (allRows s) ∧
        ∀ u ∈ s.workers, u.wstate = .active →
          u.x0 % s.params.laneWidth = 0 ∧ u.x0 + s.params.laneWidth ≤ s.frame.w.toNat)

/-- One worker's pc and loop record (spec/10_state.md R23, R24): pc is at most PROG_DEPTH; in a loop it stands in the loop's body,
which lies in PROG, in run LITER of LCOUNT; outside a loop LITER is 0. -/
abbrev Worker.LoopOk (depth : Nat) (u : Worker) : Prop :=
  u.pc ≤ depth ∧
    (u.lactive = true →
      1 ≤ u.lstart ∧ u.lstart ≤ u.pc ∧ u.pc ≤ u.lend ∧ u.lend < depth ∧ 1 ≤ u.liter ∧ u.liter ≤ u.lcount) ∧
    (u.lactive = false → u.liter = 0)

/-- Every worker's pc and loop record are right, and a running frame's entry lies in PROG. -/
abbrev SequenceOk (s : State) : Prop :=
  (∀ u ∈ s.workers, u.LoopOk s.params.progDepth) ∧
    (s.fstate = .running → s.frame.kentry.toNat < s.params.progDepth)

/-! ### Frames of an instruction -/

/-- Nothing but the executing worker differs. -/
abbrev OnlyMe (s t : State) : Prop :=
  { t with workers := s.workers } = s ∧ t.workers.length = s.workers.length ∧ ∀ w, w ≠ s.turn → t.worker w = s.worker w

/-- Every framebuffer byte reads as before. -/
abbrev SameBytes (s t : State) : Prop := ∀ a, fbByte t a = fbByte s a

/-- The advance of a worker's pc and loop record at the end of a step (spec/43_sequencing.md R171); its invocation context
is unchanged. -/
abbrev Advanced (u u' : Worker) : Prop :=
  (u'.x0 = u.x0 ∧ u'.row = u.row ∧ u'.wstate = u.wstate) ∧
    (u'.lstart = u.lstart ∧ u'.lend = u.lend ∧ u'.lcount = u.lcount) ∧
    (if u.lactive = true ∧ u.pc = u.lend then
      if u.liter < u.lcount then u'.pc = u.lstart ∧ u'.liter = u.liter + 1 ∧ u'.lactive = true
      else u'.pc = u.pc + 1 ∧ u'.liter = 0 ∧ u'.lactive = false
    else u'.pc = u.pc + 1 ∧ u'.liter = u.liter ∧ u'.lactive = u.lactive)

/-- A step that writes the vector registers listed, each with its lanes, and nothing else but the advance. -/
abbrev WritesRegs (s t : State) (ws : List (VReg × (Nat → Word))) : Prop :=
  OnlyMe s t ∧ SameBytes s t ∧ Advanced s.me t.me ∧
    (∀ p ∈ ws, ∀ j < s.params.laneWidth, regLane t p.1 j = p.2 j) ∧
    ∀ r : VReg, (∀ p ∈ ws, r ≠ p.1) → reg t r = reg s r

/-- The instruction answers a next state, which is as `P` says. -/
abbrev Completes (i : Instr) (s : State) (P : State → Prop) : Prop := ∃ t, exec i s = .next t ∧ P t

/-- The recording of a kernel fault (spec/60_exceptions.md R302) of the executing worker, whose word is `word`. -/
abbrev RecordsFault (s t : State) (code : FaultCode) (word : Word) : Prop :=
  (t.err = true ∧ t.errCode = code.code ∧ t.errLoc = BitVec.ofNat 32 s.me.x0 <<< 16 ||| BitVec.ofNat 32 s.me.row ∧
      t.errPc = BitVec.ofNat 32 s.me.pc ∧ t.errInstr = word) ∧
    (t.fstate = .idle ∧ t.unclaimed = [] ∧ t.workers.length = s.workers.length ∧
      ∀ w < s.workers.length, t.worker w = { s.worker w with wstate := .idle }) ∧
    SameBytes s t ∧
    { t with
      err := s.err, errCode := s.errCode, errLoc := s.errLoc, errPc := s.errPc, errInstr := s.errInstr
      fstate := s.fstate, unclaimed := s.unclaimed, workers := s.workers } = s

/-! ### The two quantization strategies -/

/-- The bytes the two strategies give for `x`, with the exponential unit `f`, differ by at most 2 (spec/44_quantizer_store.md
R212). -/
abbrev BytesAgree (f : Word → Word) (x : Word) : Prop := |((qexactOf f x).toNat : Int) - (qapprox x).toNat| ≤ 2

/-- R212's bound as a property of an instance `f` of the exponential unit; nothing assumes it (spec/93_implementation_defined.md
U4). -/
def StrategiesAgree (f : Word → Word) : Prop := ∀ x, BytesAgree f x

/-! ### Runs of one invocation -/

/-- One step of the executing worker that does not end its invocation: an instruction other than END that records no fault
(spec/43_sequencing.md R171, R174). -/
def Continues (s t : State) : Prop :=
  s.fstate = .running ∧ s.me.pc < s.params.progDepth ∧
    ∃ i, decode (fetchWord s) = .ok i ∧ i ≠ .endInv ∧ exec i s = .next t ∧ t.fstate = .running

/-- `k` such steps in a row lead from `s` to `t`. -/
def RunsTo : Nat → State → State → Prop
  | 0, s, t => t = s
  | k + 1, s, t => ∃ m, Continues s m ∧ RunsTo k m t

end Sys2Proof.Machine
end

