-- ==== Sys2Proof/Certificates/Slice0/Obligations.lean ====
section
/-! DEFINITION. The statements for the provers. -/

open Sys2Proof Sys2Proof.Machine

/-! ### Decoding and encoding (spec/30_encoding.md) -/

/-- Decoding the word of a well-formed instruction gives the instruction: no bit of an encoding is dropped (R70 to R77). -/
def Obligations.DecodingAnEncodedInstructionGivesItBack : Prop :=
  ∀ i : Instr, i.wellFormed = true → decode (encode i) = .ok i

/-- A word the decoder accepts is the word of the instruction it gives: every word has one meaning (R77, R79, R81). -/
def Obligations.AnAcceptedWordIsTheEncodingOfItsInstruction : Prop :=
  ∀ w i, decode w = .ok i → encode i = w ∧ i.wellFormed = true

/-- R77: a word that matches a row of the opcode map under the row's mask is assembled as the row's instruction, and a word that
matches no row is refused before its operands are looked at. -/
def Obligations.OpcodeMapRowsDecideTheInstruction : Prop :=
  (∀ row ∈ opcodeRows, ∀ w : Word, w &&& row.2.2 = row.2.1 → decode w = assemble row.1 w) ∧
    ∀ w : Word, (∀ row ∈ opcodeRows, w &&& row.2.2 ≠ row.2.1) →
      decode w = .error .illegalOpcode ∨ decode w = .error .reservedBits

/-- R80: exactly the unassigned opcodes 0x00 and 0x17 to 0x3F give ILLEGAL_OPCODE. -/
def Obligations.UnassignedOpcodesAreIllegal : Prop :=
  ∀ w : Word, decode w = .error .illegalOpcode ↔ w.extractLsb' 26 6 = 0 ∨ 0x17 ≤ (w.extractLsb' 26 6).toNat

/-- R79: a word with a bit set that its format reserves is the fault RESERVED_BITS, whatever its other fields are. -/
def Obligations.ReservedBitSetIsAFault : Prop :=
  ∀ (w : Word) (op : Op), opOf (w.extractLsb' 26 6).toNat = some op →
    (decode w = .error .reservedBits ↔ w &&& op.format.reservedMask ≠ 0)

/-- R78 checks 3 and 4: where opcode and reserved bits pass, REG_RANGE and BAD_OPERAND are given exactly for the listed field
values. -/
def Obligations.OperandChecksNameTheirFault : Prop :=
  ∀ (w : Word) (op : Op), opOf (w.extractLsb' 26 6).toNat = some op → w &&& op.format.reservedMask = 0 →
    (decode w = .error .regRange ↔
      (op = .dot2 ∧ (30 < (fieldRa w).val ∨ 30 < (fieldRb w).val)) ∨
        (op = .dot4 ∧ (28 < (fieldRa w).val ∨ 28 < (fieldRb w).val)) ∨
        (op = .swz4 ∧ (28 < (fieldRd w).val ∨ 30 < (fieldRa w).val)) ∨
        (op = .swap2 ∧ (30 < (fieldRd w).val ∨ 30 < (fieldRa w).val))) ∧
      (decode w = .error .badOperand ↔
        (op = .rds ∧ 5 < (w.extractLsb' 0 4).toNat) ∨ (op = .stq ∧ (w.extractLsb' 0 2).toNat = 3))

/-- Words written out field by field from the formats of R72 and the match column of R77, one or more of each family, decode to
their instructions; the last one, DOT2 of the pair at v31, is a fault. -/
def Obligations.SampleWordsDecode : Prop :=
  decode 0x04000000 = .ok .nop ∧ decode 0x0C00081E = .ok (.loop 8 30) ∧ decode 0x13000002 = .ok (.rds 24 .time) ∧
    decode 0x18E03F33 = .ok (.flih 7 0x3F33) ∧ decode 0x20841000 = .ok (.fadd 4 4 2) ∧
    decode 0x512A0000 = .ok (.swz4 9 10) ∧ decode 0x40000000 = .ok (.fsin 0 0) ∧
    decode 0x58110001 = .ok (.stq 17 .green) ∧ decode 0x381F0000 = .error .regRange

/-! ### Binary32 arithmetic (spec/00_scope.md R10, spec/40_fp_arith.md R100 to R105) -/

/-- R10: the rounding of the model is RNE: nearest finite value, ties to even, infinity from 2^128 - 2^103 up, sign kept. -/
def Obligations.RoundingIsNearestTiesToEven : Prop :=
  ∀ (neg : Bool) (n d : Nat), 0 < n → 0 < d →
    IsRNE ((if neg then -1 else 1) * ((n : ℚ) / d) / 2 ^ 149) (rne neg n d)

/-- R100, line by line, the sum rounded as IsRNE says; R101: subtraction adds the operand with its sign bit flipped, and a NaN
subtrahend stays a NaN and gives CNAN. -/
def Obligations.AdditionAndSubtractionFollowIEEE : Prop :=
  ∀ a b : Word,
    (isNaN a = true ∨ isNaN b = true → add32 a b = 0x7FC00000 ∧ sub32 a b = 0x7FC00000) ∧
      (isInf a = true → isInf b = true → sign a ≠ sign b → add32 a b = 0x7FC00000) ∧
      (isInf a = true → isNaN b = false → (isInf b = true → sign a = sign b) → add32 a b = a) ∧
      (isInf b = true → isFinite a = true → add32 a b = b) ∧
      (isFinite a = true → isFinite b = true → val32 a + val32 b ≠ 0 → IsRNE (val32 a + val32 b) (add32 a b)) ∧
      (isFinite a = true → isFinite b = true → val32 a + val32 b = 0 →
        add32 a b = if a = 0x80000000 ∧ b = 0x80000000 then 0x80000000 else 0x00000000) ∧
      sub32 a b = add32 a (b ^^^ 0x80000000) ∧
      (isFinite a = true → isFinite b = true → val32 a - val32 b ≠ 0 → IsRNE (val32 a - val32 b) (sub32 a b))

/-- R102, line by line. -/
def Obligations.MultiplicationFollowsIEEE : Prop :=
  ∀ a b : Word,
    (isNaN a = true ∨ isNaN b = true → mul32 a b = 0x7FC00000) ∧
      (isInf a = true ∧ isFinite b = true ∧ val32 b = 0 ∨ isInf b = true ∧ isFinite a = true ∧ val32 a = 0 →
        mul32 a b = 0x7FC00000) ∧
      (isInf a = true ∧ (isInf b = true ∨ isFinite b = true ∧ val32 b ≠ 0) ∨
          isInf b = true ∧ (isInf a = true ∨ isFinite a = true ∧ val32 a ≠ 0) →
        mul32 a b = if sign a = sign b then 0x7F800000 else 0xFF800000) ∧
      (isFinite a = true → isFinite b = true → val32 a * val32 b ≠ 0 → IsRNE (val32 a * val32 b) (mul32 a b)) ∧
      (isFinite a = true → isFinite b = true → val32 a * val32 b = 0 →
        mul32 a b = if sign a = sign b then 0x00000000 else 0x80000000)

/-- R103, line by line. -/
def Obligations.DivisionFollowsIEEE : Prop :=
  ∀ a b : Word,
    (isNaN a = true ∨ isNaN b = true → div32 a b = 0x7FC00000) ∧
      (isInf a = true → isInf b = true → div32 a b = 0x7FC00000) ∧
      (isFinite a = true → isFinite b = true → val32 a = 0 → val32 b = 0 → div32 a b = 0x7FC00000) ∧
      (isInf a = true → isFinite b = true → div32 a b = if sign a = sign b then 0x7F800000 else 0xFF800000) ∧
      (isFinite a = true → isInf b = true → div32 a b = if sign a = sign b then 0x00000000 else 0x80000000) ∧
      (isFinite a = true → isFinite b = true → val32 a ≠ 0 → val32 b = 0 →
        div32 a b = if sign a = sign b then 0x7F800000 else 0xFF800000) ∧
      (isFinite a = true → isFinite b = true → val32 a / val32 b ≠ 0 → IsRNE (val32 a / val32 b) (div32 a b)) ∧
      (isFinite a = true → isFinite b = true → val32 a = 0 → val32 b ≠ 0 →
        div32 a b = if sign a = sign b then 0x00000000 else 0x80000000)

/-- R10: float32 of an integer below 2^24 is that integer exactly. -/
def Obligations.SmallIntegersConvertExactly : Prop :=
  ∀ n : Nat, n < 2 ^ 24 → isFinite (float32 n) = true ∧ val32 (float32 n) = n ∧ sign (float32 n) = false

/-- S7 of spec/95_test_vectors.md: after SWAP2 has written the swapped pair of (va, va1) to a pair of registers, DOT2 of that pair with
itself gives in every lane the bits that DOT2 of the pair at va with itself gives before. The registers may overlap in any way. The
ground is that the sum of two products does not depend on their order. -/
def Obligations.DotProductOfASwappedPairIsTheSame : Prop :=
  (∀ (s : State) (rd ra rq : VReg), s.turn < s.workers.length → ra.val ≤ 30 → rq.val ≤ 30 →
    ∃ a b c, exec (.dot2 rd ra ra) s = .next a ∧ exec (.swap2 rq ra) s = .next b ∧ exec (.dot2 rd rq rq) b = .next c ∧
      ∀ j < s.params.laneWidth, regLane c rd j = regLane a rd j) ∧
    ∀ x y : Word, add32 (mul32 x x) (mul32 y y) = add32 (mul32 y y) (mul32 x x)

/-! ### Transcendental units (spec/41_transcendental.md R130 to R132) -/

/-- R131 holds of the machine's sine and cosine, S4's accuracy included. S1 to S3 hold of the limits they pass through, whatever
the raw results are (notes/assumptions/8.md). -/
def Obligations.TrigUnitsKeepExactPointsAndRange : Prop :=
  (TrigContract sinA Real.sin (fun x => x) ∧ TrigContract cosA Real.cos (fun _ => 0x3F800000)) ∧
  ∀ (f : Word → Word) (x : Word),
    (isNaN x = true ∨ isInf x = true → boundSin f x = 0x7FC00000 ∧ boundCos f x = 0x7FC00000) ∧
      boundSin f 0x00000000 = 0x00000000 ∧ boundSin f 0x80000000 = 0x80000000 ∧
      boundCos f 0x00000000 = 0x3F800000 ∧ boundCos f 0x80000000 = 0x3F800000 ∧
      (isFinite x = true →
        (isFinite (boundSin f x) = true ∧ |val32 (boundSin f x)| ≤ 1) ∧
          isFinite (boundCos f x) = true ∧ |val32 (boundCos f x)| ≤ 1)

/-- R132 holds of the machine's exponential, the accuracy of E4 and E5 included. E1, E2, E3, E5's first sentence, E6 and the
finiteness of E4 hold of the limits it passes through, whatever the raw results are (notes/assumptions/8.md). -/
def Obligations.ExponentialUnitKeepsItsRange : Prop :=
  ExpContract expA ∧
  ∀ (f : Word → Word) (x : Word),
    (isNaN x = true → boundExp f x = 0x7FC00000) ∧ boundExp f 0x7F800000 = 0x7F800000 ∧
      boundExp f 0xFF800000 = 0x00000000 ∧ boundExp f 0x00000000 = 0x3F800000 ∧ boundExp f 0x80000000 = 0x3F800000 ∧
      (isFinite x = true →
        (isNaN (boundExp f x) = false ∧ sign (boundExp f x) = false) ∧
          (Real.exp ((val32 x : ℚ) : ℝ) ≤ 2 ^ 127 → isFinite (boundExp f x) = true) ∧
          (2 ^ 128 ≤ Real.exp ((val32 x : ℚ) : ℝ) → boundExp f x = 0x7F800000) ∧
          (Real.exp ((val32 x : ℚ) : ℝ) < 1 / 2 ^ 126 →
            0 ≤ val32 (boundExp f x) ∧ val32 (boundExp f x) ≤ 1 / 2 ^ 126))

/-- The limits the model puts on the raw results (notes/assumptions/8.md) exclude no admissible instance: units that meet
TransContract pass unchanged (R130). -/
def Obligations.AdmissibleUnitsPassUnchanged : Prop :=
  ∀ sine cosine exponential : Word → Word, TransContract sine cosine exponential →
    ∀ x, boundSin sine x = sine x ∧ boundCos cosine x = cosine x ∧ boundExp exponential x = exponential x

/-! ### The quantizer (spec/44_quantizer_store.md R203 to R212) -/

/-- R210: entry k of the table is roundHalfAway(clamp(tanh(5k/255), 0, 1) * 255), with tanh the exact real function. The value is
not negative, so rounding half away from zero is the floor of the value plus one half. -/
def Obligations.TableEntriesAreRoundedTanh : Prop :=
  ∀ k : Nat, k < 256 →
    (lutEntry k : ℤ) = ⌊max 0 (min (Real.tanh (5 * (k : ℝ) / 255)) 1) * 255 + 1 / 2⌋

/-- R211, R212: 256 entries, the checksum, the two edges, and no entry below the one before it. -/
def Obligations.TableChecksumEdgesAndOrder : Prop :=
  lut.length = 256 ∧ lut.sum = 56143 ∧ lutEntry 0 = 0 ∧ lutEntry 255 = 255 ∧
    ∀ k, k < 255 → lutEntry k ≤ lutEntry (k + 1) ∧ lutEntry (k + 1) - lutEntry k ≤ 5

/-- R204's edges: a NaN, zero and every negative argument give byte 0, every argument from 5 up gives 255. -/
def Obligations.ApproximateStrategyClampsTheDomain : Prop :=
  ∀ x : Word,
    (isNaN x = true → qapprox x = 0) ∧ (isNaN x = false → units x ≤ 0 → qapprox x = 0) ∧
      (isNaN x = false → units 0x40A00000 ≤ units x → qapprox x = 255)

/-- R212: Qapprox is non-decreasing in val(x). -/
def Obligations.ApproximateStrategyIsMonotone : Prop :=
  ∀ x y : Word, isNaN x = false → isNaN y = false → units x ≤ units y → (qapprox x).toNat ≤ (qapprox y).toNat

/-- R203: every negative finite x, -infinity, either zero and every NaN give byte 0; +infinity and every x from 44.3614 up
(the pattern 0x42317218 is the least whose double reaches 128 ln 2) give 255, by the saturation of the NaN. R212: above 5 the exact
byte is 255, over every admissible exponential unit; so the bound of 2 between the strategies holds outside (0, 5) for every such
unit, and is for a unit a question about (0, 5) alone. That it holds there is a property of an instance and not claimed. -/
def Obligations.ExactStrategySaturates : Prop :=
  (∀ x : Word,
    (isNaN x = true → qexact x = 0) ∧ (isNaN x = false → units x ≤ 0 → qexact x = 0) ∧
      (isNaN x = false → sign x = false → 0x42317218 ≤ x.toNat → qexact x = 255) ∧
      (isNaN x = false → units 0x40A00000 ≤ units x → qexact x = 255)) ∧
  ∀ f : Word → Word, ExpContract f →
    (∀ x, isNaN x = false →
      (units x ≤ 0 → qexactOf f x = 0) ∧ (units 0x40A00000 ≤ units x → qexactOf f x = 255)) ∧
    (∀ x, isNaN x = true ∨ units x ≤ 0 ∨ units 0x40A00000 ≤ units x → BytesAgree f x) ∧
    (StrategiesAgree f ↔
      ∀ x, isNaN x = false → 0 < units x → units x < units 0x40A00000 → BytesAgree f x)

/-! ### Instructions: result, completion and frame -/

/-- R110 to R115: each lane of vd is the binary32 operation of the same lane of va and vb; FABS clears and FNEG flips the sign bit
of each lane and keep every other bit. -/
def Obligations.ArithmeticWritesEachLane : Prop :=
  ∀ (s : State) (rd ra rb : VReg), s.turn < s.workers.length →
    Completes (.fadd rd ra rb) s (fun t =>
        WritesRegs s t [(rd, fun j => add32 (regLane s ra j) (regLane s rb j))]) ∧
      Completes (.fsub rd ra rb) s (fun t =>
        WritesRegs s t [(rd, fun j => sub32 (regLane s ra j) (regLane s rb j))]) ∧
      Completes (.fmul rd ra rb) s (fun t =>
        WritesRegs s t [(rd, fun j => mul32 (regLane s ra j) (regLane s rb j))]) ∧
      Completes (.fdiv rd ra rb) s (fun t =>
        WritesRegs s t [(rd, fun j => div32 (regLane s ra j) (regLane s rb j))]) ∧
      Completes (.fabs rd ra) s (fun t =>
        WritesRegs s t [(rd, fun j => (0 : BitVec 1) ++ (regLane s ra j).extractLsb' 0 31)]) ∧
      Completes (.fneg rd ra) s (fun t =>
        WritesRegs s t [(rd, fun j =>
          (if (regLane s ra j).msb then (0 : BitVec 1) else 1) ++ (regLane s ra j).extractLsb' 0 31)])

/-- R116: DOT2 of the pairs (va, va1) and (vb, vb1), each product and the sum rounded; a pair past v31 is REG_RANGE.
That exec raises it too is the model's choice (notes/assumptions/10.md). -/
def Obligations.DotProductOfPairs : Prop :=
  ∀ (s : State) (rd ra rb : VReg), s.turn < s.workers.length →
    (∀ ra1 rb1 : VReg, ra1.val = ra.val + 1 → rb1.val = rb.val + 1 →
      Completes (.dot2 rd ra rb) s (fun t => WritesRegs s t
        [(rd, fun j => add32 (mul32 (regLane s ra j) (regLane s rb j)) (mul32 (regLane s ra1 j) (regLane s rb1 j)))])) ∧
      (30 < ra.val ∨ 30 < rb.val →
        ∃ t, exec (.dot2 rd ra rb) s = .next t ∧ RecordsFault s t .regRange (progWord s s.me.pc))

/-- R117: DOT4 of two quads, a balanced tree; a quad past v31 is REG_RANGE.
That exec raises it too is the model's choice (notes/assumptions/10.md). -/
def Obligations.DotProductOfQuads : Prop :=
  ∀ (s : State) (rd ra rb : VReg), s.turn < s.workers.length →
    (∀ ra1 ra2 ra3 rb1 rb2 rb3 : VReg,
      ra1.val = ra.val + 1 → ra2.val = ra.val + 2 → ra3.val = ra.val + 3 →
      rb1.val = rb.val + 1 → rb2.val = rb.val + 2 → rb3.val = rb.val + 3 →
      Completes (.dot4 rd ra rb) s (fun t => WritesRegs s t
        [(rd, fun j =>
          add32
            (add32 (mul32 (regLane s ra j) (regLane s rb j)) (mul32 (regLane s ra1 j) (regLane s rb1 j)))
            (add32 (mul32 (regLane s ra2 j) (regLane s rb2 j)) (mul32 (regLane s ra3 j) (regLane s rb3 j))))])) ∧
      (28 < ra.val ∨ 28 < rb.val →
        ∃ t, exec (.dot4 rd ra rb) s = .next t ∧ RecordsFault s t .regRange (progWord s s.me.pc))

/-- R150 to R152: FMOV copies the register, every lane bit for bit; FLIH puts imm16 in bits 31:16 of every lane and zeros below;
FLIL puts it in bits 15:0 and keeps each lane's upper half. -/
def Obligations.MovesAndConstantsWriteTheirPattern : Prop :=
  ∀ (s : State) (rd ra : VReg) (imm : BitVec 16), s.turn < s.workers.length →
    Completes (.fmov rd ra) s (fun t => WritesRegs s t [(rd, regLane s ra)] ∧ reg t rd = reg s ra) ∧
      Completes (.flih rd imm) s (fun t => WritesRegs s t [(rd, fun _ => imm ++ (0 : BitVec 16))]) ∧
      Completes (.flil rd imm) s (fun t =>
        WritesRegs s t [(rd, fun j => (regLane s rd j).extractLsb' 16 16 ++ imm)])

/-- R153: SWZ4 gives the quad (x, y, y, x) of the pair as it was before any write; a group past v31 is REG_RANGE.
That exec raises it too is the model's choice (notes/assumptions/10.md). -/
def Obligations.SwizzleBuildsTheQuad : Prop :=
  ∀ (s : State) (rd ra : VReg), s.turn < s.workers.length →
    (∀ rd1 rd2 rd3 ra1 : VReg,
      rd1.val = rd.val + 1 → rd2.val = rd.val + 2 → rd3.val = rd.val + 3 → ra1.val = ra.val + 1 →
      Completes (.swz4 rd ra) s (fun t =>
        WritesRegs s t [(rd, regLane s ra), (rd1, regLane s ra1), (rd2, regLane s ra1), (rd3, regLane s ra)])) ∧
      (28 < rd.val ∨ 30 < ra.val →
        ∃ t, exec (.swz4 rd ra) s = .next t ∧ RecordsFault s t .regRange (progWord s s.me.pc))

/-- R154: SWAP2 gives the pair (y, x) of the pair as it was before any write; a group past v31 is REG_RANGE.
That exec raises it too is the model's choice (notes/assumptions/10.md). -/
def Obligations.AxisSwapExchangesThePair : Prop :=
  ∀ (s : State) (rd ra : VReg), s.turn < s.workers.length →
    (∀ rd1 ra1 : VReg, rd1.val = rd.val + 1 → ra1.val = ra.val + 1 →
      Completes (.swap2 rd ra) s (fun t => WritesRegs s t [(rd, regLane s ra1), (rd1, regLane s ra)])) ∧
      (30 < rd.val ∨ 30 < ra.val →
        ∃ t, exec (.swap2 rd ra) s = .next t ∧ RecordsFault s t .regRange (progWord s s.me.pc))

/-- R140 to R143: each lane goes through its unit; FTANH is the exponential identity, rounded at each operation. -/
def Obligations.TranscendentalsWriteEachLane : Prop :=
  ∀ (s : State) (rd ra : VReg), s.turn < s.workers.length →
    Completes (.fsin rd ra) s (fun t => WritesRegs s t [(rd, fun j => sinA (regLane s ra j))]) ∧
      Completes (.fcos rd ra) s (fun t => WritesRegs s t [(rd, fun j => cosA (regLane s ra j))]) ∧
      Completes (.fexp rd ra) s (fun t => WritesRegs s t [(rd, fun j => expA (regLane s ra j))]) ∧
      Completes (.ftanh rd ra) s (fun t => WritesRegs s t
        [(rd, fun j =>
          let e := expA (add32 (regLane s ra j) (regLane s ra j))
          div32 (sub32 e 0x3F800000) (add32 e 0x3F800000))])

/-- R143's corner cases that the contract fixes: a NaN and every x whose double reaches 128 ln 2 give CNAN, -infinity and every x
from -43.7 down give -1, either zero gives +0; and with e the value of expA(x + x), a finite e of 2^25 or more gives exactly 1.0 and
every e below 2^-25 exactly -1.0. -/
def Obligations.TanhCornerCases : Prop :=
  ∀ x : Word,
    (isNaN x = true → tanhOf expA x = 0x7FC00000) ∧
      (isNaN x = false → sign x = false → 0x42317218 ≤ x.toNat → tanhOf expA x = 0x7FC00000) ∧
      (isNaN x = false → sign x = true → 0xC22EAC50 ≤ x.toNat → tanhOf expA x = 0xBF800000) ∧
      tanhOf expA 0x00000000 = 0x00000000 ∧ tanhOf expA 0x80000000 = 0x00000000 ∧
      (isFinite (expA (add32 x x)) = true → 2 ^ 25 ≤ val32 (expA (add32 x x)) → tanhOf expA x = 0x3F800000) ∧
      (isFinite (expA (add32 x x)) = true → val32 (expA (add32 x x)) < 1 / 2 ^ 25 → tanhOf expA x = 0xBF800000)

/-- R172: NOP changes nothing but by the advance. -/
def Obligations.NopOnlyAdvances : Prop :=
  ∀ s : State, s.turn < s.workers.length → Completes .nop s (fun t => WritesRegs s t [])

/-- R173: with no loop active and the body inside PROG, LOOP writes the loop record and goes on at the body's first word. Inside
a loop it is LOOP_NEST; else a count or length of 0 or a body past the end of PROG is LOOP_BOUNDS. -/
def Obligations.LoopStartsItsBodyOrFaults : Prop :=
  ∀ (s : State) (count len : BitVec 8), s.turn < s.workers.length →
    (s.me.lactive = false → count ≠ 0 → len ≠ 0 → s.me.pc + len.toNat < s.params.progDepth →
      Completes (.loop count len) s (fun t =>
        OnlyMe s t ∧ SameBytes s t ∧
          t.me = { s.me with
            lactive := true, lstart := s.me.pc + 1, lend := s.me.pc + len.toNat, lcount := count, liter := 1
            pc := s.me.pc + 1 })) ∧
      (s.me.lactive = true →
        ∃ t, exec (.loop count len) s = .next t ∧ RecordsFault s t .loopNest (progWord s s.me.pc)) ∧
      (s.me.lactive = false → count = 0 ∨ len = 0 ∨ s.params.progDepth ≤ s.me.pc + len.toNat →
        ∃ t, exec (.loop count len) s = .next t ∧ RecordsFault s t .loopBounds (progWord s s.me.pc))

/-- R173: the body runs `count` times, with LITER = k during the k-th run; after the last run pc is LEND + 1, LACTIVE = 0 and
LITER = 0. The steps counted are those of the invocation that start at the body's first word. -/
def Obligations.LoopRunsItsBodyCountTimes : Prop :=
  ∀ (s u t : State) (count len : BitVec 8) (n : Nat), s.turn < s.workers.length → s.me.lactive = false →
    count ≠ 0 → len ≠ 0 → s.me.pc + len.toNat < s.params.progDepth →
    exec (.loop count len) s = .next u → RunsTo n u t →
    (n < count.toNat * len.toNat →
        t.me.lactive = true ∧ t.me.liter.toNat = n / len.toNat + 1 ∧ t.me.pc = s.me.pc + 1 + n % len.toNat) ∧
      (n = count.toNat * len.toNat →
        t.me.lactive = false ∧ t.me.liter = 0 ∧ t.me.pc = s.me.pc + len.toNat + 1)

/-- R174, R237, R170: END of a group that is not the row's last starts the next group of the row on the same worker: every lane of
every register is cleared, the loop record is cleared and pc is F.KENTRY. That the group's number is X0 / L, in the premise and in
the new start column (X0 / L + 1) * L, is read from R237 (DEDUCED, notes/assumptions/12.md); it is X0 + L where X0 is a multiple of
L, as R170 sets it. -/
def Obligations.EndStartsTheNextLaneGroup : Prop :=
  ∀ s : State, s.turn < s.workers.length → s.me.x0 / s.params.laneWidth + 1 < s.frame.g →
    Completes .endInv s (fun t =>
      OnlyMe s t ∧ SameBytes s t ∧
        t.me = { s.me with
          x0 := (s.me.x0 / s.params.laneWidth + 1) * s.params.laneWidth
          v := Vector.replicate 32 (List.replicate s.params.laneWidth 0)
          lactive := false, liter := 0, pc := s.frame.kentry.toNat })

/-- R174, R240, R239: END of the row's last group adds the row to DONE_ROWS and makes the worker IDLE; if then every row of the
frame is done, the frame completes in the same step with DONE and FRAMES counted, and else nothing more changes. That the group is
the last is decided by its number X0 / L (DEDUCED, notes/assumptions/12.md). -/
def Obligations.EndOfTheLastGroupCompletesTheRow : Prop :=
  ∀ s : State, s.turn < s.workers.length → s.frame.g ≤ s.me.x0 / s.params.laneWidth + 1 →
    s.doneRows.Pairwise (· < ·) →
    Completes .endInv s (fun t =>
      { t with workers := s.workers, doneRows := s.doneRows, fstate := s.fstate, done := s.done, frames := s.frames } = s ∧
        SameBytes s t ∧ t.workers.length = s.workers.length ∧ (∀ w, w ≠ s.turn → t.worker w = s.worker w) ∧
        t.me = { s.me with wstate := .idle } ∧ (∀ r, r ∈ t.doneRows ↔ r ∈ s.doneRows ∨ r = s.me.row) ∧
        ((∀ r, r ∈ t.doneRows ↔ r < s.frame.h.toNat) →
          t.fstate = .idle ∧ t.done = true ∧ t.frames = s.frames + 1) ∧
        (¬(∀ r, r ∈ t.doneRows ↔ r < s.frame.h.toNat) →
          t.fstate = s.fstate ∧ t.done = s.done ∧ t.frames = s.frames))

/-- R175: RDS gives every lane the selected special value, LANEX one of its own. -/
def Obligations.SpecialValuesAreRead : Prop :=
  ∀ (s : State) (rd : VReg), s.turn < s.workers.length →
    Completes (.rds rd .laneX) s (fun t => WritesRegs s t [(rd, fun j => float32 (s.me.x0 + j))]) ∧
      (s.me.row < s.frame.h.toNat →
        Completes (.rds rd .rowY) s (fun t =>
          WritesRegs s t [(rd, fun _ => float32 (s.frame.h.toNat - 1 - s.me.row))])) ∧
      Completes (.rds rd .time) s (fun t => WritesRegs s t [(rd, fun _ => s.frame.time)]) ∧
      Completes (.rds rd .widthF) s (fun t => WritesRegs s t [(rd, fun _ => float32 s.frame.w.toNat)]) ∧
      Completes (.rds rd .heightF) s (fun t => WritesRegs s t [(rd, fun _ => float32 s.frame.h.toNat)]) ∧
      Completes (.rds rd .iter) s (fun t => WritesRegs s t [(rd, fun _ => float32 s.me.liter.toNat)])

/-- R200: STQ writes the quantized byte of lane j at fbaddr(X0 + j, ROW, ch), computed as R52 says, for every lane, and no other
byte; no register changes. -/
def Obligations.StoreWritesTheQuantizedLanes : Prop :=
  ∀ (s : State) (ra : VReg) (ch : Channel), s.turn < s.workers.length →
    (∀ j < s.params.laneWidth,
      (s.me.row * s.frame.w.toNat + (s.me.x0 + j)) * 3 + ch.index < s.params.fbCapacity) →
    Completes (.stq ra ch) s (fun t =>
      { t with workers := s.workers, fb := s.fb } = s ∧ t.workers.length = s.workers.length ∧
        (∀ w, w ≠ s.turn → t.worker w = s.worker w) ∧ Advanced s.me t.me ∧ (∀ r, reg t r = reg s r) ∧
        (∀ j < s.params.laneWidth,
          fbByte t ((s.me.row * s.frame.w.toNat + (s.me.x0 + j)) * 3 + ch.index) =
            if s.frame.qmode then qapprox (regLane s ra j) else qexact (regLane s ra j)) ∧
        ∀ a, (∀ j < s.params.laneWidth, a ≠ (s.me.row * s.frame.w.toNat + (s.me.x0 + j)) * 3 + ch.index) →
          fbByte t a = fbByte s a)

/-! ### Steps of the block -/

/-- R171: a step of an enabled worker whose PROG word decodes runs exec of the decoded instruction, at the state with the event
taken and the worker named. That the agenda names the event and `turn` the worker is the model's choice
(notes/assumptions/1.md, 2.md). -/
def Obligations.StepRunsTheDecodedInstruction : Prop :=
  ∀ (s : State) (w : Nat) (rest : List Event) (i : Instr), s.agenda = .work w :: rest → s.fstate = .running →
    w < s.workers.length → (s.worker w).wstate = .active → (s.worker w).pc < s.params.progDepth →
    decode (progWord s (s.worker w).pc) = .ok i →
    step s = exec i { s with agenda := rest, turn := w }

/-- R171, R301: a step of an enabled worker at pc = PROG_DEPTH records PC_OVERFLOW with ERRINSTR 0, and one whose word fails to
decode records the decoder's fault with that word. -/
def Obligations.StepRecordsFetchAndDecodeFaults : Prop :=
  ∀ (s : State) (w : Nat) (rest : List Event), s.agenda = .work w :: rest → s.fstate = .running →
    w < s.workers.length → (s.worker w).wstate = .active →
    ((s.worker w).pc = s.params.progDepth →
        ∃ t, step s = .next t ∧ RecordsFault { s with agenda := rest, turn := w } t .pcOverflow 0) ∧
      ∀ code, (s.worker w).pc < s.params.progDepth → decode (progWord s (s.worker w).pc) = .error code →
        ∃ t, step s = .next t ∧
          RecordsFault { s with agenda := rest, turn := w } t code (progWord s (s.worker w).pc)

/-- R233, R234: a start request, any write of the host to CTRL with bit 0 set, is ignored while RUNNING; while IDLE the first failing check
refuses it with its code and clears the diagnostics, and else the frame registers are latched and every row is unclaimed. -/
def Obligations.StartValidatesAndLatches : Prop :=
  ∀ (s : State) (v : Word), v.getLsbD 0 = true →
    (s.fstate = .running → hostStep (.csrWrite 0x020 4 v) s = { s with resp := .writeDone }) ∧
      (s.fstate = .idle →
        let refused (c : Byte) : State :=
          { s with
            done := false, err := true, errCode := c, errLoc := 0, errPc := 0, errInstr := 0, resp := .writeDone }
        let badDim := s.width = 0 ∨ s.height = 0 ∨ s.params.maxDim < s.width.toNat ∨ s.params.maxDim < s.height.toNat
        let tooBig := s.params.fbCapacity < s.width.toNat * s.height.toNat * 3
        let badEntry := s.params.progDepth ≤ s.kentry.toNat
        (badDim → hostStep (.csrWrite 0x020 4 v) s = refused 0x01) ∧
          (¬badDim → tooBig → hostStep (.csrWrite 0x020 4 v) s = refused 0x02) ∧
          (¬badDim → ¬tooBig → badEntry → hostStep (.csrWrite 0x020 4 v) s = refused 0x03) ∧
          (¬badDim → ¬tooBig → ¬badEntry →
            hostStep (.csrWrite 0x020 4 v) s =
              { s with
                resp := .writeDone
                done := false, err := false, errCode := 0
                frame :=
                  { w := s.width, h := s.height, time := s.time, qmode := s.qmode, kentry := s.kentry
                    g := s.width.toNat / s.params.laneWidth }
                unclaimed := List.range s.height.toNat, doneRows := [], fstate := .running }))

/-- R236, R170: an enabled claim of row r by worker w takes the row out of UNCLAIMED and, where the frame has lane groups, starts
the invocation of group 0 on w; no other worker, no byte and no status bit changes. -/
def Obligations.ClaimStartsTheRowsFirstGroup : Prop :=
  ∀ (s : State) (w r : Nat) (rest : List Event), s.agenda = .claim w r :: rest → s.fstate = .running →
    r ∈ s.unclaimed → w < s.workers.length → (s.worker w).wstate = .idle → s.frame.g ≠ 0 →
    ∃ t, step s = .next t ∧ SameBytes s t ∧ t.workers.length = s.workers.length ∧
      { t with workers := s.workers, unclaimed := s.unclaimed, agenda := s.agenda } = s ∧ t.agenda = rest ∧
      (∀ q, q ∈ t.unclaimed ↔ q ∈ s.unclaimed ∧ q ≠ r) ∧ (∀ v, v ≠ w → t.worker v = s.worker v) ∧
      t.worker w = { s.worker w with
        wstate := .active, x0 := 0, row := r, v := Vector.replicate 32 (List.replicate s.params.laneWidth 0)
        lactive := false, liter := 0, pc := s.frame.kentry.toNat }

/-- R236, R238, R240: where F.W < L leaves no lane group, a claim completes its row at once and no byte is written. -/
def Obligations.ClaimWithoutGroupsCompletesTheRow : Prop :=
  ∀ (s : State) (w r : Nat) (rest : List Event), s.agenda = .claim w r :: rest → s.fstate = .running →
    r ∈ s.unclaimed → w < s.workers.length → (s.worker w).wstate = .idle → s.frame.g = 0 →
    s.doneRows.Pairwise (· < ·) →
    ∃ t, step s = .next t ∧ SameBytes s t ∧ (∀ v, t.worker v = s.worker v) ∧
      (∀ q, q ∈ t.unclaimed ↔ q ∈ s.unclaimed ∧ q ≠ r) ∧ (∀ q, q ∈ t.doneRows ↔ q ∈ s.doneRows ∨ q = r) ∧
      (((∀ q, q ∈ t.doneRows ↔ q < s.frame.h.toNat) ∧ t.fstate = .idle ∧ t.done = true ∧ t.frames = s.frames + 1) ∨
        (¬(∀ q, q ∈ t.doneRows ↔ q < s.frame.h.toNat) ∧ t.fstate = .running ∧ t.done = s.done ∧ t.frames = s.frames))

/-- R340, R341, R49: the reset step puts every CSR, PROG, the frame state and the workers' run state at their reset values, and
leaves the parameters and every framebuffer byte. -/
def Obligations.ResetRestoresAllButTheFramebuffer : Prop :=
  ∀ (s : State) (rest : List Event), s.agenda = .reset :: rest → s.params.Legal →
    ∃ t, step s = .next t ∧ SameBytes s t ∧ t.fb = s.fb ∧ t.params = s.params ∧
      (∀ off, 0x01C ≤ off → off < 0x1000 → csrLoad t off = 0) ∧
      (∀ k, k < 72 → csrLoad t (0x1000 + 4 * k) = refKernel.getD k 0) ∧
      (∀ k, 72 ≤ k → csrLoad t (0x1000 + 4 * k) = 0) ∧
      t.fstate = .idle ∧ t.unclaimed = [] ∧ t.doneRows = [] ∧ t.workers.length = s.params.numWorkers ∧
      (∀ u ∈ t.workers, u.wstate = .idle) ∧ irq t = false

/-! ### The host's view (spec/10_state.md R30 to R45, spec/20_memory.md R50 to R54, spec/45_row_dispatch.md R231, R232) -/

/-- R58: a host access that is the next event is one step, the access itself. R230, R231, R232, R55 c: an aligned 32-bit CSR access
inside the space answers with the register's value and changes nothing else, or writes the register. R231: what every register of
every state reads as: R31 the identification and parameter registers, R34 CTRL, R35 the fields of STATUS, R36 to R43 the others, R45
PROG, and 0 where no register is. R310: IRQ, in the bits the host reads in STATUS and IRQEN. That the answer is kept in `resp` is
the model's choice (notes/assumptions/3.md). -/
def Obligations.ReadOnlyRegistersStatusAndInterrupt : Prop :=
  ∀ s : State,
    (∀ op rest, s.agenda = .host op :: rest → step s = .next (hostStep op { s with agenda := rest })) ∧
      (∀ off, off % 4 = 0 → off < 2 ^ 20 →
        hostStep (.csrRead off 4) s = { s with resp := .readData (csrLoad s off) } ∧
          ∀ v, hostStep (.csrWrite off 4 v) s = { csrStore s off v with resp := .writeDone }) ∧
      (csrLoad s 0x000 = 0x414E5401 ∧ csrLoad s 0x004 = BitVec.ofNat 32 s.params.laneWidth ∧
        csrLoad s 0x008 = BitVec.ofNat 32 s.params.numWorkers ∧ csrLoad s 0x00C = BitVec.ofNat 32 s.params.progDepth ∧
        csrLoad s 0x010 = 256 ∧ csrLoad s 0x014 = BitVec.ofNat 32 s.params.fbCapacity ∧
        csrLoad s 0x018 = BitVec.ofNat 32 s.params.maxDim) ∧
      ((csrLoad s 0x024).getLsbD 0 = decide (s.fstate = .running) ∧ (csrLoad s 0x024).getLsbD 1 = s.done ∧
        (csrLoad s 0x024).getLsbD 2 = s.err ∧ (csrLoad s 0x024).extractLsb' 3 5 = 0 ∧
        (csrLoad s 0x024).extractLsb' 8 8 = s.errCode ∧ (csrLoad s 0x024).extractLsb' 16 16 = 0) ∧
      ((csrLoad s 0x028).getLsbD 0 = s.doneIE ∧ (csrLoad s 0x028).getLsbD 1 = s.errIE ∧
        (csrLoad s 0x028).extractLsb' 2 30 = 0) ∧
      (csrLoad s 0x020 = 0 ∧ csrLoad s 0x02C = s.errLoc ∧ csrLoad s 0x030 = s.errPc ∧ csrLoad s 0x034 = s.errInstr ∧
        csrLoad s 0x038 = s.frames ∧ csrLoad s 0x048 = s.time) ∧
      (((csrLoad s 0x040).extractLsb' 0 16 = s.width ∧ (csrLoad s 0x040).extractLsb' 16 16 = 0) ∧
        ((csrLoad s 0x044).extractLsb' 0 16 = s.height ∧ (csrLoad s 0x044).extractLsb' 16 16 = 0) ∧
        ((csrLoad s 0x04C).getLsbD 0 = s.qmode ∧ (csrLoad s 0x04C).extractLsb' 1 31 = 0) ∧
        (csrLoad s 0x050).extractLsb' 0 16 = s.kentry ∧ (csrLoad s 0x050).extractLsb' 16 16 = 0) ∧
      (∀ k < s.params.progDepth, csrLoad s (0x1000 + 4 * k) = progWord s k) ∧
      (∀ off, off % 4 = 0 →
        off = 0x01C ∨ off = 0x03C ∨ (0x054 ≤ off ∧ off < 0x1000) ∨ 0x1000 + 4 * s.params.progDepth ≤ off →
        csrLoad s off = 0) ∧
      irq s = (((csrLoad s 0x024).getLsbD 1 && (csrLoad s 0x028).getLsbD 0) ||
        ((csrLoad s 0x024).getLsbD 2 && (csrLoad s 0x028).getLsbD 1))

/-- R232: what a write of the host to each register does, by access type. The write is always answered, and never with an error. -/
def Obligations.CsrWritesFollowTheirAccessType : Prop :=
  ∀ (s : State) (v : Word),
    (∀ off, off % 4 = 0 → off < 2 ^ 20 →
      off < 0x020 ∨ (0x02C ≤ off ∧ off < 0x040) ∨ (0x054 ≤ off ∧ off < 0x1000) ∨ 0x1000 + 4 * s.params.progDepth ≤ off →
        hostStep (.csrWrite off 4 v) s = { s with resp := .writeDone }) ∧
      (s.fstate = .running → ∀ off, off % 4 = 0 → off < 2 ^ 20 → (0x040 ≤ off ∧ off < 0x054) ∨ 0x1000 ≤ off →
        hostStep (.csrWrite off 4 v) s = { s with resp := .writeDone }) ∧
      (s.fstate = .idle →
        hostStep (.csrWrite 0x040 4 v) s = { s with width := v.extractLsb' 0 16, resp := .writeDone } ∧
          hostStep (.csrWrite 0x044 4 v) s = { s with height := v.extractLsb' 0 16, resp := .writeDone } ∧
          hostStep (.csrWrite 0x048 4 v) s = { s with time := v, resp := .writeDone } ∧
          hostStep (.csrWrite 0x04C 4 v) s = { s with qmode := v.getLsbD 0, resp := .writeDone } ∧
          hostStep (.csrWrite 0x050 4 v) s = { s with kentry := v.extractLsb' 0 16, resp := .writeDone }) ∧
      hostStep (.csrWrite 0x028 4 v) s = { s with doneIE := v.getLsbD 0, errIE := v.getLsbD 1, resp := .writeDone } ∧
      hostStep (.csrWrite 0x024 4 v) s =
        { s with
          done := s.done && !v.getLsbD 1, err := s.err && !v.getLsbD 2
          errCode := if v.getLsbD 2 then 0 else s.errCode, resp := .writeDone } ∧
      (v.getLsbD 0 = false → hostStep (.csrWrite 0x020 4 v) s = { s with resp := .writeDone })

/-- R45, R231, R232: a write of the host to PROG[k] while IDLE changes PROG and nothing else but the answer; it is read back at k,
and every other word of PROG reads as before. -/
def Obligations.ProgramWordsReadBackWhileIdle : Prop :=
  ∀ (s : State) (v : Word) (k : Nat), s.params.Legal → s.fstate = .idle → k < s.params.progDepth →
    ∃ t, hostStep (.csrWrite (0x1000 + 4 * k) 4 v) s = t ∧
      { t with prog := s.prog, resp := s.resp } = s ∧ t.resp = .writeDone ∧
      ∀ c < s.params.progDepth,
        hostStep (.csrRead (0x1000 + 4 * c) 4) t =
          { t with resp := .readData (if c = k then v else csrLoad s (0x1000 + 4 * c)) }

/-- R50, R51: an access of a wrong width or alignment, or past the space, changes nothing, and a read gets 0 with the error. For an
offset past the 2^20 bytes of CSR space this is read from R230 (DEDUCED, notes/assumptions/13.md). -/
def Obligations.BadHostAccessesAreBusErrors : Prop :=
  ∀ (s : State) (off n : Nat) (v : Word),
    (n ≠ 4 ∨ off % 4 ≠ 0 ∨ 2 ^ 20 ≤ off →
        hostStep (.csrRead off n) s = { s with resp := .readError 0 } ∧
          hostStep (.csrWrite off n v) s = { s with resp := .writeError }) ∧
      ((n ≠ 1 ∧ n ≠ 2 ∧ n ≠ 4) ∨ off % n ≠ 0 ∨ s.params.fbCapacity < off + n →
        hostStep (.fbRead off n) s = { s with resp := .readError 0 } ∧
          hostStep (.fbWrite off n v) s = { s with resp := .writeError })

/-- R54, R51: a legal framebuffer write stores byte i of the value at offset + i and no other byte, and a legal read returns the
bytes with the one at the lowest offset in bits 7:0. That a narrow access uses the low bytes of the value is the model's reading
(notes/assumptions/14.md). -/
def Obligations.HostFramebufferAccessIsLittleEndian : Prop :=
  ∀ (s : State) (off n : Nat) (v : Word), n = 1 ∨ n = 2 ∨ n = 4 → off % n = 0 → off + n ≤ s.params.fbCapacity →
    (∃ t, hostStep (.fbWrite off n v) s = t ∧ { t with fb := s.fb, resp := s.resp } = s ∧ t.resp = .writeDone ∧
        (∀ i < n, fbByte t (off + i) = v.extractLsb' (8 * i) 8) ∧
        ∀ a, a < off ∨ off + n ≤ a → fbByte t a = fbByte s a) ∧
      ∃ d : Word, hostStep (.fbRead off n) s = { s with resp := .readData d } ∧
        (∀ i < n, d.extractLsb' (8 * i) 8 = fbByte s (off + i)) ∧ d.toNat < 256 ^ n

/-! ### Invariants and whole-machine rules -/

/-- Every invariant holds in the state after reset. R49 gives the frame state, the status and IDLE workers; the pc and loop record of an
idle worker, which SequenceOk reads, R49 leaves unspecified, and the model has them 0 (DESIGN CHOICE, notes/assumptions/6.md); the
parameters that StorageOk reads are the instance's of State.reset (DESIGN CHOICE, notes/assumptions/5.md). -/
def Obligations.ResetMeetsEveryInvariant : Prop :=
  StorageOk State.reset ∧ StatusOk State.reset ∧ DispatchOk State.reset ∧ SequenceOk State.reset

/-- Every step keeps the storage's form: canonical memories inside their sizes, NUM_WORKERS workers, L lanes a register
(R21, R45, R47, R31). -/
def Obligations.StepKeepsStorageForm : Prop :=
  ∀ s t : State, StorageOk s → step s = .next t → StorageOk t

/-- R35: every step keeps DONE and ERR from both being 1, ERR_CODE 0 with ERR, and both clear while a frame runs. -/
def Obligations.StepKeepsStatusBitsConsistent : Prop :=
  ∀ s t : State, StatusOk s → step s = .next t → StatusOk t

/-- R236, R240, R170: every step keeps the rows of a running frame partitioned among UNCLAIMED, DONE_ROWS and the active workers,
each of whose lane groups lies inside its row. -/
def Obligations.StepKeepsRowsPartitioned : Prop :=
  ∀ s t : State, DispatchOk s → step s = .next t → DispatchOk t

/-- R23, R24: every step keeps each pc at most PROG_DEPTH and inside the active loop's body. For the workers the reset step leaves
IDLE this rests on pc and loop record 0 there (DESIGN CHOICE, notes/assumptions/6.md). -/
def Obligations.StepKeepsLoopRecordsInPlace : Prop :=
  ∀ s t : State, SequenceOk s → step s = .next t → SequenceOk t

/-- R52: since START refuses a frame larger than the space and every lane group lies in its row, every address the block writes
lies in the space: no step stops. -/
def Obligations.NoStepStops : Prop :=
  ∀ s : State, DispatchOk s → ∃ t, step s = .next t

/-- R52, R57, R238, R59 a: the bytes a worker's step changes are those of the lanes of its own lane group, so they lie in its own
row's slice and never in a column from F.G * L up; and the slices of two active workers have no byte in common. -/
def Obligations.WorkersWriteTheirOwnDisjointSlices : Prop :=
  (∀ (s t : State) (w : Nat) (rest : List Event), DispatchOk s → s.agenda = .work w :: rest → step s = .next t →
    ∀ a, fbByte t a ≠ fbByte s a →
      w < s.workers.length ∧ (s.worker w).wstate = .active ∧
        (∃ (j : Nat) (ch : Channel), j < s.params.laneWidth ∧
          a = ((s.worker w).row * s.frame.w.toNat + ((s.worker w).x0 + j)) * 3 + ch.index ∧
          (s.worker w).x0 + j < s.frame.g * s.params.laneWidth) ∧
        (s.worker w).row * s.frame.w.toNat * 3 ≤ a ∧
        a < (s.worker w).row * s.frame.w.toNat * 3 + s.frame.w.toNat * 3) ∧
    ∀ (s : State) (v w a : Nat), DispatchOk s → v < s.workers.length → w < s.workers.length → v ≠ w →
      (s.worker v).wstate = .active → (s.worker w).wstate = .active →
      (s.worker v).row * s.frame.w.toNat * 3 ≤ a →
      a < (s.worker v).row * s.frame.w.toNat * 3 + s.frame.w.toNat * 3 →
      ¬((s.worker w).row * s.frame.w.toNat * 3 ≤ a ∧
        a < (s.worker w).row * s.frame.w.toNat * 3 + s.frame.w.toNat * 3)

/-- R177: what a worker's step makes of the worker, and the bytes it writes, depend only on PROG, the frame registers and the worker
itself: two states that agree on these (and on the parameters) give the same worker, and each byte is either left alone by both steps
or the same after both. -/
def Obligations.WorkerStepDependsOnItsOwnInputs : Prop :=
  ∀ (s s' t t' : State) (w : Nat) (rest rest' : List Event),
    s.agenda = .work w :: rest → s'.agenda = .work w :: rest' → s.fstate = s'.fstate →
    s.params = s'.params → s.prog = s'.prog → s.frame = s'.frame →
    w < s.workers.length → w < s'.workers.length → s.worker w = s'.worker w →
    step s = .next t → step s' = .next t' →
    t.worker w = t'.worker w ∧
      ∀ a, (fbByte t a = fbByte s a ∧ fbByte t' a = fbByte s' a) ∨ fbByte t a = fbByte t' a

/-- R242's core: the steps of two active workers may be taken in either order; if neither order records a fault, the states
differ in no register, byte or status bit (only in the model's own record of whose turn it was). -/
def Obligations.WorkerStepsCommute : Prop :=
  ∀ (s a b ab ba : State) (v w : Nat), StorageOk s → StatusOk s → DispatchOk s → v ≠ w →
    workEnabled s v = true → workEnabled s w = true →
    perform (.work v) s = .next a → perform (.work w) a = .next ab →
    perform (.work w) s = .next b → perform (.work v) b = .next ba →
    ab.err = false → ba.err = false → { ab with turn := 0 } = { ba with turn := 0 }

/-- R176: every invocation ends, by END or by a fault, within 255 * PROG_DEPTH steps: no run of that many steps goes on. -/
def Obligations.InvocationsEnd : Prop :=
  ∀ s t : State, s.params.Legal → SequenceOk s → s.turn < s.workers.length → ¬RunsTo (255 * s.params.progDepth) s t

/-- R346's ground: while a frame runs, some claim or instruction step is enabled. -/
def Obligations.RunningFrameHasAnEnabledStep : Prop :=
  ∀ s : State, StorageOk s → DispatchOk s → s.fstate = .running →
    (∃ w, workEnabled s w = true) ∨ ∃ w r, claimEnabled s w r = true

/-- R62, R28: while a frame runs, no step but a reset changes PROG, the frame registers or the configuration CSRs. -/
def Obligations.RunningFrameFreezesProgramAndConfiguration : Prop :=
  ∀ s t : State, s.fstate = .running → nextEvent s ≠ .reset → step s = .next t →
    t.prog = s.prog ∧ t.frame = s.frame ∧ t.width = s.width ∧ t.height = s.height ∧ t.time = s.time ∧
      t.qmode = s.qmode ∧ t.kentry = s.kentry ∧ t.params = s.params

/-- R239, R347: a step that ends a running frame, other than a reset, sets exactly one of DONE and ERR. R39: FRAMES counts exactly the
frames that end with DONE: no other step but a reset changes it. -/
def Obligations.FrameEndsWithDoneOrErr : Prop :=
  (∀ s t : State, StatusOk s → s.fstate = .running → nextEvent s ≠ .reset → step s = .next t → t.fstate = .idle →
    (t.done = true ∧ t.err = false ∧ t.frames = s.frames + 1) ∨
      (t.done = false ∧ t.err = true ∧ t.frames = s.frames)) ∧
    ∀ s t : State, nextEvent s ≠ .reset → step s = .next t →
      t.frames = s.frames ∨
        (s.fstate = .running ∧ t.fstate = .idle ∧ t.done = true ∧ t.frames = s.frames + 1)
end

