-- ==== Sys2Proof/Laws/Encoding.lean ====
section
/-! SUPPORT. The laws of the word formats (spec/30_encoding.md R71 to R73): the opcode and the operand fields of a word built by the
encoder are what it was built from, and its reserved bits are clear. -/

namespace Sys2Proof

/-- A register number is the number its field holds. -/
theorem regBits_toFin (r : VReg) : (regBits r).toFin = r := rfl

theorem wordN_op (op : BitVec 6) : fieldOp (wordN op) = op := by
  simp only [fieldOp, wordN]
  apply BitVec.eq_of_getLsbD_eq
  intro i hi
  interval_cases i <;> simp only [BitVec.getLsbD_extractLsb', BitVec.getLsbD_append] <;> simp

theorem wordN_reserved (op : BitVec 6) : wordN op &&& Format.n.reservedMask = 0 := by
  simp only [wordN, Format.reservedMask]
  apply BitVec.eq_of_getLsbD_eq
  intro i hi
  interval_cases i <;> simp only [BitVec.getLsbD_and, BitVec.getLsbD_append] <;> simp

theorem wordR3_op (op : BitVec 6) (rd ra rb : VReg) : fieldOp (wordR3 op rd ra rb) = op := by
  simp only [fieldOp, wordR3]
  apply BitVec.eq_of_getLsbD_eq
  intro i hi
  interval_cases i <;> simp only [BitVec.getLsbD_extractLsb', BitVec.getLsbD_append] <;> simp

theorem wordR3_reserved (op : BitVec 6) (rd ra rb : VReg) : wordR3 op rd ra rb &&& Format.r3.reservedMask = 0 := by
  simp only [wordR3, Format.reservedMask]
  apply BitVec.eq_of_getLsbD_eq
  intro i hi
  interval_cases i <;> simp only [BitVec.getLsbD_and, BitVec.getLsbD_append] <;> simp

theorem wordR3_rd (op : BitVec 6) (rd ra rb : VReg) : fieldRd (wordR3 op rd ra rb) = rd := by
  simp only [fieldRd, wordR3]
  refine (congrArg BitVec.toFin (?_ : _ = regBits rd)).trans (regBits_toFin rd)
  apply BitVec.eq_of_getLsbD_eq
  intro i hi
  interval_cases i <;> simp only [BitVec.getLsbD_extractLsb', BitVec.getLsbD_append] <;> simp

theorem wordR3_ra (op : BitVec 6) (rd ra rb : VReg) : fieldRa (wordR3 op rd ra rb) = ra := by
  simp only [fieldRa, wordR3]
  refine (congrArg BitVec.toFin (?_ : _ = regBits ra)).trans (regBits_toFin ra)
  apply BitVec.eq_of_getLsbD_eq
  intro i hi
  interval_cases i <;> simp only [BitVec.getLsbD_extractLsb', BitVec.getLsbD_append] <;> simp

theorem wordR3_rb (op : BitVec 6) (rd ra rb : VReg) : fieldRb (wordR3 op rd ra rb) = rb := by
  simp only [fieldRb, wordR3]
  refine (congrArg BitVec.toFin (?_ : _ = regBits rb)).trans (regBits_toFin rb)
  apply BitVec.eq_of_getLsbD_eq
  intro i hi
  interval_cases i <;> simp only [BitVec.getLsbD_extractLsb', BitVec.getLsbD_append] <;> simp

theorem wordR2_op (op : BitVec 6) (rd ra : VReg) : fieldOp (wordR2 op rd ra) = op := by
  simp only [fieldOp, wordR2]
  apply BitVec.eq_of_getLsbD_eq
  intro i hi
  interval_cases i <;> simp only [BitVec.getLsbD_extractLsb', BitVec.getLsbD_append] <;> simp

theorem wordR2_reserved (op : BitVec 6) (rd ra : VReg) : wordR2 op rd ra &&& Format.r2.reservedMask = 0 := by
  simp only [wordR2, Format.reservedMask]
  apply BitVec.eq_of_getLsbD_eq
  intro i hi
  interval_cases i <;> simp only [BitVec.getLsbD_and, BitVec.getLsbD_append] <;> simp

theorem wordR2_rd (op : BitVec 6) (rd ra : VReg) : fieldRd (wordR2 op rd ra) = rd := by
  simp only [fieldRd, wordR2]
  refine (congrArg BitVec.toFin (?_ : _ = regBits rd)).trans (regBits_toFin rd)
  apply BitVec.eq_of_getLsbD_eq
  intro i hi
  interval_cases i <;> simp only [BitVec.getLsbD_extractLsb', BitVec.getLsbD_append] <;> simp

theorem wordR2_ra (op : BitVec 6) (rd ra : VReg) : fieldRa (wordR2 op rd ra) = ra := by
  simp only [fieldRa, wordR2]
  refine (congrArg BitVec.toFin (?_ : _ = regBits ra)).trans (regBits_toFin ra)
  apply BitVec.eq_of_getLsbD_eq
  intro i hi
  interval_cases i <;> simp only [BitVec.getLsbD_extractLsb', BitVec.getLsbD_append] <;> simp

theorem wordI16_op (op : BitVec 6) (rd : VReg) (imm : BitVec 16) : fieldOp (wordI16 op rd imm) = op := by
  simp only [fieldOp, wordI16]
  apply BitVec.eq_of_getLsbD_eq
  intro i hi
  interval_cases i <;> simp only [BitVec.getLsbD_extractLsb', BitVec.getLsbD_append] <;> simp

theorem wordI16_reserved (op : BitVec 6) (rd : VReg) (imm : BitVec 16) : wordI16 op rd imm &&& Format.i16.reservedMask = 0 := by
  simp only [wordI16, Format.reservedMask]
  apply BitVec.eq_of_getLsbD_eq
  intro i hi
  interval_cases i <;> simp only [BitVec.getLsbD_and, BitVec.getLsbD_append] <;> simp

theorem wordI16_rd (op : BitVec 6) (rd : VReg) (imm : BitVec 16) : fieldRd (wordI16 op rd imm) = rd := by
  simp only [fieldRd, wordI16]
  refine (congrArg BitVec.toFin (?_ : _ = regBits rd)).trans (regBits_toFin rd)
  apply BitVec.eq_of_getLsbD_eq
  intro i hi
  interval_cases i <;> simp only [BitVec.getLsbD_extractLsb', BitVec.getLsbD_append] <;> simp

theorem wordI16_imm (op : BitVec 6) (rd : VReg) (imm : BitVec 16) : fieldImm (wordI16 op rd imm) = imm := by
  simp only [fieldImm, wordI16]
  apply BitVec.eq_of_getLsbD_eq
  intro i hi
  interval_cases i <;> simp only [BitVec.getLsbD_extractLsb', BitVec.getLsbD_append] <;> simp

theorem wordSP_op (op : BitVec 6) (rd : VReg) (sel : BitVec 4) : fieldOp (wordSP op rd sel) = op := by
  simp only [fieldOp, wordSP]
  apply BitVec.eq_of_getLsbD_eq
  intro i hi
  interval_cases i <;> simp only [BitVec.getLsbD_extractLsb', BitVec.getLsbD_append] <;> simp

theorem wordSP_reserved (op : BitVec 6) (rd : VReg) (sel : BitVec 4) : wordSP op rd sel &&& Format.sp.reservedMask = 0 := by
  simp only [wordSP, Format.reservedMask]
  apply BitVec.eq_of_getLsbD_eq
  intro i hi
  interval_cases i <;> simp only [BitVec.getLsbD_and, BitVec.getLsbD_append] <;> simp

theorem wordSP_rd (op : BitVec 6) (rd : VReg) (sel : BitVec 4) : fieldRd (wordSP op rd sel) = rd := by
  simp only [fieldRd, wordSP]
  refine (congrArg BitVec.toFin (?_ : _ = regBits rd)).trans (regBits_toFin rd)
  apply BitVec.eq_of_getLsbD_eq
  intro i hi
  interval_cases i <;> simp only [BitVec.getLsbD_extractLsb', BitVec.getLsbD_append] <;> simp

theorem wordSP_sel (op : BitVec 6) (rd : VReg) (sel : BitVec 4) : (wordSP op rd sel).extractLsb' 0 4 = sel := by
  simp only [wordSP]
  apply BitVec.eq_of_getLsbD_eq
  intro i hi
  interval_cases i <;> simp only [BitVec.getLsbD_extractLsb', BitVec.getLsbD_append] <;> simp

theorem wordST_op (op : BitVec 6) (ra : VReg) (ch : BitVec 2) : fieldOp (wordST op ra ch) = op := by
  simp only [fieldOp, wordST]
  apply BitVec.eq_of_getLsbD_eq
  intro i hi
  interval_cases i <;> simp only [BitVec.getLsbD_extractLsb', BitVec.getLsbD_append] <;> simp

theorem wordST_reserved (op : BitVec 6) (ra : VReg) (ch : BitVec 2) : wordST op ra ch &&& Format.st.reservedMask = 0 := by
  simp only [wordST, Format.reservedMask]
  apply BitVec.eq_of_getLsbD_eq
  intro i hi
  interval_cases i <;> simp only [BitVec.getLsbD_and, BitVec.getLsbD_append] <;> simp

theorem wordST_ra (op : BitVec 6) (ra : VReg) (ch : BitVec 2) : fieldRa (wordST op ra ch) = ra := by
  simp only [fieldRa, wordST]
  refine (congrArg BitVec.toFin (?_ : _ = regBits ra)).trans (regBits_toFin ra)
  apply BitVec.eq_of_getLsbD_eq
  intro i hi
  interval_cases i <;> simp only [BitVec.getLsbD_extractLsb', BitVec.getLsbD_append] <;> simp

theorem wordST_ch (op : BitVec 6) (ra : VReg) (ch : BitVec 2) : (wordST op ra ch).extractLsb' 0 2 = ch := by
  simp only [wordST]
  apply BitVec.eq_of_getLsbD_eq
  intro i hi
  interval_cases i <;> simp only [BitVec.getLsbD_extractLsb', BitVec.getLsbD_append] <;> simp

theorem wordLP_op (op : BitVec 6) (count len : BitVec 8) : fieldOp (wordLP op count len) = op := by
  simp only [fieldOp, wordLP]
  apply BitVec.eq_of_getLsbD_eq
  intro i hi
  interval_cases i <;> simp only [BitVec.getLsbD_extractLsb', BitVec.getLsbD_append] <;> simp

theorem wordLP_reserved (op : BitVec 6) (count len : BitVec 8) : wordLP op count len &&& Format.lp.reservedMask = 0 := by
  simp only [wordLP, Format.reservedMask]
  apply BitVec.eq_of_getLsbD_eq
  intro i hi
  interval_cases i <;> simp only [BitVec.getLsbD_and, BitVec.getLsbD_append] <;> simp

theorem wordLP_count (op : BitVec 6) (count len : BitVec 8) : fieldCount (wordLP op count len) = count := by
  simp only [fieldCount, wordLP]
  apply BitVec.eq_of_getLsbD_eq
  intro i hi
  interval_cases i <;> simp only [BitVec.getLsbD_extractLsb', BitVec.getLsbD_append] <;> simp

theorem wordLP_len (op : BitVec 6) (count len : BitVec 8) : fieldLen (wordLP op count len) = len := by
  simp only [fieldLen, wordLP]
  apply BitVec.eq_of_getLsbD_eq
  intro i hi
  interval_cases i <;> simp only [BitVec.getLsbD_extractLsb', BitVec.getLsbD_append] <;> simp

end Sys2Proof
end

