-- ==== Sys2Proof/Laws/State.lean ====
section
/-! SUPPORT. What each update of the state leaves in each field: one lemma per field per update, so that no later proof unfolds a
record update. -/

namespace Sys2Proof.Machine

/-! ### setWorker -/

@[simp] theorem setWorker_params (s : State) (w : Nat) (u : Worker) : (s.setWorker w u).params = s.params := rfl
@[simp] theorem setWorker_done (s : State) (w : Nat) (u : Worker) : (s.setWorker w u).done = s.done := rfl
@[simp] theorem setWorker_err (s : State) (w : Nat) (u : Worker) : (s.setWorker w u).err = s.err := rfl
@[simp] theorem setWorker_errCode (s : State) (w : Nat) (u : Worker) : (s.setWorker w u).errCode = s.errCode := rfl
@[simp] theorem setWorker_doneIE (s : State) (w : Nat) (u : Worker) : (s.setWorker w u).doneIE = s.doneIE := rfl
@[simp] theorem setWorker_errIE (s : State) (w : Nat) (u : Worker) : (s.setWorker w u).errIE = s.errIE := rfl
@[simp] theorem setWorker_errLoc (s : State) (w : Nat) (u : Worker) : (s.setWorker w u).errLoc = s.errLoc := rfl
@[simp] theorem setWorker_errPc (s : State) (w : Nat) (u : Worker) : (s.setWorker w u).errPc = s.errPc := rfl
@[simp] theorem setWorker_errInstr (s : State) (w : Nat) (u : Worker) : (s.setWorker w u).errInstr = s.errInstr := rfl
@[simp] theorem setWorker_frames (s : State) (w : Nat) (u : Worker) : (s.setWorker w u).frames = s.frames := rfl
@[simp] theorem setWorker_width (s : State) (w : Nat) (u : Worker) : (s.setWorker w u).width = s.width := rfl
@[simp] theorem setWorker_height (s : State) (w : Nat) (u : Worker) : (s.setWorker w u).height = s.height := rfl
@[simp] theorem setWorker_time (s : State) (w : Nat) (u : Worker) : (s.setWorker w u).time = s.time := rfl
@[simp] theorem setWorker_qmode (s : State) (w : Nat) (u : Worker) : (s.setWorker w u).qmode = s.qmode := rfl
@[simp] theorem setWorker_kentry (s : State) (w : Nat) (u : Worker) : (s.setWorker w u).kentry = s.kentry := rfl
@[simp] theorem setWorker_prog (s : State) (w : Nat) (u : Worker) : (s.setWorker w u).prog = s.prog := rfl
@[simp] theorem setWorker_fb (s : State) (w : Nat) (u : Worker) : (s.setWorker w u).fb = s.fb := rfl
@[simp] theorem setWorker_fstate (s : State) (w : Nat) (u : Worker) : (s.setWorker w u).fstate = s.fstate := rfl
@[simp] theorem setWorker_unclaimed (s : State) (w : Nat) (u : Worker) : (s.setWorker w u).unclaimed = s.unclaimed := rfl
@[simp] theorem setWorker_doneRows (s : State) (w : Nat) (u : Worker) : (s.setWorker w u).doneRows = s.doneRows := rfl
@[simp] theorem setWorker_frame (s : State) (w : Nat) (u : Worker) : (s.setWorker w u).frame = s.frame := rfl
@[simp] theorem setWorker_workers (s : State) (w : Nat) (u : Worker) : (s.setWorker w u).workers = s.workers.set w u := rfl
@[simp] theorem setWorker_turn (s : State) (w : Nat) (u : Worker) : (s.setWorker w u).turn = s.turn := rfl
@[simp] theorem setWorker_agenda (s : State) (w : Nat) (u : Worker) : (s.setWorker w u).agenda = s.agenda := rfl
@[simp] theorem setWorker_tick (s : State) (w : Nat) (u : Worker) : (s.setWorker w u).tick = s.tick := rfl
@[simp] theorem setWorker_resp (s : State) (w : Nat) (u : Worker) : (s.setWorker w u).resp = s.resp := rfl

/-! ### setMe -/

@[simp] theorem setMe_params (s : State) (u : Worker) : (s.setMe u).params = s.params := rfl
@[simp] theorem setMe_done (s : State) (u : Worker) : (s.setMe u).done = s.done := rfl
@[simp] theorem setMe_err (s : State) (u : Worker) : (s.setMe u).err = s.err := rfl
@[simp] theorem setMe_errCode (s : State) (u : Worker) : (s.setMe u).errCode = s.errCode := rfl
@[simp] theorem setMe_doneIE (s : State) (u : Worker) : (s.setMe u).doneIE = s.doneIE := rfl
@[simp] theorem setMe_errIE (s : State) (u : Worker) : (s.setMe u).errIE = s.errIE := rfl
@[simp] theorem setMe_errLoc (s : State) (u : Worker) : (s.setMe u).errLoc = s.errLoc := rfl
@[simp] theorem setMe_errPc (s : State) (u : Worker) : (s.setMe u).errPc = s.errPc := rfl
@[simp] theorem setMe_errInstr (s : State) (u : Worker) : (s.setMe u).errInstr = s.errInstr := rfl
@[simp] theorem setMe_frames (s : State) (u : Worker) : (s.setMe u).frames = s.frames := rfl
@[simp] theorem setMe_width (s : State) (u : Worker) : (s.setMe u).width = s.width := rfl
@[simp] theorem setMe_height (s : State) (u : Worker) : (s.setMe u).height = s.height := rfl
@[simp] theorem setMe_time (s : State) (u : Worker) : (s.setMe u).time = s.time := rfl
@[simp] theorem setMe_qmode (s : State) (u : Worker) : (s.setMe u).qmode = s.qmode := rfl
@[simp] theorem setMe_kentry (s : State) (u : Worker) : (s.setMe u).kentry = s.kentry := rfl
@[simp] theorem setMe_prog (s : State) (u : Worker) : (s.setMe u).prog = s.prog := rfl
@[simp] theorem setMe_fb (s : State) (u : Worker) : (s.setMe u).fb = s.fb := rfl
@[simp] theorem setMe_fstate (s : State) (u : Worker) : (s.setMe u).fstate = s.fstate := rfl
@[simp] theorem setMe_unclaimed (s : State) (u : Worker) : (s.setMe u).unclaimed = s.unclaimed := rfl
@[simp] theorem setMe_doneRows (s : State) (u : Worker) : (s.setMe u).doneRows = s.doneRows := rfl
@[simp] theorem setMe_frame (s : State) (u : Worker) : (s.setMe u).frame = s.frame := rfl
@[simp] theorem setMe_workers (s : State) (u : Worker) : (s.setMe u).workers = s.workers.set s.turn u := rfl
@[simp] theorem setMe_turn (s : State) (u : Worker) : (s.setMe u).turn = s.turn := rfl
@[simp] theorem setMe_agenda (s : State) (u : Worker) : (s.setMe u).agenda = s.agenda := rfl
@[simp] theorem setMe_tick (s : State) (u : Worker) : (s.setMe u).tick = s.tick := rfl
@[simp] theorem setMe_resp (s : State) (u : Worker) : (s.setMe u).resp = s.resp := rfl

/-! ### setReg -/

@[simp] theorem setReg_params (s : State) (r : VReg) (x : Lanes) : (setReg s r x).params = s.params := rfl
@[simp] theorem setReg_done (s : State) (r : VReg) (x : Lanes) : (setReg s r x).done = s.done := rfl
@[simp] theorem setReg_err (s : State) (r : VReg) (x : Lanes) : (setReg s r x).err = s.err := rfl
@[simp] theorem setReg_errCode (s : State) (r : VReg) (x : Lanes) : (setReg s r x).errCode = s.errCode := rfl
@[simp] theorem setReg_doneIE (s : State) (r : VReg) (x : Lanes) : (setReg s r x).doneIE = s.doneIE := rfl
@[simp] theorem setReg_errIE (s : State) (r : VReg) (x : Lanes) : (setReg s r x).errIE = s.errIE := rfl
@[simp] theorem setReg_errLoc (s : State) (r : VReg) (x : Lanes) : (setReg s r x).errLoc = s.errLoc := rfl
@[simp] theorem setReg_errPc (s : State) (r : VReg) (x : Lanes) : (setReg s r x).errPc = s.errPc := rfl
@[simp] theorem setReg_errInstr (s : State) (r : VReg) (x : Lanes) : (setReg s r x).errInstr = s.errInstr := rfl
@[simp] theorem setReg_frames (s : State) (r : VReg) (x : Lanes) : (setReg s r x).frames = s.frames := rfl
@[simp] theorem setReg_width (s : State) (r : VReg) (x : Lanes) : (setReg s r x).width = s.width := rfl
@[simp] theorem setReg_height (s : State) (r : VReg) (x : Lanes) : (setReg s r x).height = s.height := rfl
@[simp] theorem setReg_time (s : State) (r : VReg) (x : Lanes) : (setReg s r x).time = s.time := rfl
@[simp] theorem setReg_qmode (s : State) (r : VReg) (x : Lanes) : (setReg s r x).qmode = s.qmode := rfl
@[simp] theorem setReg_kentry (s : State) (r : VReg) (x : Lanes) : (setReg s r x).kentry = s.kentry := rfl
@[simp] theorem setReg_prog (s : State) (r : VReg) (x : Lanes) : (setReg s r x).prog = s.prog := rfl
@[simp] theorem setReg_fb (s : State) (r : VReg) (x : Lanes) : (setReg s r x).fb = s.fb := rfl
@[simp] theorem setReg_fstate (s : State) (r : VReg) (x : Lanes) : (setReg s r x).fstate = s.fstate := rfl
@[simp] theorem setReg_unclaimed (s : State) (r : VReg) (x : Lanes) : (setReg s r x).unclaimed = s.unclaimed := rfl
@[simp] theorem setReg_doneRows (s : State) (r : VReg) (x : Lanes) : (setReg s r x).doneRows = s.doneRows := rfl
@[simp] theorem setReg_frame (s : State) (r : VReg) (x : Lanes) : (setReg s r x).frame = s.frame := rfl
@[simp] theorem setReg_turn (s : State) (r : VReg) (x : Lanes) : (setReg s r x).turn = s.turn := rfl
@[simp] theorem setReg_agenda (s : State) (r : VReg) (x : Lanes) : (setReg s r x).agenda = s.agenda := rfl
@[simp] theorem setReg_tick (s : State) (r : VReg) (x : Lanes) : (setReg s r x).tick = s.tick := rfl
@[simp] theorem setReg_resp (s : State) (r : VReg) (x : Lanes) : (setReg s r x).resp = s.resp := rfl

/-! ### advance -/

@[simp] theorem advance_params (s : State) : (advance s).params = s.params := rfl
@[simp] theorem advance_done (s : State) : (advance s).done = s.done := rfl
@[simp] theorem advance_err (s : State) : (advance s).err = s.err := rfl
@[simp] theorem advance_errCode (s : State) : (advance s).errCode = s.errCode := rfl
@[simp] theorem advance_doneIE (s : State) : (advance s).doneIE = s.doneIE := rfl
@[simp] theorem advance_errIE (s : State) : (advance s).errIE = s.errIE := rfl
@[simp] theorem advance_errLoc (s : State) : (advance s).errLoc = s.errLoc := rfl
@[simp] theorem advance_errPc (s : State) : (advance s).errPc = s.errPc := rfl
@[simp] theorem advance_errInstr (s : State) : (advance s).errInstr = s.errInstr := rfl
@[simp] theorem advance_frames (s : State) : (advance s).frames = s.frames := rfl
@[simp] theorem advance_width (s : State) : (advance s).width = s.width := rfl
@[simp] theorem advance_height (s : State) : (advance s).height = s.height := rfl
@[simp] theorem advance_time (s : State) : (advance s).time = s.time := rfl
@[simp] theorem advance_qmode (s : State) : (advance s).qmode = s.qmode := rfl
@[simp] theorem advance_kentry (s : State) : (advance s).kentry = s.kentry := rfl
@[simp] theorem advance_prog (s : State) : (advance s).prog = s.prog := rfl
@[simp] theorem advance_fb (s : State) : (advance s).fb = s.fb := rfl
@[simp] theorem advance_fstate (s : State) : (advance s).fstate = s.fstate := rfl
@[simp] theorem advance_unclaimed (s : State) : (advance s).unclaimed = s.unclaimed := rfl
@[simp] theorem advance_doneRows (s : State) : (advance s).doneRows = s.doneRows := rfl
@[simp] theorem advance_frame (s : State) : (advance s).frame = s.frame := rfl
@[simp] theorem advance_turn (s : State) : (advance s).turn = s.turn := rfl
@[simp] theorem advance_agenda (s : State) : (advance s).agenda = s.agenda := rfl
@[simp] theorem advance_tick (s : State) : (advance s).tick = s.tick := rfl
@[simp] theorem advance_resp (s : State) : (advance s).resp = s.resp := rfl

/-! ### startInvocation -/

@[simp] theorem startInvocation_params (s : State) (w g r : Nat) : (startInvocation s w g r).params = s.params := rfl
@[simp] theorem startInvocation_done (s : State) (w g r : Nat) : (startInvocation s w g r).done = s.done := rfl
@[simp] theorem startInvocation_err (s : State) (w g r : Nat) : (startInvocation s w g r).err = s.err := rfl
@[simp] theorem startInvocation_errCode (s : State) (w g r : Nat) : (startInvocation s w g r).errCode = s.errCode := rfl
@[simp] theorem startInvocation_doneIE (s : State) (w g r : Nat) : (startInvocation s w g r).doneIE = s.doneIE := rfl
@[simp] theorem startInvocation_errIE (s : State) (w g r : Nat) : (startInvocation s w g r).errIE = s.errIE := rfl
@[simp] theorem startInvocation_errLoc (s : State) (w g r : Nat) : (startInvocation s w g r).errLoc = s.errLoc := rfl
@[simp] theorem startInvocation_errPc (s : State) (w g r : Nat) : (startInvocation s w g r).errPc = s.errPc := rfl
@[simp] theorem startInvocation_errInstr (s : State) (w g r : Nat) : (startInvocation s w g r).errInstr = s.errInstr := rfl
@[simp] theorem startInvocation_frames (s : State) (w g r : Nat) : (startInvocation s w g r).frames = s.frames := rfl
@[simp] theorem startInvocation_width (s : State) (w g r : Nat) : (startInvocation s w g r).width = s.width := rfl
@[simp] theorem startInvocation_height (s : State) (w g r : Nat) : (startInvocation s w g r).height = s.height := rfl
@[simp] theorem startInvocation_time (s : State) (w g r : Nat) : (startInvocation s w g r).time = s.time := rfl
@[simp] theorem startInvocation_qmode (s : State) (w g r : Nat) : (startInvocation s w g r).qmode = s.qmode := rfl
@[simp] theorem startInvocation_kentry (s : State) (w g r : Nat) : (startInvocation s w g r).kentry = s.kentry := rfl
@[simp] theorem startInvocation_prog (s : State) (w g r : Nat) : (startInvocation s w g r).prog = s.prog := rfl
@[simp] theorem startInvocation_fb (s : State) (w g r : Nat) : (startInvocation s w g r).fb = s.fb := rfl
@[simp] theorem startInvocation_fstate (s : State) (w g r : Nat) : (startInvocation s w g r).fstate = s.fstate := rfl
@[simp] theorem startInvocation_unclaimed (s : State) (w g r : Nat) : (startInvocation s w g r).unclaimed = s.unclaimed := rfl
@[simp] theorem startInvocation_doneRows (s : State) (w g r : Nat) : (startInvocation s w g r).doneRows = s.doneRows := rfl
@[simp] theorem startInvocation_frame (s : State) (w g r : Nat) : (startInvocation s w g r).frame = s.frame := rfl
@[simp] theorem startInvocation_turn (s : State) (w g r : Nat) : (startInvocation s w g r).turn = s.turn := rfl
@[simp] theorem startInvocation_agenda (s : State) (w g r : Nat) : (startInvocation s w g r).agenda = s.agenda := rfl
@[simp] theorem startInvocation_tick (s : State) (w g r : Nat) : (startInvocation s w g r).tick = s.tick := rfl
@[simp] theorem startInvocation_resp (s : State) (w g r : Nat) : (startInvocation s w g r).resp = s.resp := rfl

/-! ### fbPut -/

@[simp] theorem fbPut_params (s : State) (a : Nat) (b : Byte) : (fbPut s a b).params = s.params := rfl
@[simp] theorem fbPut_done (s : State) (a : Nat) (b : Byte) : (fbPut s a b).done = s.done := rfl
@[simp] theorem fbPut_err (s : State) (a : Nat) (b : Byte) : (fbPut s a b).err = s.err := rfl
@[simp] theorem fbPut_errCode (s : State) (a : Nat) (b : Byte) : (fbPut s a b).errCode = s.errCode := rfl
@[simp] theorem fbPut_doneIE (s : State) (a : Nat) (b : Byte) : (fbPut s a b).doneIE = s.doneIE := rfl
@[simp] theorem fbPut_errIE (s : State) (a : Nat) (b : Byte) : (fbPut s a b).errIE = s.errIE := rfl
@[simp] theorem fbPut_errLoc (s : State) (a : Nat) (b : Byte) : (fbPut s a b).errLoc = s.errLoc := rfl
@[simp] theorem fbPut_errPc (s : State) (a : Nat) (b : Byte) : (fbPut s a b).errPc = s.errPc := rfl
@[simp] theorem fbPut_errInstr (s : State) (a : Nat) (b : Byte) : (fbPut s a b).errInstr = s.errInstr := rfl
@[simp] theorem fbPut_frames (s : State) (a : Nat) (b : Byte) : (fbPut s a b).frames = s.frames := rfl
@[simp] theorem fbPut_width (s : State) (a : Nat) (b : Byte) : (fbPut s a b).width = s.width := rfl
@[simp] theorem fbPut_height (s : State) (a : Nat) (b : Byte) : (fbPut s a b).height = s.height := rfl
@[simp] theorem fbPut_time (s : State) (a : Nat) (b : Byte) : (fbPut s a b).time = s.time := rfl
@[simp] theorem fbPut_qmode (s : State) (a : Nat) (b : Byte) : (fbPut s a b).qmode = s.qmode := rfl
@[simp] theorem fbPut_kentry (s : State) (a : Nat) (b : Byte) : (fbPut s a b).kentry = s.kentry := rfl
@[simp] theorem fbPut_prog (s : State) (a : Nat) (b : Byte) : (fbPut s a b).prog = s.prog := rfl
@[simp] theorem fbPut_fb (s : State) (a : Nat) (b : Byte) : (fbPut s a b).fb = Store.put s.fb a b := rfl
@[simp] theorem fbPut_fstate (s : State) (a : Nat) (b : Byte) : (fbPut s a b).fstate = s.fstate := rfl
@[simp] theorem fbPut_unclaimed (s : State) (a : Nat) (b : Byte) : (fbPut s a b).unclaimed = s.unclaimed := rfl
@[simp] theorem fbPut_doneRows (s : State) (a : Nat) (b : Byte) : (fbPut s a b).doneRows = s.doneRows := rfl
@[simp] theorem fbPut_frame (s : State) (a : Nat) (b : Byte) : (fbPut s a b).frame = s.frame := rfl
@[simp] theorem fbPut_workers (s : State) (a : Nat) (b : Byte) : (fbPut s a b).workers = s.workers := rfl
@[simp] theorem fbPut_turn (s : State) (a : Nat) (b : Byte) : (fbPut s a b).turn = s.turn := rfl
@[simp] theorem fbPut_agenda (s : State) (a : Nat) (b : Byte) : (fbPut s a b).agenda = s.agenda := rfl
@[simp] theorem fbPut_tick (s : State) (a : Nat) (b : Byte) : (fbPut s a b).tick = s.tick := rfl
@[simp] theorem fbPut_resp (s : State) (a : Nat) (b : Byte) : (fbPut s a b).resp = s.resp := rfl

/-! ### setProg -/

@[simp] theorem setProg_params (s : State) (k : Nat) (w : Word) : (setProg s k w).params = s.params := rfl
@[simp] theorem setProg_done (s : State) (k : Nat) (w : Word) : (setProg s k w).done = s.done := rfl
@[simp] theorem setProg_err (s : State) (k : Nat) (w : Word) : (setProg s k w).err = s.err := rfl
@[simp] theorem setProg_errCode (s : State) (k : Nat) (w : Word) : (setProg s k w).errCode = s.errCode := rfl
@[simp] theorem setProg_doneIE (s : State) (k : Nat) (w : Word) : (setProg s k w).doneIE = s.doneIE := rfl
@[simp] theorem setProg_errIE (s : State) (k : Nat) (w : Word) : (setProg s k w).errIE = s.errIE := rfl
@[simp] theorem setProg_errLoc (s : State) (k : Nat) (w : Word) : (setProg s k w).errLoc = s.errLoc := rfl
@[simp] theorem setProg_errPc (s : State) (k : Nat) (w : Word) : (setProg s k w).errPc = s.errPc := rfl
@[simp] theorem setProg_errInstr (s : State) (k : Nat) (w : Word) : (setProg s k w).errInstr = s.errInstr := rfl
@[simp] theorem setProg_frames (s : State) (k : Nat) (w : Word) : (setProg s k w).frames = s.frames := rfl
@[simp] theorem setProg_width (s : State) (k : Nat) (w : Word) : (setProg s k w).width = s.width := rfl
@[simp] theorem setProg_height (s : State) (k : Nat) (w : Word) : (setProg s k w).height = s.height := rfl
@[simp] theorem setProg_time (s : State) (k : Nat) (w : Word) : (setProg s k w).time = s.time := rfl
@[simp] theorem setProg_qmode (s : State) (k : Nat) (w : Word) : (setProg s k w).qmode = s.qmode := rfl
@[simp] theorem setProg_kentry (s : State) (k : Nat) (w : Word) : (setProg s k w).kentry = s.kentry := rfl
@[simp] theorem setProg_fb (s : State) (k : Nat) (w : Word) : (setProg s k w).fb = s.fb := rfl
@[simp] theorem setProg_fstate (s : State) (k : Nat) (w : Word) : (setProg s k w).fstate = s.fstate := rfl
@[simp] theorem setProg_unclaimed (s : State) (k : Nat) (w : Word) : (setProg s k w).unclaimed = s.unclaimed := rfl
@[simp] theorem setProg_doneRows (s : State) (k : Nat) (w : Word) : (setProg s k w).doneRows = s.doneRows := rfl
@[simp] theorem setProg_frame (s : State) (k : Nat) (w : Word) : (setProg s k w).frame = s.frame := rfl
@[simp] theorem setProg_workers (s : State) (k : Nat) (w : Word) : (setProg s k w).workers = s.workers := rfl
@[simp] theorem setProg_turn (s : State) (k : Nat) (w : Word) : (setProg s k w).turn = s.turn := rfl
@[simp] theorem setProg_agenda (s : State) (k : Nat) (w : Word) : (setProg s k w).agenda = s.agenda := rfl
@[simp] theorem setProg_tick (s : State) (k : Nat) (w : Word) : (setProg s k w).tick = s.tick := rfl
@[simp] theorem setProg_resp (s : State) (k : Nat) (w : Word) : (setProg s k w).resp = s.resp := rfl

/-! ### completeFrame -/

@[simp] theorem completeFrame_params (s : State) : (completeFrame s).params = s.params := rfl
@[simp] theorem completeFrame_done (s : State) : (completeFrame s).done = true := rfl
@[simp] theorem completeFrame_err (s : State) : (completeFrame s).err = s.err := rfl
@[simp] theorem completeFrame_errCode (s : State) : (completeFrame s).errCode = s.errCode := rfl
@[simp] theorem completeFrame_doneIE (s : State) : (completeFrame s).doneIE = s.doneIE := rfl
@[simp] theorem completeFrame_errIE (s : State) : (completeFrame s).errIE = s.errIE := rfl
@[simp] theorem completeFrame_errLoc (s : State) : (completeFrame s).errLoc = s.errLoc := rfl
@[simp] theorem completeFrame_errPc (s : State) : (completeFrame s).errPc = s.errPc := rfl
@[simp] theorem completeFrame_errInstr (s : State) : (completeFrame s).errInstr = s.errInstr := rfl
@[simp] theorem completeFrame_frames (s : State) : (completeFrame s).frames = s.frames + 1 := rfl
@[simp] theorem completeFrame_width (s : State) : (completeFrame s).width = s.width := rfl
@[simp] theorem completeFrame_height (s : State) : (completeFrame s).height = s.height := rfl
@[simp] theorem completeFrame_time (s : State) : (completeFrame s).time = s.time := rfl
@[simp] theorem completeFrame_qmode (s : State) : (completeFrame s).qmode = s.qmode := rfl
@[simp] theorem completeFrame_kentry (s : State) : (completeFrame s).kentry = s.kentry := rfl
@[simp] theorem completeFrame_prog (s : State) : (completeFrame s).prog = s.prog := rfl
@[simp] theorem completeFrame_fb (s : State) : (completeFrame s).fb = s.fb := rfl
@[simp] theorem completeFrame_fstate (s : State) : (completeFrame s).fstate = .idle := rfl
@[simp] theorem completeFrame_unclaimed (s : State) : (completeFrame s).unclaimed = s.unclaimed := rfl
@[simp] theorem completeFrame_doneRows (s : State) : (completeFrame s).doneRows = s.doneRows := rfl
@[simp] theorem completeFrame_frame (s : State) : (completeFrame s).frame = s.frame := rfl
@[simp] theorem completeFrame_workers (s : State) : (completeFrame s).workers = s.workers := rfl
@[simp] theorem completeFrame_turn (s : State) : (completeFrame s).turn = s.turn := rfl
@[simp] theorem completeFrame_agenda (s : State) : (completeFrame s).agenda = s.agenda := rfl
@[simp] theorem completeFrame_tick (s : State) : (completeFrame s).tick = s.tick := rfl
@[simp] theorem completeFrame_resp (s : State) : (completeFrame s).resp = s.resp := rfl

/-! ### finishRow -/

@[simp] theorem finishRow_params (s : State) (w r : Nat) : (finishRow s w r).params = s.params := rfl
@[simp] theorem finishRow_done (s : State) (w r : Nat) : (finishRow s w r).done = s.done := rfl
@[simp] theorem finishRow_err (s : State) (w r : Nat) : (finishRow s w r).err = s.err := rfl
@[simp] theorem finishRow_errCode (s : State) (w r : Nat) : (finishRow s w r).errCode = s.errCode := rfl
@[simp] theorem finishRow_doneIE (s : State) (w r : Nat) : (finishRow s w r).doneIE = s.doneIE := rfl
@[simp] theorem finishRow_errIE (s : State) (w r : Nat) : (finishRow s w r).errIE = s.errIE := rfl
@[simp] theorem finishRow_errLoc (s : State) (w r : Nat) : (finishRow s w r).errLoc = s.errLoc := rfl
@[simp] theorem finishRow_errPc (s : State) (w r : Nat) : (finishRow s w r).errPc = s.errPc := rfl
@[simp] theorem finishRow_errInstr (s : State) (w r : Nat) : (finishRow s w r).errInstr = s.errInstr := rfl
@[simp] theorem finishRow_frames (s : State) (w r : Nat) : (finishRow s w r).frames = s.frames := rfl
@[simp] theorem finishRow_width (s : State) (w r : Nat) : (finishRow s w r).width = s.width := rfl
@[simp] theorem finishRow_height (s : State) (w r : Nat) : (finishRow s w r).height = s.height := rfl
@[simp] theorem finishRow_time (s : State) (w r : Nat) : (finishRow s w r).time = s.time := rfl
@[simp] theorem finishRow_qmode (s : State) (w r : Nat) : (finishRow s w r).qmode = s.qmode := rfl
@[simp] theorem finishRow_kentry (s : State) (w r : Nat) : (finishRow s w r).kentry = s.kentry := rfl
@[simp] theorem finishRow_prog (s : State) (w r : Nat) : (finishRow s w r).prog = s.prog := rfl
@[simp] theorem finishRow_fb (s : State) (w r : Nat) : (finishRow s w r).fb = s.fb := rfl
@[simp] theorem finishRow_fstate (s : State) (w r : Nat) : (finishRow s w r).fstate = s.fstate := rfl
@[simp] theorem finishRow_unclaimed (s : State) (w r : Nat) : (finishRow s w r).unclaimed = s.unclaimed := rfl
@[simp] theorem finishRow_doneRows (s : State) (w r : Nat) : (finishRow s w r).doneRows = insertRow r s.doneRows := rfl
@[simp] theorem finishRow_frame (s : State) (w r : Nat) : (finishRow s w r).frame = s.frame := rfl
@[simp] theorem finishRow_turn (s : State) (w r : Nat) : (finishRow s w r).turn = s.turn := rfl
@[simp] theorem finishRow_agenda (s : State) (w r : Nat) : (finishRow s w r).agenda = s.agenda := rfl
@[simp] theorem finishRow_tick (s : State) (w r : Nat) : (finishRow s w r).tick = s.tick := rfl
@[simp] theorem finishRow_resp (s : State) (w r : Nat) : (finishRow s w r).resp = s.resp := rfl

/-! ### raiseFault -/

@[simp] theorem raiseFault_params (s : State) (c : FaultCode) : (raiseFault c s).params = s.params := rfl
@[simp] theorem raiseFault_done (s : State) (c : FaultCode) : (raiseFault c s).done = s.done := rfl
@[simp] theorem raiseFault_err (s : State) (c : FaultCode) : (raiseFault c s).err = true := rfl
@[simp] theorem raiseFault_errCode (s : State) (c : FaultCode) : (raiseFault c s).errCode = c.code := rfl
@[simp] theorem raiseFault_doneIE (s : State) (c : FaultCode) : (raiseFault c s).doneIE = s.doneIE := rfl
@[simp] theorem raiseFault_errIE (s : State) (c : FaultCode) : (raiseFault c s).errIE = s.errIE := rfl
@[simp] theorem raiseFault_errLoc (s : State) (c : FaultCode) : (raiseFault c s).errLoc = locWord s.me.x0 s.me.row := rfl
@[simp] theorem raiseFault_errPc (s : State) (c : FaultCode) : (raiseFault c s).errPc = BitVec.ofNat 32 s.me.pc := rfl
@[simp] theorem raiseFault_frames (s : State) (c : FaultCode) : (raiseFault c s).frames = s.frames := rfl
@[simp] theorem raiseFault_width (s : State) (c : FaultCode) : (raiseFault c s).width = s.width := rfl
@[simp] theorem raiseFault_height (s : State) (c : FaultCode) : (raiseFault c s).height = s.height := rfl
@[simp] theorem raiseFault_time (s : State) (c : FaultCode) : (raiseFault c s).time = s.time := rfl
@[simp] theorem raiseFault_qmode (s : State) (c : FaultCode) : (raiseFault c s).qmode = s.qmode := rfl
@[simp] theorem raiseFault_kentry (s : State) (c : FaultCode) : (raiseFault c s).kentry = s.kentry := rfl
@[simp] theorem raiseFault_prog (s : State) (c : FaultCode) : (raiseFault c s).prog = s.prog := rfl
@[simp] theorem raiseFault_fb (s : State) (c : FaultCode) : (raiseFault c s).fb = s.fb := rfl
@[simp] theorem raiseFault_fstate (s : State) (c : FaultCode) : (raiseFault c s).fstate = .idle := rfl
@[simp] theorem raiseFault_unclaimed (s : State) (c : FaultCode) : (raiseFault c s).unclaimed = [] := rfl
@[simp] theorem raiseFault_doneRows (s : State) (c : FaultCode) : (raiseFault c s).doneRows = s.doneRows := rfl
@[simp] theorem raiseFault_frame (s : State) (c : FaultCode) : (raiseFault c s).frame = s.frame := rfl
@[simp] theorem raiseFault_workers (s : State) (c : FaultCode) : (raiseFault c s).workers = idleAll s.workers := rfl
@[simp] theorem raiseFault_turn (s : State) (c : FaultCode) : (raiseFault c s).turn = s.turn := rfl
@[simp] theorem raiseFault_agenda (s : State) (c : FaultCode) : (raiseFault c s).agenda = s.agenda := rfl
@[simp] theorem raiseFault_tick (s : State) (c : FaultCode) : (raiseFault c s).tick = s.tick := rfl
@[simp] theorem raiseFault_resp (s : State) (c : FaultCode) : (raiseFault c s).resp = s.resp := rfl

/-! ### configFault -/

@[simp] theorem configFault_params (s : State) (c : FaultCode) : (configFault c s).params = s.params := rfl
@[simp] theorem configFault_done (s : State) (c : FaultCode) : (configFault c s).done = s.done := rfl
@[simp] theorem configFault_err (s : State) (c : FaultCode) : (configFault c s).err = true := rfl
@[simp] theorem configFault_errCode (s : State) (c : FaultCode) : (configFault c s).errCode = c.code := rfl
@[simp] theorem configFault_doneIE (s : State) (c : FaultCode) : (configFault c s).doneIE = s.doneIE := rfl
@[simp] theorem configFault_errIE (s : State) (c : FaultCode) : (configFault c s).errIE = s.errIE := rfl
@[simp] theorem configFault_errLoc (s : State) (c : FaultCode) : (configFault c s).errLoc = 0 := rfl
@[simp] theorem configFault_errPc (s : State) (c : FaultCode) : (configFault c s).errPc = 0 := rfl
@[simp] theorem configFault_errInstr (s : State) (c : FaultCode) : (configFault c s).errInstr = 0 := rfl
@[simp] theorem configFault_frames (s : State) (c : FaultCode) : (configFault c s).frames = s.frames := rfl
@[simp] theorem configFault_width (s : State) (c : FaultCode) : (configFault c s).width = s.width := rfl
@[simp] theorem configFault_height (s : State) (c : FaultCode) : (configFault c s).height = s.height := rfl
@[simp] theorem configFault_time (s : State) (c : FaultCode) : (configFault c s).time = s.time := rfl
@[simp] theorem configFault_qmode (s : State) (c : FaultCode) : (configFault c s).qmode = s.qmode := rfl
@[simp] theorem configFault_kentry (s : State) (c : FaultCode) : (configFault c s).kentry = s.kentry := rfl
@[simp] theorem configFault_prog (s : State) (c : FaultCode) : (configFault c s).prog = s.prog := rfl
@[simp] theorem configFault_fb (s : State) (c : FaultCode) : (configFault c s).fb = s.fb := rfl
@[simp] theorem configFault_fstate (s : State) (c : FaultCode) : (configFault c s).fstate = s.fstate := rfl
@[simp] theorem configFault_unclaimed (s : State) (c : FaultCode) : (configFault c s).unclaimed = s.unclaimed := rfl
@[simp] theorem configFault_doneRows (s : State) (c : FaultCode) : (configFault c s).doneRows = s.doneRows := rfl
@[simp] theorem configFault_frame (s : State) (c : FaultCode) : (configFault c s).frame = s.frame := rfl
@[simp] theorem configFault_workers (s : State) (c : FaultCode) : (configFault c s).workers = s.workers := rfl
@[simp] theorem configFault_turn (s : State) (c : FaultCode) : (configFault c s).turn = s.turn := rfl
@[simp] theorem configFault_agenda (s : State) (c : FaultCode) : (configFault c s).agenda = s.agenda := rfl
@[simp] theorem configFault_tick (s : State) (c : FaultCode) : (configFault c s).tick = s.tick := rfl
@[simp] theorem configFault_resp (s : State) (c : FaultCode) : (configFault c s).resp = s.resp := rfl

/-! ### clearErr -/

@[simp] theorem clearErr_params (s : State) : (clearErr s).params = s.params := rfl
@[simp] theorem clearErr_done (s : State) : (clearErr s).done = s.done := rfl
@[simp] theorem clearErr_err (s : State) : (clearErr s).err = false := rfl
@[simp] theorem clearErr_errCode (s : State) : (clearErr s).errCode = 0 := rfl
@[simp] theorem clearErr_doneIE (s : State) : (clearErr s).doneIE = s.doneIE := rfl
@[simp] theorem clearErr_errIE (s : State) : (clearErr s).errIE = s.errIE := rfl
@[simp] theorem clearErr_errLoc (s : State) : (clearErr s).errLoc = s.errLoc := rfl
@[simp] theorem clearErr_errPc (s : State) : (clearErr s).errPc = s.errPc := rfl
@[simp] theorem clearErr_errInstr (s : State) : (clearErr s).errInstr = s.errInstr := rfl
@[simp] theorem clearErr_frames (s : State) : (clearErr s).frames = s.frames := rfl
@[simp] theorem clearErr_width (s : State) : (clearErr s).width = s.width := rfl
@[simp] theorem clearErr_height (s : State) : (clearErr s).height = s.height := rfl
@[simp] theorem clearErr_time (s : State) : (clearErr s).time = s.time := rfl
@[simp] theorem clearErr_qmode (s : State) : (clearErr s).qmode = s.qmode := rfl
@[simp] theorem clearErr_kentry (s : State) : (clearErr s).kentry = s.kentry := rfl
@[simp] theorem clearErr_prog (s : State) : (clearErr s).prog = s.prog := rfl
@[simp] theorem clearErr_fb (s : State) : (clearErr s).fb = s.fb := rfl
@[simp] theorem clearErr_fstate (s : State) : (clearErr s).fstate = s.fstate := rfl
@[simp] theorem clearErr_unclaimed (s : State) : (clearErr s).unclaimed = s.unclaimed := rfl
@[simp] theorem clearErr_doneRows (s : State) : (clearErr s).doneRows = s.doneRows := rfl
@[simp] theorem clearErr_frame (s : State) : (clearErr s).frame = s.frame := rfl
@[simp] theorem clearErr_workers (s : State) : (clearErr s).workers = s.workers := rfl
@[simp] theorem clearErr_turn (s : State) : (clearErr s).turn = s.turn := rfl
@[simp] theorem clearErr_agenda (s : State) : (clearErr s).agenda = s.agenda := rfl
@[simp] theorem clearErr_tick (s : State) : (clearErr s).tick = s.tick := rfl
@[simp] theorem clearErr_resp (s : State) : (clearErr s).resp = s.resp := rfl

/-! ### clearDone -/

@[simp] theorem clearDone_params (s : State) : (clearDone s).params = s.params := rfl
@[simp] theorem clearDone_done (s : State) : (clearDone s).done = false := rfl
@[simp] theorem clearDone_err (s : State) : (clearDone s).err = s.err := rfl
@[simp] theorem clearDone_errCode (s : State) : (clearDone s).errCode = s.errCode := rfl
@[simp] theorem clearDone_doneIE (s : State) : (clearDone s).doneIE = s.doneIE := rfl
@[simp] theorem clearDone_errIE (s : State) : (clearDone s).errIE = s.errIE := rfl
@[simp] theorem clearDone_errLoc (s : State) : (clearDone s).errLoc = s.errLoc := rfl
@[simp] theorem clearDone_errPc (s : State) : (clearDone s).errPc = s.errPc := rfl
@[simp] theorem clearDone_errInstr (s : State) : (clearDone s).errInstr = s.errInstr := rfl
@[simp] theorem clearDone_frames (s : State) : (clearDone s).frames = s.frames := rfl
@[simp] theorem clearDone_width (s : State) : (clearDone s).width = s.width := rfl
@[simp] theorem clearDone_height (s : State) : (clearDone s).height = s.height := rfl
@[simp] theorem clearDone_time (s : State) : (clearDone s).time = s.time := rfl
@[simp] theorem clearDone_qmode (s : State) : (clearDone s).qmode = s.qmode := rfl
@[simp] theorem clearDone_kentry (s : State) : (clearDone s).kentry = s.kentry := rfl
@[simp] theorem clearDone_prog (s : State) : (clearDone s).prog = s.prog := rfl
@[simp] theorem clearDone_fb (s : State) : (clearDone s).fb = s.fb := rfl
@[simp] theorem clearDone_fstate (s : State) : (clearDone s).fstate = s.fstate := rfl
@[simp] theorem clearDone_unclaimed (s : State) : (clearDone s).unclaimed = s.unclaimed := rfl
@[simp] theorem clearDone_doneRows (s : State) : (clearDone s).doneRows = s.doneRows := rfl
@[simp] theorem clearDone_frame (s : State) : (clearDone s).frame = s.frame := rfl
@[simp] theorem clearDone_workers (s : State) : (clearDone s).workers = s.workers := rfl
@[simp] theorem clearDone_turn (s : State) : (clearDone s).turn = s.turn := rfl
@[simp] theorem clearDone_agenda (s : State) : (clearDone s).agenda = s.agenda := rfl
@[simp] theorem clearDone_tick (s : State) : (clearDone s).tick = s.tick := rfl
@[simp] theorem clearDone_resp (s : State) : (clearDone s).resp = s.resp := rfl

/-! ### beginFrame -/

@[simp] theorem beginFrame_params (s : State) : (beginFrame s).params = s.params := rfl
@[simp] theorem beginFrame_done (s : State) : (beginFrame s).done = s.done := rfl
@[simp] theorem beginFrame_err (s : State) : (beginFrame s).err = s.err := rfl
@[simp] theorem beginFrame_errCode (s : State) : (beginFrame s).errCode = s.errCode := rfl
@[simp] theorem beginFrame_doneIE (s : State) : (beginFrame s).doneIE = s.doneIE := rfl
@[simp] theorem beginFrame_errIE (s : State) : (beginFrame s).errIE = s.errIE := rfl
@[simp] theorem beginFrame_errLoc (s : State) : (beginFrame s).errLoc = s.errLoc := rfl
@[simp] theorem beginFrame_errPc (s : State) : (beginFrame s).errPc = s.errPc := rfl
@[simp] theorem beginFrame_errInstr (s : State) : (beginFrame s).errInstr = s.errInstr := rfl
@[simp] theorem beginFrame_frames (s : State) : (beginFrame s).frames = s.frames := rfl
@[simp] theorem beginFrame_width (s : State) : (beginFrame s).width = s.width := rfl
@[simp] theorem beginFrame_height (s : State) : (beginFrame s).height = s.height := rfl
@[simp] theorem beginFrame_time (s : State) : (beginFrame s).time = s.time := rfl
@[simp] theorem beginFrame_qmode (s : State) : (beginFrame s).qmode = s.qmode := rfl
@[simp] theorem beginFrame_kentry (s : State) : (beginFrame s).kentry = s.kentry := rfl
@[simp] theorem beginFrame_prog (s : State) : (beginFrame s).prog = s.prog := rfl
@[simp] theorem beginFrame_fb (s : State) : (beginFrame s).fb = s.fb := rfl
@[simp] theorem beginFrame_fstate (s : State) : (beginFrame s).fstate = .running := rfl
@[simp] theorem beginFrame_unclaimed (s : State) : (beginFrame s).unclaimed = List.range s.height.toNat := rfl
@[simp] theorem beginFrame_doneRows (s : State) : (beginFrame s).doneRows = [] := rfl
@[simp] theorem beginFrame_frame (s : State) : (beginFrame s).frame = latchFrame s := rfl
@[simp] theorem beginFrame_workers (s : State) : (beginFrame s).workers = s.workers := rfl
@[simp] theorem beginFrame_turn (s : State) : (beginFrame s).turn = s.turn := rfl
@[simp] theorem beginFrame_agenda (s : State) : (beginFrame s).agenda = s.agenda := rfl
@[simp] theorem beginFrame_tick (s : State) : (beginFrame s).tick = s.tick := rfl
@[simp] theorem beginFrame_resp (s : State) : (beginFrame s).resp = s.resp := rfl

/-! ### takeRow -/

@[simp] theorem takeRow_params (s : State) (w r : Nat) : (takeRow s w r).params = s.params := rfl
@[simp] theorem takeRow_done (s : State) (w r : Nat) : (takeRow s w r).done = s.done := rfl
@[simp] theorem takeRow_err (s : State) (w r : Nat) : (takeRow s w r).err = s.err := rfl
@[simp] theorem takeRow_errCode (s : State) (w r : Nat) : (takeRow s w r).errCode = s.errCode := rfl
@[simp] theorem takeRow_doneIE (s : State) (w r : Nat) : (takeRow s w r).doneIE = s.doneIE := rfl
@[simp] theorem takeRow_errIE (s : State) (w r : Nat) : (takeRow s w r).errIE = s.errIE := rfl
@[simp] theorem takeRow_errLoc (s : State) (w r : Nat) : (takeRow s w r).errLoc = s.errLoc := rfl
@[simp] theorem takeRow_errPc (s : State) (w r : Nat) : (takeRow s w r).errPc = s.errPc := rfl
@[simp] theorem takeRow_errInstr (s : State) (w r : Nat) : (takeRow s w r).errInstr = s.errInstr := rfl
@[simp] theorem takeRow_frames (s : State) (w r : Nat) : (takeRow s w r).frames = s.frames := rfl
@[simp] theorem takeRow_width (s : State) (w r : Nat) : (takeRow s w r).width = s.width := rfl
@[simp] theorem takeRow_height (s : State) (w r : Nat) : (takeRow s w r).height = s.height := rfl
@[simp] theorem takeRow_time (s : State) (w r : Nat) : (takeRow s w r).time = s.time := rfl
@[simp] theorem takeRow_qmode (s : State) (w r : Nat) : (takeRow s w r).qmode = s.qmode := rfl
@[simp] theorem takeRow_kentry (s : State) (w r : Nat) : (takeRow s w r).kentry = s.kentry := rfl
@[simp] theorem takeRow_prog (s : State) (w r : Nat) : (takeRow s w r).prog = s.prog := rfl
@[simp] theorem takeRow_fb (s : State) (w r : Nat) : (takeRow s w r).fb = s.fb := rfl
@[simp] theorem takeRow_fstate (s : State) (w r : Nat) : (takeRow s w r).fstate = s.fstate := rfl
@[simp] theorem takeRow_unclaimed (s : State) (w r : Nat) : (takeRow s w r).unclaimed = removeRow r s.unclaimed := rfl
@[simp] theorem takeRow_doneRows (s : State) (w r : Nat) : (takeRow s w r).doneRows = s.doneRows := rfl
@[simp] theorem takeRow_frame (s : State) (w r : Nat) : (takeRow s w r).frame = s.frame := rfl
@[simp] theorem takeRow_turn (s : State) (w r : Nat) : (takeRow s w r).turn = s.turn := rfl
@[simp] theorem takeRow_agenda (s : State) (w r : Nat) : (takeRow s w r).agenda = s.agenda := rfl
@[simp] theorem takeRow_tick (s : State) (w r : Nat) : (takeRow s w r).tick = s.tick := rfl
@[simp] theorem takeRow_resp (s : State) (w r : Nat) : (takeRow s w r).resp = s.resp := rfl

end Sys2Proof.Machine
end

