-- ==== Sys2Proof/Laws/Memory.lean ====
section
/-! SUPPORT. The laws of the stores: read after write, other addresses untouched, canonical form kept, writes to two addresses
commute; and the same for the framebuffer and PROG operations. -/

namespace Sys2Proof.Machine

variable {β : Type}

/-! ### Reading -/

@[simp] theorem store_get?_nil (a : Nat) : Store.get? ([] : Store β) a = none := rfl

theorem store_get?_put (m : Store β) (a c : Nat) (b : β) :
    Store.get? (Store.put m a b) c = if c = a then some b else Store.get? m c := by
  induction m with
  | nil => simp [Store.put, Store.get?]
  | cons p m ih =>
    obtain ⟨k, v⟩ := p
    unfold Store.put
    split_ifs <;> simp only [Store.get?, ih] <;> split_ifs <;> first | rfl | omega

@[simp] theorem store_get?_put_self (m : Store β) (a : Nat) (b : β) : Store.get? (Store.put m a b) a = some b := by
  simp [store_get?_put]

theorem store_get?_put_of_ne (m : Store β) {a c : Nat} (b : β) (h : c ≠ a) :
    Store.get? (Store.put m a b) c = Store.get? m c := by
  simp [store_get?_put, h]

theorem store_get?_erase (m : Store β) (a c : Nat) :
    Store.get? (Store.erase m a) c = if c = a then none else Store.get? m c := by
  induction m with
  | nil => simp [Store.erase, Store.get?]
  | cons p m ih =>
    obtain ⟨k, v⟩ := p
    simp only [Store.erase] at ih ⊢
    by_cases hk : k = a
    · subst hk
      simp only [ne_eq, not_true, decide_false, Bool.false_eq_true, not_false_eq_true, List.filter_cons_of_neg, ih,
        Store.get?]
      split_ifs <;> rfl
    · simp only [ne_eq, hk, not_false_eq_true, decide_true, List.filter_cons_of_pos, Store.get?, ih]
      split_ifs <;> first | rfl | omega

/-! ### Entries -/

theorem mem_store_put {m : Store β} {a : Nat} {b : β} {p : Nat × β} (h : p ∈ Store.put m a b) : p = (a, b) ∨ p ∈ m := by
  induction m with
  | nil => simpa [Store.put] using h
  | cons q m ih =>
    obtain ⟨k, v⟩ := q
    unfold Store.put at h
    split_ifs at h
    · simpa using h
    · rcases List.mem_cons.1 h with rfl | h'
      · exact .inl rfl
      · exact .inr (List.mem_cons_of_mem _ h')
    · rcases List.mem_cons.1 h with rfl | h'
      · simp
      · rcases ih h' with rfl | h''
        · exact .inl rfl
        · exact .inr (List.mem_cons_of_mem _ h'')

theorem mem_store_erase {m : Store β} {a : Nat} {p : Nat × β} (h : p ∈ Store.erase m a) : p ∈ m :=
  (List.mem_filter.1 h).1

/-! ### Canonical form -/

theorem store_put_rising {m : Store β} (h : Store.rising m) (a : Nat) (b : β) : Store.rising (Store.put m a b) := by
  induction m with
  | nil => simp [Store.put]
  | cons q m ih =>
    obtain ⟨k, v⟩ := q
    obtain ⟨hk, hm⟩ := List.pairwise_cons.1 h
    unfold Store.put
    split_ifs with h1 h2
    · refine List.pairwise_cons.2 ⟨fun p hp => ?_, h⟩
      rcases List.mem_cons.1 hp with rfl | hp
      · exact h1
      · exact h1.trans (hk p hp)
    · subst h2
      exact List.pairwise_cons.2 ⟨hk, hm⟩
    · refine List.pairwise_cons.2 ⟨fun p hp => ?_, ih hm⟩
      rcases mem_store_put hp with rfl | hp
      · show k < a
        omega
      · exact hk p hp

theorem store_erase_rising {m : Store β} (h : Store.rising m) (a : Nat) : Store.rising (Store.erase m a) := h.filter _

/-- In a rising store two entries written at two addresses may be written in either order. -/
theorem store_put_comm {m : Store β} (h : Store.rising m) {a c : Nat} (hac : a ≠ c) (b d : β) :
    Store.put (Store.put m a b) c d = Store.put (Store.put m c d) a b := by
  induction m with
  | nil =>
    simp only [Store.put]
    rcases Nat.lt_or_gt_of_ne hac with h1 | h1
    · rw [if_neg (by omega), if_neg (by omega), if_pos h1]
    · rw [if_pos h1, if_neg (by omega), if_neg (by omega)]
  | cons q m ih =>
    obtain ⟨k, v⟩ := q
    have ih := ih (List.pairwise_cons.1 h).2
    rcases Nat.lt_trichotomy a k with h1 | h1 | h1 <;> rcases Nat.lt_trichotomy c k with h2 | h2 | h2 <;>
      rcases Nat.lt_or_gt_of_ne hac with h3 | h3 <;> try omega
    all_goals
      simp only [Store.put, h1, h2, h3, if_true, if_false, Nat.lt_irrefl, Nat.lt_asymm h3, Nat.ne_of_gt h3,
        Nat.ne_of_lt h3]
      try simp [Store.put, h1, h2, ih, Nat.ne_of_gt, Nat.not_lt_of_gt]

/-! ### The framebuffer and PROG -/

theorem fbByte_fbPut (s : State) (a c : Nat) (b : Byte) :
    fbByte (fbPut s a b) c = if c = a then b else fbByte s c := by
  simp only [fbByte, fbPut_fb, store_get?_put]
  split_ifs <;> rfl

theorem fbPutAll_cons (s : State) (p : Nat × Byte) (ws : List (Nat × Byte)) :
    fbPutAll s (p :: ws) = fbPutAll (fbPut s p.1 p.2) ws := rfl

/-- Several byte writes change nothing but the framebuffer. -/
theorem fbPutAll_eq (s : State) (ws : List (Nat × Byte)) : fbPutAll s ws = { s with fb := (fbPutAll s ws).fb } := by
  induction ws generalizing s with
  | nil => rfl
  | cons p ws ih =>
    rw [fbPutAll_cons, ih]
    rfl

/-- A byte no write names reads as before. -/
theorem fbByte_fbPutAll_of_not_mem (s : State) (ws : List (Nat × Byte)) (c : Nat) (h : ∀ p ∈ ws, c ≠ p.1) :
    fbByte (fbPutAll s ws) c = fbByte s c := by
  induction ws generalizing s with
  | nil => rfl
  | cons p ws ih =>
    rw [fbPutAll_cons, ih _ fun q hq => h q (List.mem_cons_of_mem _ hq), fbByte_fbPut,
      if_neg (h p List.mem_cons_self)]

theorem fbPutAll_wf {s : State} (h : Memory.wf s.fb) (ws : List (Nat × Byte)) : Memory.wf (fbPutAll s ws).fb := by
  induction ws generalizing s with
  | nil => exact h
  | cons p ws ih => exact ih (store_put_rising h p.1 p.2)

theorem fbPutAll_below {s : State} {n : Nat} {ws : List (Nat × Byte)} (h : ∀ p ∈ s.fb, p.1 < n)
    (hw : ∀ p ∈ ws, p.1 < n) : ∀ p ∈ (fbPutAll s ws).fb, p.1 < n := by
  induction ws generalizing s with
  | nil => exact h
  | cons q ws ih =>
    refine ih (fun p hp => ?_) fun p hp => hw p (List.mem_cons_of_mem _ hp)
    rcases mem_store_put hp with rfl | hp
    · exact hw q List.mem_cons_self
    · exact h p hp

theorem progWord_setProg (s : State) (k c : Nat) (w : Word) :
    progWord (setProg s k w) c = if c = k then w else progWord s c := by
  unfold progWord setProg
  by_cases hw : w = 0
  · subst hw
    simp only [if_true, store_get?_erase]
    split_ifs <;> rfl
  · simp only [hw, if_false, store_get?_put]
    split_ifs <;> rfl

theorem setProg_wf {s : State} (h : ProgMem.wf s.prog) (k : Nat) (w : Word) : ProgMem.wf (setProg s k w).prog := by
  unfold setProg
  by_cases hw : w = 0
  · simp only [hw, if_true]
    exact ⟨store_erase_rising h.1 k, fun p hp => h.2 p (mem_store_erase hp)⟩
  · simp only [hw, if_false]
    refine ⟨store_put_rising h.1 k w, fun p hp => ?_⟩
    rcases mem_store_put hp with rfl | hp
    · exact hw
    · exact h.2 p hp

theorem setProg_below {s : State} {n k : Nat} (h : ∀ p ∈ s.prog, p.1 < n) (hk : k < n) (w : Word) :
    ∀ p ∈ (setProg s k w).prog, p.1 < n := by
  intro p hp
  unfold setProg at hp
  by_cases hw : w = 0
  · simp only [hw, if_true] at hp
    exact h p (mem_store_erase hp)
  · simp only [hw, if_false] at hp
    rcases mem_store_put hp with rfl | hp
    · exact hk
    · exact h p hp

/-- PROG after reset is in canonical form. -/
theorem resetProg_wf : ProgMem.wf resetProg := by decide +kernel

/-- The memory of the state after reset is in canonical form. -/
theorem reset_memory_wf : Memory.wf State.reset.fb ∧ ProgMem.wf State.reset.prog := ⟨List.Pairwise.nil, resetProg_wf⟩

end Sys2Proof.Machine
end

