-- ==== Sys2Proof/Laws/Workers.lean ====
section
/-! SUPPORT. Reading workers, registers and lanes after the updates of Operands and Ops: what each shared operation does, said once. -/

namespace Sys2Proof.Machine

/-! ### Workers -/

theorem worker_setWorker (s : State) (w v : Nat) (u : Worker) :
    (s.setWorker w u).worker v = if v = w ∧ w < s.workers.length then u else s.worker v := by
  simp only [State.worker, setWorker_workers, setWorker_params, List.getD_eq_getElem?_getD, List.getElem?_set]
  by_cases hv : w = v
  · subst hv
    by_cases hw : w < s.workers.length <;> simp [hw]
  · simp [hv, Ne.symm hv]

@[simp] theorem worker_setWorker_self (s : State) {w : Nat} (u : Worker) (h : w < s.workers.length) :
    (s.setWorker w u).worker w = u := by
  simp [worker_setWorker, h]

theorem worker_setWorker_of_ne (s : State) {w v : Nat} (u : Worker) (h : v ≠ w) :
    (s.setWorker w u).worker v = s.worker v := by
  simp [worker_setWorker, h]

@[simp] theorem me_setMe (s : State) (u : Worker) (h : s.turn < s.workers.length) : (s.setMe u).me = u :=
  worker_setWorker_self s u h

/-- Reading a worker looks at the workers and L only. -/
theorem worker_congr {s t : State} (hw : t.workers = s.workers) (hp : t.params = s.params) (w : Nat) :
    t.worker w = s.worker w := by
  simp [State.worker, hw, hp]

theorem worker_mem (s : State) {w : Nat} (h : w < s.workers.length) : s.worker w ∈ s.workers := by
  simp [State.worker, h]

theorem worker_eq_getElem (s : State) {w : Nat} (h : w < s.workers.length) : s.worker w = s.workers[w] := by
  simp [State.worker, h]

@[simp] theorem length_setWorker (s : State) (w : Nat) (u : Worker) :
    (s.setWorker w u).workers.length = s.workers.length := by
  simp

@[simp] theorem length_setReg (s : State) (r : VReg) (x : Lanes) : (setReg s r x).workers.length = s.workers.length := by
  simp [setReg]

@[simp] theorem length_advance (s : State) : (advance s).workers.length = s.workers.length := by
  simp [advance]

@[simp] theorem length_idleAll (ws : List Worker) : (idleAll ws).length = ws.length := by
  simp [idleAll]

/-- After a fault every worker is as before, but IDLE. -/
theorem worker_raiseFault (s : State) (c : FaultCode) {w : Nat} (h : w < s.workers.length) :
    (raiseFault c s).worker w = { s.worker w with wstate := .idle } := by
  simp [State.worker, idleAll, h]

/-! ### The advance -/

/-- What the advance leaves of a worker: all but pc, LACTIVE and LITER. -/
theorem Worker.advance_frame (u : Worker) :
    u.advance.v = u.v ∧ u.advance.x0 = u.x0 ∧ u.advance.row = u.row ∧ u.advance.wstate = u.wstate ∧
      u.advance.lstart = u.lstart ∧ u.advance.lend = u.lend ∧ u.advance.lcount = u.lcount := by
  unfold Worker.advance
  split_ifs <;> exact ⟨rfl, rfl, rfl, rfl, rfl, rfl, rfl⟩

@[simp] theorem Worker.advance_v (u : Worker) : u.advance.v = u.v := u.advance_frame.1

@[simp] theorem me_advance (s : State) (h : s.turn < s.workers.length) : (advance s).me = s.me.advance :=
  me_setMe s _ h

theorem worker_advance_of_ne (s : State) {w : Nat} (h : w ≠ s.turn) : (advance s).worker w = s.worker w :=
  worker_setWorker_of_ne s _ h

/-! ### Registers and lanes -/

theorem reg_setReg (s : State) (r q : VReg) (x : Lanes) (h : s.turn < s.workers.length) :
    reg (setReg s r x) q = if q = r then x else reg s q := by
  unfold reg setReg
  rw [me_setMe s _ h]
  show (s.me.v.set r x)[q] = _
  by_cases hq : q = r
  · subst hq
    simp
  · have : (r : Nat) ≠ q := fun e => hq (Fin.ext e.symm)
    simp [hq, this]

@[simp] theorem reg_setReg_self (s : State) (r : VReg) (x : Lanes) (h : s.turn < s.workers.length) :
    reg (setReg s r x) r = x := by
  simp [reg_setReg _ _ _ _ h]

theorem reg_setReg_of_ne (s : State) {r q : VReg} (x : Lanes) (h : s.turn < s.workers.length) (hq : q ≠ r) :
    reg (setReg s r x) q = reg s q := by
  simp [reg_setReg _ _ _ _ h, hq]

@[simp] theorem reg_advance (s : State) (r : VReg) (h : s.turn < s.workers.length) : reg (advance s) r = reg s r := by
  unfold reg
  rw [me_advance s h]
  simp

theorem worker_setReg_of_ne (s : State) {w : Nat} (r : VReg) (x : Lanes) (h : w ≠ s.turn) :
    (setReg s r x).worker w = s.worker w :=
  worker_setWorker_of_ne s _ h

/-- What a register write leaves of the executing worker: all but its registers. -/
theorem me_setReg (s : State) (r : VReg) (x : Lanes) (h : s.turn < s.workers.length) :
    (setReg s r x).me = { s.me with v := s.me.v.set r x } :=
  me_setMe s _ h

@[simp] theorem length_perLane (s : State) (f : Nat → Word) : (perLane s f).length = s.params.laneWidth := by
  simp [perLane]

@[simp] theorem lane_perLane (s : State) (f : Nat → Word) {j : Nat} (h : j < s.params.laneWidth) :
    lane (perLane s f) j = f j := by
  simp [lane, perLane, h]

/-- A register of a group that fits is the one its number says. -/
theorem groupReg_val (r : VReg) (k : Nat) (h : r.val + k < 32) : (groupReg r k).val = r.val + k := by
  simp [groupReg, Nat.mod_eq_of_lt h]

@[simp] theorem groupReg_zero (r : VReg) : groupReg r 0 = r := Fin.ext (by simp [groupReg])

end Sys2Proof.Machine
end

