-- ==== Sys2Proof/Laws/Run.lean ====
section
/-! SUPPORT. What the shared operations of a step can do, said once: the register write with its advance, the byte writes of STQ,
the recording of a fault, and the cases of a step. -/

namespace Sys2Proof.Machine

/-- The advance does what R171 says. -/
theorem Worker.advance_spec (u : Worker) : Advanced u u.advance := by
  unfold Advanced Worker.advance
  split_ifs <;> simp_all

/-- A register write followed by the advance: the register takes the lanes, and nothing else changes but the advance. -/
theorem setReg_advance_writes (s : State) (rd : VReg) (x : Lanes) (h : s.turn < s.workers.length) :
    WritesRegs s (advance (setReg s rd x)) [(rd, lane x)] := by
  have h' : (setReg s rd x).turn < (setReg s rd x).workers.length := by simpa using h
  refine ⟨⟨rfl, by simp, fun w hw => ?_⟩, fun a => rfl, ?_, ?_, ?_⟩
  · exact (worker_advance_of_ne (setReg s rd x) hw).trans (worker_setReg_of_ne s rd x hw)
  · rw [me_advance _ h', me_setReg _ _ _ h]
    exact (Worker.advance_spec { s.me with v := s.me.v.set rd x })
  · intro p hp j _
    obtain rfl := List.mem_singleton.1 hp
    simp [regLane, reg_advance _ _ h', reg_setReg_self _ _ _ h]
  · intro r hr
    rw [reg_advance _ _ h', reg_setReg_of_ne _ _ h (hr _ (List.mem_singleton.2 rfl))]

/-- Recording a fault does what R302 says. -/
theorem raiseFault_records (s : State) (c : FaultCode) (h : c ≠ .pcOverflow) :
    RecordsFault s (raiseFault c s) c (fetchWord s) := by
  refine ⟨⟨rfl, rfl, rfl, rfl, ?_⟩, ⟨rfl, rfl, by simp, fun w hw => worker_raiseFault s c hw⟩, fun a => rfl, rfl⟩
  simp [raiseFault, h]

/-- What the byte writes of STQ can answer: a fault naming an address past the space, or the bytes written and the advance. -/
theorem storeLanes_cases (ws : List (Nat × Byte)) (s : State) :
    (∃ p ∈ ws, s.params.fbCapacity ≤ p.1 ∧ storeLanes ws s = .fault (.noSuchByte p.1)) ∨
      ((∀ p ∈ ws, p.1 < s.params.fbCapacity) ∧ storeLanes ws s = .next (advance (fbPutAll s ws))) := by
  unfold storeLanes
  cases hf : ws.find? fun p => decide (s.params.fbCapacity ≤ p.1) with
  | some p =>
    have hp := List.find?_some hf
    exact .inl ⟨p, List.mem_of_find?_eq_some hf, by simpa using hp, rfl⟩
  | none => exact .inr ⟨fun p hp => by simpa using (List.find?_eq_none.1 hf) p hp, rfl⟩

/-- The event of a step and the state it acts on. -/
theorem step_eq (s : State) : step s = perform (nextEvent s) (takeEvent s) := rfl

/-- Taking an event changes the agenda and the index into the free schedule only. -/
theorem takeEvent_eq (s : State) :
    takeEvent s = { s with agenda := (takeEvent s).agenda, tick := (takeEvent s).tick } := by
  unfold takeEvent
  split <;> rfl

/-- What an event can do: the four agents' steps, or nothing where the agent's step is not enabled. -/
theorem perform_cases {e : Event} {s t : State} (h : perform e s = .next t) :
    (e = .reset ∧ t = resetStep s) ∨ (∃ op, e = .host op ∧ t = hostStep op s) ∨
      (∃ w r, e = .claim w r ∧ claimEnabled s w r = true ∧ t = claimRow s w r) ∨
      (∃ w, e = .work w ∧ workEnabled s w = true ∧ fetchExecute { s with turn := w } = .next t) ∨ t = s := by
  cases e with
  | reset => exact .inl ⟨rfl, by simpa [perform] using h.symm⟩
  | host op => exact .inr (.inl ⟨op, rfl, by simpa [perform] using h.symm⟩)
  | claim w r =>
    by_cases hc : claimEnabled s w r = true
    · exact .inr (.inr (.inl ⟨w, r, rfl, hc, by simpa [perform, hc] using h.symm⟩))
    · exact .inr (.inr (.inr (.inr (by simpa [perform, hc] using h.symm))))
  | work w =>
    by_cases hc : workEnabled s w = true
    · exact .inr (.inr (.inr (.inl ⟨w, rfl, hc, by simpa [perform, hc] using h⟩)))
    · exact .inr (.inr (.inr (.inr (by simpa [perform, hc] using h.symm))))

/-- What a worker's instruction step can do: record a fault of the fetch or of the decoder, or run the decoded instruction. -/
theorem fetchExecute_cases (s : State) :
    (s.params.progDepth ≤ s.me.pc ∧ fetchExecute s = .next (raiseFault .pcOverflow s)) ∨
      (∃ c, s.me.pc < s.params.progDepth ∧ decode (fetchWord s) = .error c ∧ fetchExecute s = .next (raiseFault c s)) ∨
      ∃ i, s.me.pc < s.params.progDepth ∧ decode (fetchWord s) = .ok i ∧ fetchExecute s = exec i s := by
  unfold fetchExecute
  by_cases hp : s.params.progDepth ≤ s.me.pc
  · exact .inl ⟨hp, by rw [if_pos hp]⟩
  · rw [if_neg hp]
    cases hd : decode (fetchWord s) with
    | error c => exact .inr (.inl ⟨c, by omega, rfl, rfl⟩)
    | ok i => exact .inr (.inr ⟨i, by omega, rfl, rfl⟩)

end Sys2Proof.Machine
end

