-- ==== Sys2Proof/Laws/Exec.lean ====
section
/-! SUPPORT. What an instruction can do, said once for all of them: five shapes of next state, from which a statement about every
instruction is proved without unfolding a meaning. -/

namespace Sys2Proof.Machine

/-- Registers that hold L lanes each, or what another register held. -/
def LanesFrom (s : State) (v : Vector Lanes 32) : Prop :=
  ∀ r : VReg, v[r].length = s.params.laneWidth ∨ ∃ q : VReg, v[r] = s.me.v[q]

theorem lanesFrom_me (s : State) : LanesFrom s s.me.v := fun r => .inr ⟨r, rfl⟩

theorem LanesFrom.set {s : State} {v : Vector Lanes 32} (h : LanesFrom s v) (r : VReg) {x : Lanes}
    (hx : x.length = s.params.laneWidth ∨ ∃ q : VReg, x = s.me.v[q]) : LanesFrom s (v.set r x) := by
  intro p
  by_cases hp : p = r
  · subst hp
    simpa using hx
  · have : (r : Nat) ≠ p := fun e => hp (Fin.ext e.symm)
    simpa [this] using h p

/-- A register write on a state whose executing worker has been replaced. -/
theorem setReg_setMe (s : State) (u : Worker) (r : VReg) (x : Lanes) (h : s.turn < s.workers.length) :
    setReg (s.setMe u) r x = s.setMe { u with v := u.v.set r x } := by
  unfold setReg
  rw [me_setMe s u h]
  simp [State.setMe, State.setWorker]

theorem advance_setMe (s : State) (u : Worker) (h : s.turn < s.workers.length) :
    advance (s.setMe u) = s.setMe u.advance := by
  unfold advance
  rw [me_setMe s u h]
  simp [State.setMe, State.setWorker]

theorem setMe_me (s : State) (h : s.turn < s.workers.length) : s.setMe s.me = s := by
  have : s.workers.set s.turn s.me = s.workers := by
    rw [State.me, worker_eq_getElem s h, List.set_getElem_self]
  show { s with workers := s.workers.set s.turn s.me } = s
  rw [this]

/-- One of the shapes an instruction's next state has. -/
inductive Shape (i : Instr) (s t : State) : Prop where
  /-- A fault of the executing instruction is recorded. -/
  | fault (c : FaultCode) (hc : c = .regRange ∨ c = .loopNest ∨ c = .loopBounds) (ht : t = raiseFault c s)
  /-- END. -/
  | ended (hi : i = .endInv) (ht : t = endInvocation s)
  /-- LOOP starts its loop. -/
  | looped (count len : BitVec 8) (hi : i = .loop count len) (hn : s.me.lactive = false)
      (hb : loopOutOfBounds s count len = false) (ht : t = advance (setLoop s count len))
  /-- Registers are written. -/
  | written (v : Vector Lanes 32) (hi : i ≠ .endInv) (hv : LanesFrom s v) (ht : t = s.setMe { s.me with v := v }.advance)
  /-- STQ writes its bytes. -/
  | stored (ra : VReg) (ch : Channel) (hi : i = .stq ra ch) (hw : ∀ p ∈ stqWrites s ra ch, p.1 < s.params.fbCapacity)
      (ht : t = advance (fbPutAll s (stqWrites s ra ch)))

theorem shape_of_setReg {i : Instr} {s : State} (h : s.turn < s.workers.length) (hi : i ≠ .endInv) (r : VReg) {x : Lanes}
    (hx : x.length = s.params.laneWidth ∨ ∃ q : VReg, x = s.me.v[q]) : Shape i s (advance (setReg s r x)) :=
  .written (s.me.v.set r x) hi ((lanesFrom_me s).set r hx) (advance_setMe s _ h)

/-- What an instruction can do. -/
theorem exec_cases {i : Instr} {s t : State} (h : s.turn < s.workers.length) (he : exec i s = .next t) : Shape i s t := by
  have hlane : ∀ f : Nat → Word, (perLane s f).length = s.params.laneWidth ∨ ∃ q : VReg, perLane s f = s.me.v[q] :=
    fun f => .inl (length_perLane s f)
  have hreg : ∀ q : VReg, (reg s q).length = s.params.laneWidth ∨ ∃ p : VReg, reg s q = s.me.v[p] :=
    fun q => .inr ⟨q, rfl⟩
  have next_inj : ∀ {a b : State}, (Host.Outcome.next a : Host.Outcome State Fault Refusal) = .next b → b = a :=
    fun e => by injection e with e; exact e.symm
  cases i with
  | nop =>
    refine next_inj he ▸ .written s.me.v (by simp) (lanesFrom_me s) ?_
    rfl
  | endInv => exact .ended rfl (next_inj he)
  | loop count len =>
    simp only [exec, execLoop] at he
    split_ifs at he with h1 h2
    · exact .fault _ (.inr (.inl rfl)) (next_inj he)
    · exact .fault _ (.inr (.inr rfl)) (next_inj he)
    · exact .looped count len rfl (by simpa using h1) (by simpa using h2) (next_inj he)
  | rds rd sel => exact next_inj he ▸ shape_of_setReg h (by simp) rd (hlane _)
  | fmov rd ra => exact next_inj he ▸ shape_of_setReg h (by simp) rd (hreg _)
  | flih rd imm => exact next_inj he ▸ shape_of_setReg h (by simp) rd (hlane _)
  | flil rd imm => exact next_inj he ▸ shape_of_setReg h (by simp) rd (hlane _)
  | fadd rd ra rb => exact next_inj he ▸ shape_of_setReg h (by simp) rd (hlane _)
  | fsub rd ra rb => exact next_inj he ▸ shape_of_setReg h (by simp) rd (hlane _)
  | fmul rd ra rb => exact next_inj he ▸ shape_of_setReg h (by simp) rd (hlane _)
  | fdiv rd ra rb => exact next_inj he ▸ shape_of_setReg h (by simp) rd (hlane _)
  | fabs rd ra => exact next_inj he ▸ shape_of_setReg h (by simp) rd (hlane _)
  | fneg rd ra => exact next_inj he ▸ shape_of_setReg h (by simp) rd (hlane _)
  | dot2 rd ra rb =>
    simp only [exec, execDot2] at he
    split_ifs at he
    · exact next_inj he ▸ shape_of_setReg h (by simp) rd (hlane _)
    · exact .fault _ (.inl rfl) (next_inj he)
  | dot4 rd ra rb =>
    simp only [exec, execDot4] at he
    split_ifs at he
    · exact next_inj he ▸ shape_of_setReg h (by simp) rd (hlane _)
    · exact .fault _ (.inl rfl) (next_inj he)
  | fsin rd ra => exact next_inj he ▸ shape_of_setReg h (by simp) rd (hlane _)
  | fcos rd ra => exact next_inj he ▸ shape_of_setReg h (by simp) rd (hlane _)
  | fexp rd ra => exact next_inj he ▸ shape_of_setReg h (by simp) rd (hlane _)
  | ftanh rd ra => exact next_inj he ▸ shape_of_setReg h (by simp) rd (hlane _)
  | swz4 rd ra =>
    simp only [exec, execSwz4] at he
    split_ifs at he
    · refine next_inj he ▸ .written _ (by simp)
        (((((lanesFrom_me s).set rd (hreg ra)).set (groupReg rd 1) (hreg (groupReg ra 1))).set (groupReg rd 2)
          (hreg (groupReg ra 1))).set (groupReg rd 3) (hreg ra)) ?_
      have e : setReg s rd (reg s ra) = s.setMe { s.me with v := s.me.v.set rd (reg s ra) } := rfl
      unfold setSwizzle
      rw [e, setReg_setMe _ _ _ _ h, setReg_setMe _ _ _ _ h, setReg_setMe _ _ _ _ h, advance_setMe _ _ h]
    · exact .fault _ (.inl rfl) (next_inj he)
  | swap2 rd ra =>
    simp only [exec, execSwap2] at he
    split_ifs at he
    · refine next_inj he ▸ .written _ (by simp)
        (((lanesFrom_me s).set rd (hreg (groupReg ra 1))).set (groupReg rd 1) (hreg ra)) ?_
      have e : setReg s rd (reg s (groupReg ra 1)) = s.setMe { s.me with v := s.me.v.set rd (reg s (groupReg ra 1)) } := rfl
      unfold setSwap
      rw [e, setReg_setMe _ _ _ _ h, advance_setMe _ _ h]
    · exact .fault _ (.inl rfl) (next_inj he)
  | stq ra ch =>
    rcases storeLanes_cases (stqWrites s ra ch) s with ⟨p, -, -, hf⟩ | ⟨hw, hn⟩
    · simp [exec, execStq, hf] at he
    · simp only [exec, execStq, hn] at he
      exact .stored ra ch rfl hw (next_inj he)

end Sys2Proof.Machine
end

