-- ==== Sys2Proof/Laws/Rows.lean ====
section
/-! SUPPORT. The rows of a frame: the row sets, finishing a row and a frame, starting an invocation, claiming a row, and ending an
invocation, each said once. -/

namespace Sys2Proof.Machine

/-! ### Row sets -/

@[simp] theorem mem_insertRow (r q : Nat) (rows : List Nat) : q ∈ insertRow r rows ↔ q = r ∨ q ∈ rows := by
  induction rows with
  | nil => simp [insertRow]
  | cons x xs ih =>
    unfold insertRow
    split_ifs with h1 h2
    · simp
    · subst h2
      simp
    · simp [ih, or_left_comm]

theorem insertRow_rising {rows : List Nat} (h : rows.Pairwise (· < ·)) (r : Nat) : (insertRow r rows).Pairwise (· < ·) := by
  induction rows with
  | nil => simp [insertRow]
  | cons x xs ih =>
    obtain ⟨hx, hxs⟩ := List.pairwise_cons.1 h
    unfold insertRow
    split_ifs with h1 h2
    · refine List.pairwise_cons.2 ⟨fun q hq => ?_, h⟩
      rcases List.mem_cons.1 hq with rfl | hq
      · exact h1
      · exact h1.trans (hx q hq)
    · exact h
    · refine List.pairwise_cons.2 ⟨fun q hq => ?_, ih hxs⟩
      rcases (mem_insertRow r q xs).1 hq with rfl | hq
      · omega
      · exact hx q hq

/-- Two rising lists with the same rows are the same list. -/
theorem rising_ext {a b : List Nat} (ha : a.Pairwise (· < ·)) (hb : b.Pairwise (· < ·)) (h : ∀ q, q ∈ a ↔ q ∈ b) : a = b := by
  refine List.Perm.eq_of_pairwise (fun x y _ _ h1 h2 => absurd (lt_trans h1 h2) (lt_irrefl _)) ha hb ?_
  exact (List.perm_ext_iff_of_nodup (ha.imp ne_of_lt) (hb.imp ne_of_lt)).2 h

theorem insertRow_comm {rows : List Nat} (h : rows.Pairwise (· < ·)) (r q : Nat) :
    insertRow r (insertRow q rows) = insertRow q (insertRow r rows) :=
  rising_ext (insertRow_rising (insertRow_rising h q) r) (insertRow_rising (insertRow_rising h r) q)
    fun x => by simp [or_left_comm]

/-- A new row's place in a rising list does not matter up to order. -/
theorem insertRow_perm {rows : List Nat} {r : Nat} (h : r ∉ rows) : (insertRow r rows).Perm (r :: rows) := by
  induction rows with
  | nil => simp [insertRow]
  | cons x xs ih =>
    have h2 : r ∉ xs := fun hm => h (List.mem_cons_of_mem _ hm)
    have h1 : r ≠ x := fun hm => h (hm ▸ List.mem_cons_self)
    unfold insertRow
    split_ifs
    · exact .refl _
    · exact ((ih h2).cons x).trans (List.Perm.swap r x xs)

theorem allRows_rising (s : State) : (allRows s).Pairwise (· < ·) := List.pairwise_lt_range

@[simp] theorem mem_allRows (s : State) (q : Nat) : q ∈ allRows s ↔ q < s.frame.h.toNat := List.mem_range

@[simp] theorem mem_removeRow (r q : Nat) (rows : List Nat) : q ∈ removeRow r rows ↔ q ∈ rows ∧ q ≠ r := by
  simp [removeRow]

theorem removeRow_perm {rows : List Nat} (h : rows.Nodup) {r : Nat} (hr : r ∈ rows) :
    (r :: removeRow r rows).Perm rows := by
  have hf : removeRow r rows = rows.erase r := by
    rw [removeRow, h.erase_eq_filter]
    exact List.filter_congr fun x _ => by by_cases hx : x = r <;> simp [hx]
  rw [hf]
  exact (List.perm_cons_erase hr).symm

/-! ### Workers after the row operations -/

theorem worker_finishRow (s : State) (w r v : Nat) :
    (finishRow s w r).worker v =
      if v = w ∧ w < s.workers.length then { s.worker w with wstate := .idle } else s.worker v :=
  worker_setWorker s w v _

theorem worker_takeRow (s : State) (w r v : Nat) :
    (takeRow s w r).worker v =
      if v = w ∧ w < s.workers.length then { s.worker w with wstate := .active } else s.worker v :=
  worker_setWorker s w v _

theorem worker_startInvocation (s : State) (w g r v : Nat) :
    (startInvocation s w g r).worker v =
      if v = w ∧ w < s.workers.length then
        { s.worker w with
          x0 := g * s.params.laneWidth, row := r, v := Vector.replicate 32 (zeroLanes s.params.laneWidth)
          lactive := false, liter := 0, pc := s.frame.kentry.toNat }
      else s.worker v :=
  worker_setWorker s w v _

/-- Completing a row either completes the frame or leaves it running. -/
theorem completeRow_cases (s : State) (w r : Nat) :
    (insertRow r s.doneRows = allRows s ∧ completeRow s w r = completeFrame (finishRow s w r)) ∨
      (insertRow r s.doneRows ≠ allRows s ∧ completeRow s w r = finishRow s w r) := by
  unfold completeRow
  by_cases h : (finishRow s w r).doneRows = allRows s
  · exact .inl ⟨h, if_pos h⟩
  · exact .inr ⟨h, if_neg h⟩

/-- Completing a row changes the workers and DONE_ROWS, and with the last row FSTATE, DONE and FRAMES. -/
theorem completeRow_eq (s : State) (w r : Nat) :
    completeRow s w r =
      { s with
        workers := s.workers.set w { s.worker w with wstate := .idle }, doneRows := insertRow r s.doneRows
        fstate := if insertRow r s.doneRows = allRows s then .idle else s.fstate
        done := if insertRow r s.doneRows = allRows s then true else s.done
        frames := if insertRow r s.doneRows = allRows s then s.frames + 1 else s.frames } := by
  rcases completeRow_cases s w r with ⟨h, e⟩ | ⟨h, e⟩
  · rw [e, if_pos h, if_pos h, if_pos h]
    rfl
  · rw [e, if_neg h, if_neg h, if_neg h]
    rfl

theorem worker_completeRow (s : State) (w r v : Nat) :
    (completeRow s w r).worker v =
      if v = w ∧ w < s.workers.length then { s.worker w with wstate := .idle } else s.worker v := by
  rw [← worker_finishRow s w r v]
  rcases completeRow_cases s w r with ⟨-, e⟩ | ⟨-, e⟩
  · rw [e]
    rfl
  · rw [e]

/-- The end of an invocation starts the next group of the row, or completes the row. -/
theorem endInvocation_cases (s : State) :
    (groupIndex s + 1 < s.frame.g ∧ endInvocation s = startInvocation s s.turn (groupIndex s + 1) s.me.row) ∨
      (s.frame.g ≤ groupIndex s + 1 ∧ endInvocation s = completeRow s s.turn s.me.row) := by
  unfold endInvocation
  by_cases h : groupIndex s + 1 < s.frame.g
  · exact .inl ⟨h, if_pos h⟩
  · exact .inr ⟨by omega, if_neg h⟩

/-- A claim completes its row at once where the frame has no lane group, and else starts the invocation of group 0. -/
theorem claimRow_cases (s : State) (w r : Nat) :
    (s.frame.g = 0 ∧ claimRow s w r = completeRow (takeRow s w r) w r) ∨
      (s.frame.g ≠ 0 ∧ claimRow s w r = startInvocation (takeRow s w r) w 0 r) := by
  unfold claimRow
  by_cases h : s.frame.g = 0
  · exact .inl ⟨h, if_pos h⟩
  · exact .inr ⟨h, if_neg h⟩

/-! ### START -/

/-- What START's checks say where they pass. -/
theorem validate_none {s : State} (h : validate s = none) :
    (1 ≤ s.width.toNat ∧ s.width.toNat ≤ s.params.maxDim) ∧ (1 ≤ s.height.toNat ∧ s.height.toNat ≤ s.params.maxDim) ∧
      s.width.toNat * s.height.toNat * 3 ≤ s.params.fbCapacity ∧ s.kentry.toNat < s.params.progDepth := by
  unfold validate at h
  split_ifs at h with h1 h2 h3
  simp only [badDim, Bool.or_eq_true, beq_iff_eq, decide_eq_true_eq, not_or] at h1
  omega

/-- A refused START gives one of the configuration faults. -/
theorem validate_some {s : State} {c : FaultCode} (h : validate s = some c) :
    c = .cfgDim ∨ c = .cfgFb ∨ c = .cfgEntry := by
  unfold validate at h
  split_ifs at h <;> simp_all

/-- What a start request can do. -/
theorem startRequest_cases (s : State) :
    (s.fstate = .running ∧ startRequest s = s) ∨
      (∃ c, s.fstate = .idle ∧ validate s = some c ∧ startRequest s = configFault c (clearErr (clearDone s))) ∨
      (s.fstate = .idle ∧ validate s = none ∧ startRequest s = beginFrame (clearErr (clearDone s))) := by
  have hv : validate (clearErr (clearDone s)) = validate s := rfl
  unfold startRequest
  cases hf : s.fstate with
  | running => exact .inl ⟨rfl, by simp⟩
  | idle =>
    rw [hv]
    cases hc : validate s with
    | none => exact .inr (.inr ⟨rfl, rfl, by simp⟩)
    | some c => exact .inr (.inl ⟨c, rfl, rfl, by simp⟩)

end Sys2Proof.Machine
end

