-- ==== Sys2Proof/Laws/Host.lean ====
section
/-! SUPPORT. What a host access can do, said once: a handful of shapes, and the answer in `resp`. -/

namespace Sys2Proof.Machine

/-- What a host access makes of the state before its answer is noted. -/
inductive HostShape (s m : State) : Prop where
  /-- A read, an ignored write or a bus error. -/
  | same (h : m = s)
  /-- A write to CTRL with START. -/
  | start (h : m = startRequest s)
  /-- A write to STATUS: DONE and ERR are cleared or kept. -/
  | status (v : Word) (h : m = writeStatus s v)
  /-- A write to IRQEN. -/
  | irqen (d e : Bool) (h : m = { s with doneIE := d, errIE := e })
  /-- A write to WIDTH, HEIGHT, TIME, QMODE or KENTRY while IDLE. -/
  | config (hi : s.fstate = .idle) (w h : BitVec 16) (t : Word) (q : Bool) (k : BitVec 16)
      (hm : m = { s with width := w, height := h, time := t, qmode := q, kentry := k })
  /-- A write to PROG while IDLE. -/
  | program (hi : s.fstate = .idle) (k : Nat) (hk : k < s.params.progDepth) (v : Word) (h : m = setProg s k v)
  /-- A write of framebuffer bytes. -/
  | bytes (ws : List (Nat × Byte)) (hw : ∀ p ∈ ws, p.1 < s.params.fbCapacity) (h : m = fbPutAll s ws)

theorem whenIdle_cases (s t : State) :
    (s.fstate = .idle ∧ whenIdle s t = t) ∨ (s.fstate = .running ∧ whenIdle s t = s) := by
  unfold whenIdle
  cases h : s.fstate <;> simp

theorem csrPut_shape (s : State) (r : Csr) (v : Word) (hr : ∀ k, r = .prog k → k < s.params.progDepth) :
    HostShape s (csrPut s r v) := by
  have hidle : ∀ t, (s.fstate = .idle → HostShape s t) → HostShape s (whenIdle s t) := by
    intro t ht
    rcases whenIdle_cases s t with ⟨hf, e⟩ | ⟨-, e⟩
    · rw [e]
      exact ht hf
    · exact .same e
  cases r with
  | ctrl =>
    by_cases hv : v.getLsbD 0 = true
    · exact .start (if_pos hv)
    · exact .same (if_neg hv)
  | status => exact .status v rfl
  | irqen => exact .irqen _ _ rfl
  | width => exact hidle _ fun hf => .config hf _ _ _ _ _ rfl
  | height => exact hidle _ fun hf => .config hf _ _ _ _ _ rfl
  | time => exact hidle _ fun hf => .config hf _ _ _ _ _ rfl
  | qmode => exact hidle _ fun hf => .config hf _ _ _ _ _ rfl
  | kentry => exact hidle _ fun hf => .config hf _ _ _ _ _ rfl
  | prog k => exact hidle _ fun hf => .program hf k (hr k rfl) v rfl
  | id => exact .same rfl
  | lanes => exact .same rfl
  | workers => exact .same rfl
  | progDepth => exact .same rfl
  | lutSize => exact .same rfl
  | fbCap => exact .same rfl
  | maxDim => exact .same rfl
  | errLoc => exact .same rfl
  | errPc => exact .same rfl
  | errInstr => exact .same rfl
  | frames => exact .same rfl

theorem csrNamed_ne_prog (off k : Nat) : csrNamed off ≠ some (.prog k) := by
  unfold csrNamed
  split <;> simp

theorem csrAt_prog {s : State} {off k : Nat} (h : csrAt s off = some (.prog k)) : k < s.params.progDepth := by
  unfold csrAt at h
  split_ifs at h with hk
  · simp only [Option.some.injEq, Csr.prog.injEq] at h
    omega
  · exact absurd h (csrNamed_ne_prog off k)

theorem csrStore_shape (s : State) (off : Nat) (v : Word) : HostShape s (csrStore s off v) := by
  unfold csrStore
  cases h : csrAt s off with
  | none => exact .same rfl
  | some r => exact csrPut_shape s r v fun k e => csrAt_prog (e ▸ h)

/-- What a host access can do. -/
theorem hostStep_cases (op : HostOp) (s : State) : ∃ m r, HostShape s m ∧ hostStep op s = { m with resp := r } := by
  cases op with
  | csrRead off n => exact ⟨s, _, .same rfl, rfl⟩
  | csrWrite off n v =>
    by_cases h : csrLegal off n = true
    · exact ⟨_, _, csrStore_shape s off v, if_pos h⟩
    · exact ⟨s, _, .same rfl, if_neg h⟩
  | fbRead off n => exact ⟨s, _, .same rfl, rfl⟩
  | fbWrite off n v =>
    by_cases h : fbLegal s off n = true
    · refine ⟨_, _, .bytes ((List.range n).map fun i => (off + i, v.extractLsb' (8 * i) 8)) ?_ rfl, if_pos h⟩
      intro p hp
      obtain ⟨i, hi, rfl⟩ := List.mem_map.1 hp
      have hi := List.mem_range.1 hi
      simp only [fbLegal, Bool.and_eq_true, decide_eq_true_eq] at h
      show off + i < s.params.fbCapacity
      omega
    · exact ⟨s, _, .same rfl, if_neg h⟩

/-- A write to STATUS clears DONE and ERR, with ERR_CODE, where the written bits say so. -/
theorem writeStatus_eq (s : State) (v : Word) :
    writeStatus s v =
      { s with
        done := s.done && !v.getLsbD 1, err := s.err && !v.getLsbD 2
        errCode := if v.getLsbD 2 then 0 else s.errCode } := by
  unfold writeStatus clearDone clearErr
  cases v.getLsbD 1 <;> cases v.getLsbD 2 <;> simp

end Sys2Proof.Machine
end

