-- ==== Sys2Proof/Laws/PerInstr.lean ====
section
/-! SUPPORT. The per-instruction family OpcodeAndReservedBits: the word of an instruction carries the opcode of its row of the opcode
map, and every bit its format reserves is clear (spec/30_encoding.md R72, R77, R79). -/

namespace Sys2Proof.Laws

/-- The word of `i` carries the opcode of its row, and no bit that its format reserves. -/
def OpcodeAndReservedBits.Statement (i : Instr) : Prop :=
  opOf (fieldOp (encode i)).toNat = some i.op ∧ encode i &&& i.op.format.reservedMask = 0

namespace OpcodeAndReservedBits

/-- The family's statement from the two laws of the instruction's format. -/
theorem of_format (i : Instr) (op : BitVec 6) (hop : fieldOp (encode i) = op) (hrow : opOf op.toNat = some i.op)
    (hres : encode i &&& i.op.format.reservedMask = 0) : Statement i :=
  ⟨hop ▸ hrow, hres⟩

theorem nop : Statement .nop :=
  of_format _ 0x01 (wordN_op _) rfl (wordN_reserved _)

theorem endInv : Statement .endInv :=
  of_format _ 0x02 (wordN_op _) rfl (wordN_reserved _)

theorem loop (count len : BitVec 8) : Statement (.loop count len) :=
  of_format _ 0x03 (wordLP_op _ _ _) rfl (wordLP_reserved _ _ _)

theorem rds (rd : VReg) (sel : Sel) : Statement (.rds rd sel) :=
  of_format _ 0x04 (wordSP_op _ _ _) rfl (wordSP_reserved _ _ _)

theorem fmov (rd ra : VReg) : Statement (.fmov rd ra) :=
  of_format _ 0x05 (wordR2_op _ _ _) rfl (wordR2_reserved _ _ _)

theorem flih (rd : VReg) (imm : BitVec 16) : Statement (.flih rd imm) :=
  of_format _ 0x06 (wordI16_op _ _ _) rfl (wordI16_reserved _ _ _)

theorem flil (rd : VReg) (imm : BitVec 16) : Statement (.flil rd imm) :=
  of_format _ 0x07 (wordI16_op _ _ _) rfl (wordI16_reserved _ _ _)

theorem fadd (rd ra rb : VReg) : Statement (.fadd rd ra rb) :=
  of_format _ 0x08 (wordR3_op _ _ _ _) rfl (wordR3_reserved _ _ _ _)

theorem fsub (rd ra rb : VReg) : Statement (.fsub rd ra rb) :=
  of_format _ 0x09 (wordR3_op _ _ _ _) rfl (wordR3_reserved _ _ _ _)

theorem fmul (rd ra rb : VReg) : Statement (.fmul rd ra rb) :=
  of_format _ 0x0A (wordR3_op _ _ _ _) rfl (wordR3_reserved _ _ _ _)

theorem fdiv (rd ra rb : VReg) : Statement (.fdiv rd ra rb) :=
  of_format _ 0x0B (wordR3_op _ _ _ _) rfl (wordR3_reserved _ _ _ _)

theorem fabs (rd ra : VReg) : Statement (.fabs rd ra) :=
  of_format _ 0x0C (wordR2_op _ _ _) rfl (wordR2_reserved _ _ _)

theorem fneg (rd ra : VReg) : Statement (.fneg rd ra) :=
  of_format _ 0x0D (wordR2_op _ _ _) rfl (wordR2_reserved _ _ _)

theorem dot2 (rd ra rb : VReg) : Statement (.dot2 rd ra rb) :=
  of_format _ 0x0E (wordR3_op _ _ _ _) rfl (wordR3_reserved _ _ _ _)

theorem dot4 (rd ra rb : VReg) : Statement (.dot4 rd ra rb) :=
  of_format _ 0x0F (wordR3_op _ _ _ _) rfl (wordR3_reserved _ _ _ _)

theorem fsin (rd ra : VReg) : Statement (.fsin rd ra) :=
  of_format _ 0x10 (wordR2_op _ _ _) rfl (wordR2_reserved _ _ _)

theorem fcos (rd ra : VReg) : Statement (.fcos rd ra) :=
  of_format _ 0x11 (wordR2_op _ _ _) rfl (wordR2_reserved _ _ _)

theorem fexp (rd ra : VReg) : Statement (.fexp rd ra) :=
  of_format _ 0x12 (wordR2_op _ _ _) rfl (wordR2_reserved _ _ _)

theorem ftanh (rd ra : VReg) : Statement (.ftanh rd ra) :=
  of_format _ 0x13 (wordR2_op _ _ _) rfl (wordR2_reserved _ _ _)

theorem swz4 (rd ra : VReg) : Statement (.swz4 rd ra) :=
  of_format _ 0x14 (wordR2_op _ _ _) rfl (wordR2_reserved _ _ _)

theorem swap2 (rd ra : VReg) : Statement (.swap2 rd ra) :=
  of_format _ 0x15 (wordR2_op _ _ _) rfl (wordR2_reserved _ _ _)

theorem stq (ra : VReg) (ch : Channel) : Statement (.stq ra ch) :=
  of_format _ 0x16 (wordST_op _ _ _) rfl (wordST_reserved _ _ _)

end OpcodeAndReservedBits

end Sys2Proof.Laws
end

