-- ==== Sys2Proof/Laws/Units.lean ====
section
/-! SUPPORT. Patterns as numbers: patterns of sign 0 are ordered as the numbers they denote, and a bound on the number is a bound on
the pattern. -/

set_option Elab.async false

namespace Sys2Proof.Laws

open Sys2Proof.Machine

/-- The magnitude, in units, of the pattern `m` without its sign bit. -/
def patternUnits (m : Nat) : Nat := if m / 2 ^ 23 = 0 then m else (2 ^ 23 + m % 2 ^ 23) * 2 ^ (m / 2 ^ 23 - 1)

theorem magUnits_eq (a : Word) : magUnits a = patternUnits (a.toNat % 2 ^ 31) := by
  have he : (expField a).toNat = a.toNat % 2 ^ 31 / 2 ^ 23 := by rw [expField_eq]; omega
  have hf : (fracField a).toNat = a.toNat % 2 ^ 31 % 2 ^ 23 := by rw [fracField_eq]; omega
  unfold magUnits patternUnits
  rw [hf, he]
  have h0 : expField a = 0 ↔ a.toNat % 2 ^ 31 / 2 ^ 23 = 0 := by
    rw [← he]
    exact ⟨fun h => by rw [h]; rfl, fun h => BitVec.eq_of_toNat_eq (by simpa using h)⟩
  by_cases h : a.toNat % 2 ^ 31 / 2 ^ 23 = 0
  · rw [if_pos (h0.2 h), if_pos h]
    exact Nat.mod_eq_of_lt (by omega)
  · rw [if_neg (mt h0.1 h), if_neg h]

theorem patternUnits_strictMono : StrictMono patternUnits := by
  refine strictMono_nat_of_lt_succ fun m => ?_
  unfold patternUnits
  rcases Nat.lt_or_ge (m % 2 ^ 23 + 1) (2 ^ 23) with h | h
  · have h1 : (m + 1) / 2 ^ 23 = m / 2 ^ 23 := by omega
    have h2 : (m + 1) % 2 ^ 23 = m % 2 ^ 23 + 1 := by omega
    rw [h1, h2]
    split
    · omega
    · exact Nat.mul_lt_mul_of_pos_right (by omega) (by positivity)
  · have h1 : (m + 1) / 2 ^ 23 = m / 2 ^ 23 + 1 := by omega
    have h2 : (m + 1) % 2 ^ 23 = 0 := by omega
    rw [h1, h2, if_neg (Nat.succ_ne_zero _), Nat.add_sub_cancel, Nat.add_zero]
    rcases Nat.eq_zero_or_pos (m / 2 ^ 23) with h0 | h0
    · rw [if_pos h0, h0, pow_zero, Nat.mul_one]
      omega
    · rw [if_neg h0.ne']
      calc (2 ^ 23 + m % 2 ^ 23) * 2 ^ (m / 2 ^ 23 - 1)
          < 2 ^ 23 * 2 * 2 ^ (m / 2 ^ 23 - 1) := Nat.mul_lt_mul_of_pos_right (by omega) (by positivity)
        _ = 2 ^ 23 * 2 ^ (m / 2 ^ 23 - 1 + 1) := by ring
        _ = 2 ^ 23 * 2 ^ (m / 2 ^ 23) := by rw [Nat.sub_add_cancel h0]

/-- The order of magnitudes is the order of the patterns without their sign bits. -/
theorem magUnits_le_iff (a b : Word) : magUnits a ≤ magUnits b ↔ a.toNat % 2 ^ 31 ≤ b.toNat % 2 ^ 31 := by
  rw [magUnits_eq, magUnits_eq, patternUnits_strictMono.le_iff_le]

/-- Patterns with sign 0 are ordered as the numbers they denote. -/
theorem val32_le_iff {a b : Word} (ha : sign a = false) (hb : sign b = false) : val32 a ≤ val32 b ↔ a.toNat ≤ b.toNat := by
  have h1 : a.toNat < 2 ^ 31 := by simpa [sign_eq] using ha
  have h2 : b.toNat < 2 ^ 31 := by simpa [sign_eq] using hb
  rw [val32, val32, div_le_div_iff_of_pos_right (by positivity), units, units, if_neg (by simp [ha]), if_neg (by simp [hb])]
  have h := magUnits_le_iff a b
  rw [Nat.mod_eq_of_lt h1, Nat.mod_eq_of_lt h2] at h
  rw [← h]
  norm_cast

theorem val32_abs (a : Word) : |val32 a| = magUnits a / 2 ^ 149 := by
  rw [val32, abs_div, abs_of_pos (show (0 : ℚ) < 2 ^ 149 by positivity), units]
  split <;> simp

/-- |val| ≤ 1 in bits. -/
theorem val32_abs_le_one_iff (a : Word) : |val32 a| ≤ 1 ↔ a.toNat % 2 ^ 31 ≤ 0x3F800000 := by
  have h := magUnits_le_iff a one32
  rw [show one32.toNat % 2 ^ 31 = 0x3F800000 by decide, show magUnits one32 = 2 ^ 149 by decide +kernel] at h
  rw [val32_abs, div_le_one (by positivity), ← h]
  norm_cast

theorem special_iff (x : Word) : (isNaN x || isInf x) = !isFinite x := by
  unfold isNaN isInf isFinite
  rw [bne, bne]
  cases expField x == 255 <;> cases fracField x == 0 <;> rfl

theorem sign_of_pos {w : Word} (h : 0 < val32 w) : sign w = false := by
  rw [← Bool.not_eq_true]
  intro hs
  rw [val32, units, if_pos hs, div_pos_iff_of_pos_right (by positivity)] at h
  norm_cast at h
  omega

theorem pattern_toNat {n : Nat} (h : n < 2 ^ 31) :
    (BitVec.ofNat 32 n).toNat = n ∧ sign (BitVec.ofNat 32 n) = false := by
  have h1 : (BitVec.ofNat 32 n).toNat = n := by
    rw [BitVec.toNat_ofNat]
    omega
  refine ⟨h1, ?_⟩
  rw [sign_eq, h1]
  simpa using h

/-- A number below that of the pattern n + 1 has a pattern of at most n. -/
theorem toNat_le_of_val {w : Word} (hs : sign w = false) {n : Nat} (hn : n + 1 < 2 ^ 31)
    (h : val32 w < val32 (BitVec.ofNat 32 (n + 1))) : w.toNat ≤ n := by
  have h1 := (val32_le_iff (pattern_toNat hn).2 hs).not.1 (not_le.2 h)
  rw [(pattern_toNat hn).1] at h1
  omega

/-- A number above that of the pattern n has a pattern above n. -/
theorem lt_toNat_of_val {w : Word} (hs : sign w = false) {n : Nat} (hn : n < 2 ^ 31)
    (h : val32 (BitVec.ofNat 32 n) < val32 w) : n < w.toNat := by
  have h1 := (val32_le_iff hs (pattern_toNat hn).2).not.1 (not_le.2 h)
  rw [(pattern_toNat hn).1] at h1
  omega

theorem limitUnit_of_abs_le_one {y : Word} (h : |val32 y| ≤ 1) : limitUnit y = y := by
  have h1 := (val32_abs_le_one_iff y).1 h
  rw [limitUnit, if_pos]
  rwa [BitVec.toNat_and, show BitVec.toNat (0x7FFFFFFF : Word) = 2 ^ 31 - 1 by decide, Nat.and_two_pow_sub_one_eq_mod]

/-- A result of the exponential unit inside the limits is the machine's. -/
theorem expA_eq_of_limits {x : Word} (hf : isFinite x = true) (h0 : ¬(x = 0x00000000 ∨ x = 0x80000000))
    (hlo : expLow x ≤ (Config.units.exponential x).toNat) (hhi : (Config.units.exponential x).toNat ≤ expHigh x) :
    expA x = Config.units.exponential x := by
  have hn : ∀ y, isFinite y = false → x ≠ y := fun y hy e => by rw [e, hy] at hf; cases hf
  rw [expA, boundExp, if_neg (fun h => by rw [not_finite (.inl h)] at hf; cases hf), if_neg (hn _ (by decide)),
    if_neg (hn _ (by decide)), if_neg h0, min_eq_left hhi, max_eq_right hlo, BitVec.ofNat_toNat, BitVec.setWidth_eq]

end Sys2Proof.Laws
end

