-- ==== Sys2Proof/Machine/Assembly.lean ====
section
/-! DEFINITION. The assembly language as text: the disassembler and the pseudo-instruction FLI (spec/30_encoding.md R82, R83). -/

namespace Sys2Proof.Machine

/-- `v0` to `v31` (R82). -/
def regText (r : VReg) : String := "v" ++ toString r.val

/-- An operation with a destination and two sources (R82, format R3). -/
def text3 (m : String) (rd ra rb : VReg) : String := m ++ " " ++ regText rd ++ ", " ++ regText ra ++ ", " ++ regText rb

/-- An operation with a destination and one source (R82, format R2). -/
def text2 (m : String) (rd ra : VReg) : String := m ++ " " ++ regText rd ++ ", " ++ regText ra

/-- The selector's name (R82). -/
def Sel.text : Sel → String
  | .laneX => "LANEX"
  | .rowY => "ROWY"
  | .time => "TIME"
  | .widthF => "WIDTHF"
  | .heightF => "HEIGHTF"
  | .iter => "ITER"

/-- The channel's name (R82). -/
def Channel.text : Channel → String
  | .red => "R"
  | .green => "G"
  | .blue => "B"

/-- An instruction in assembly syntax (R82). -/
def instrText : Instr → String
  | .nop => "NOP"
  | .endInv => "END"
  | .loop count len => "LOOP " ++ toString count.toNat ++ ", " ++ toString len.toNat
  | .rds rd sel => "RDS " ++ regText rd ++ ", " ++ Sel.text sel
  | .fmov rd ra => text2 "FMOV" rd ra
  | .flih rd imm => "FLIH " ++ regText rd ++ ", 0x" ++ imm.toHex
  | .flil rd imm => "FLIL " ++ regText rd ++ ", 0x" ++ imm.toHex
  | .fadd rd ra rb => text3 "FADD" rd ra rb
  | .fsub rd ra rb => text3 "FSUB" rd ra rb
  | .fmul rd ra rb => text3 "FMUL" rd ra rb
  | .fdiv rd ra rb => text3 "FDIV" rd ra rb
  | .fabs rd ra => text2 "FABS" rd ra
  | .fneg rd ra => text2 "FNEG" rd ra
  | .dot2 rd ra rb => text3 "DOT2" rd ra rb
  | .dot4 rd ra rb => text3 "DOT4" rd ra rb
  | .fsin rd ra => text2 "FSIN" rd ra
  | .fcos rd ra => text2 "FCOS" rd ra
  | .fexp rd ra => text2 "FEXP" rd ra
  | .ftanh rd ra => text2 "FTANH" rd ra
  | .swz4 rd ra => text2 "SWZ4" rd ra
  | .swap2 rd ra => text2 "SWAP2" rd ra
  | .stq ra ch => "STQ " ++ regText ra ++ ", " ++ Channel.text ch

/-- The disassembler (R82): a word that fails R78 prints as data. -/
def disassemble (w : Word) : String :=
  match decode w with
  | .ok i => instrText i
  | .error _ => ".word 0x" ++ w.toHex

/-- The pseudo-instruction `FLI vd, K` (R83): FLIH, and FLIL only when the low half of K is not zero. -/
def expandFli (rd : VReg) (k : Word) : List Instr :=
  if k.extractLsb' 0 16 ≠ 0 then [.flih rd (k.extractLsb' 16 16), .flil rd (k.extractLsb' 0 16)]
  else [.flih rd (k.extractLsb' 16 16)]

end Sys2Proof.Machine
end

