-- ==== Sys2Proof/Tests/Accuracy.lean ====
section
/-! SUPPORT. The examples of spec/41_transcendental.md R140 and R142, which the contract of the machine's units gives. -/

set_option Elab.async false

namespace Sys2Proof.Tests

open Sys2Proof.Machine Sys2Proof.Laws

/-- R142: 1.0 gives a value within 2.7183e-6 of e. -/
theorem test_fexp_of_one : |((val32 (expA 0x3F800000) : ℚ) : ℝ) - Real.exp 1| ≤ 2.7183 / 10 ^ 6 := by
  have hv : ((val32 0x3F800000 : ℚ) : ℝ) = 1 := by
    rw [show (0x3F800000 : Word) = one32 from rfl, val32_one]
    norm_num
  have hlo := Real.exp_one_gt_d9
  have hhi := Real.exp_one_lt_d9
  obtain ⟨-, -, hexp⟩ := Config.units.contract
  obtain ⟨-, -, -, -, hsign, hmid, -⟩ := hexp
  obtain ⟨-, hs⟩ := hsign 0x3F800000 (by decide)
  obtain ⟨-, h⟩ := hmid 0x3F800000 (by decide)
    (by rw [hv]; exact le_trans (by norm_num) hlo.le) (by rw [hv]; exact hhi.le.trans (by norm_num))
  rw [hv] at h
  have h' := abs_le.1 h
  generalize hw : Config.units.exponential 0x3F800000 = w at *
  norm_num [transTol] at h h'
  have h2 : (2 : ℚ) < val32 w := by
    rw [← Rat.cast_lt (K := ℝ)]
    norm_num
    linarith [h'.1]
  have h4 : val32 w < (4 : ℚ) := by
    rw [← Rat.cast_lt (K := ℝ)]
    norm_num
    linarith [h'.2]
  have hl : 0x40000000 < w.toNat := lt_toNat_of_val hs (by norm_num) (by
    rwa [val32, show units (BitVec.ofNat 32 0x40000000) = 2 * 2 ^ 149 by decide +kernel,
      show (((2 * 2 ^ 149 : ℤ) : ℚ) / 2 ^ 149) = 2 by norm_num])
  have hu : w.toNat ≤ 0x407FFFFF := toNat_le_of_val hs (by norm_num) (by
    show val32 w < val32 (BitVec.ofNat 32 0x40800000)
    rwa [val32.eq_1 (BitVec.ofNat 32 0x40800000), show units (BitVec.ofNat 32 0x40800000) = 4 * 2 ^ 149 by decide +kernel,
      show (((4 * 2 ^ 149 : ℤ) : ℚ) / 2 ^ 149) = 4 by norm_num])
  have he : expA 0x3F800000 = w := by
    rw [expA_eq_of_limits (by decide) (by decide), hw] <;> rw [hw]
    · rw [show expLow 0x3F800000 = 0x3F7FFFF0 by decide]
      omega
    · rw [show expHigh 0x3F800000 = 0x7F000008 by decide]
      omega
  rw [he]
  refine h.trans ?_
  norm_num
  linarith

/-- R140: 0x3FC90FDB, the pattern nearest to pi / 2, gives a value of [1 - 1e-6, 1]. -/
theorem test_fsin_of_half_pi : 1 - 1 / 10 ^ 6 ≤ val32 (sinA 0x3FC90FDB) ∧ val32 (sinA 0x3FC90FDB) ≤ 1 := by
  have hx : val32 0x3FC90FDB = 13176795 / 2 ^ 23 := by
    rw [val32, show units 0x3FC90FDB = 13176795 * 2 ^ 126 by decide +kernel]
    norm_num
  obtain ⟨⟨-, -, hunit, hacc⟩, -, -⟩ := Config.units.contract
  obtain ⟨-, h1⟩ := hunit 0x3FC90FDB (by decide)
  have h := hacc 0x3FC90FDB (by decide) (by rw [hx]; norm_num [trigRange])
  have hs : sinA 0x3FC90FDB = Config.units.sine 0x3FC90FDB := by
    rw [sinA, boundSin, if_neg (by decide), if_neg (by decide), limitUnit_of_abs_le_one h1]
  rw [hs]
  generalize Config.units.sine 0x3FC90FDB = w at *
  refine ⟨?_, (abs_le.1 h1).2⟩
  have hsin : 1 - 1 / 10 ^ 9 ≤ Real.sin ((val32 0x3FC90FDB : ℚ) : ℝ) := by
    rw [← Real.cos_pi_div_two_sub]
    refine le_trans ?_ (Real.one_sub_sq_div_two_le_cos)
    rw [hx]
    have hlo := Real.pi_gt_d6
    have hhi := Real.pi_lt_d6
    push_cast
    have h3 : |Real.pi / 2 - 13176795 / 2 ^ 23| ≤ 1 / 10 ^ 5 := by
      rw [abs_le]
      constructor <;> norm_num at hlo hhi ⊢ <;> linarith
    have h4 := sq_le_sq' (abs_le.1 h3).1 (abs_le.1 h3).2
    norm_num at h4 ⊢
    linarith
  have h' := (abs_le.1 h).1
  have hgt : (1 - 17 / 2 ^ 24 : ℚ) < val32 w := by
    rw [← Rat.cast_lt (K := ℝ)]
    push_cast
    norm_num [transTol] at h' hsin ⊢
    linarith
  have hsw : sign w = false := sign_of_pos (lt_trans (by norm_num) hgt)
  have hn : 0x3F7FFFEF < w.toNat := lt_toNat_of_val hsw (by norm_num) (by
    rwa [val32, show units (BitVec.ofNat 32 0x3F7FFFEF) = (2 ^ 24 - 17) * 2 ^ 125 by decide +kernel,
      show (((2 ^ 24 - 17) * 2 ^ 125 : ℤ) : ℚ) / 2 ^ 149 = 1 - 17 / 2 ^ 24 by norm_num])
  have h5 : val32 (BitVec.ofNat 32 0x3F7FFFF0) ≤ val32 w :=
    (val32_le_iff (pattern_toNat (by norm_num)).2 hsw).2 (by rw [(pattern_toNat (by norm_num)).1]; omega)
  rw [val32, show units (BitVec.ofNat 32 0x3F7FFFF0) = (2 ^ 24 - 16) * 2 ^ 125 by decide +kernel] at h5
  refine le_trans ?_ h5
  norm_num

end Sys2Proof.Tests
end

