-- ==== Sys2Proof/Tests/Slice0.lean ====
section
/-! SUPPORT. The model's own tests. Expected values come from spec/95_test_vectors.md and the examples of the rules named beside them,
never from the model. -/

set_option Elab.async false

namespace Sys2Proof.Tests

open Sys2Proof.Machine

/-! ### Ill-formed terms are refused, at the edge of each check (spec/30_encoding.md R75, R78 check 3) -/

theorem test_dot2_pairs_checked :
    (Instr.dot2 0 31 0).wellFormed = false ∧ (Instr.dot2 0 0 31).wellFormed = false ∧
      (Instr.dot2 31 30 30).wellFormed = true := by decide

theorem test_dot4_quads_checked :
    (Instr.dot4 0 29 0).wellFormed = false ∧ (Instr.dot4 0 0 29).wellFormed = false ∧
      (Instr.dot4 31 28 28).wellFormed = true := by decide

theorem test_swz4_groups_checked :
    (Instr.swz4 29 0).wellFormed = false ∧ (Instr.swz4 0 31).wellFormed = false ∧
      (Instr.swz4 28 30).wellFormed = true := by decide

theorem test_swap2_pairs_checked :
    (Instr.swap2 31 0).wellFormed = false ∧ (Instr.swap2 0 31).wellFormed = false ∧
      (Instr.swap2 30 30).wellFormed = true := by decide

/-! ### Decoding: every constructor, from a word written out field by field (R72, R77) -/

theorem test_decode_nop : decode 0b000001_00000000000000000000000000#32 = .ok .nop := by decide

theorem test_decode_end : decode 0b000010_00000000000000000000000000#32 = .ok .endInv := by decide

theorem test_decode_loop : decode 0b000011_0000000000_00001000_00011110#32 = .ok (.loop 8 30) := by decide

theorem test_decode_rds : decode 0b000100_11000_00000000000000000_0010#32 = .ok (.rds 24 .time) := by decide

theorem test_decode_fmov : decode 0b000101_00001_00000_0000000000000000#32 = .ok (.fmov 1 0) := by decide

theorem test_decode_flih : decode 0b000110_00111_00000_0011111100110011#32 = .ok (.flih 7 0x3F33) := by decide

theorem test_decode_flil : decode 0b000111_00111_00000_0011001100110011#32 = .ok (.flil 7 0x3333) := by decide

theorem test_decode_fadd : decode 0b001000_00100_00001_00010_00000000000#32 = .ok (.fadd 4 1 2) := by decide

theorem test_decode_fsub : decode 0b001001_00100_00001_00010_00000000000#32 = .ok (.fsub 4 1 2) := by decide

theorem test_decode_fmul : decode 0b001010_00100_00001_00010_00000000000#32 = .ok (.fmul 4 1 2) := by decide

theorem test_decode_fdiv : decode 0b001011_00100_00001_00010_00000000000#32 = .ok (.fdiv 4 1 2) := by decide

theorem test_decode_fabs : decode 0b001100_00110_00111_0000000000000000#32 = .ok (.fabs 6 7) := by decide

theorem test_decode_fneg : decode 0b001101_00110_00111_0000000000000000#32 = .ok (.fneg 6 7) := by decide

theorem test_decode_dot2 : decode 0b001110_00110_00100_11110_00000000000#32 = .ok (.dot2 6 4 30) := by decide

theorem test_decode_dot4 : decode 0b001111_01000_00100_11100_00000000000#32 = .ok (.dot4 8 4 28) := by decide

theorem test_decode_fsin : decode 0b010000_10100_01010_0000000000000000#32 = .ok (.fsin 20 10) := by decide

theorem test_decode_fcos : decode 0b010001_10100_01010_0000000000000000#32 = .ok (.fcos 20 10) := by decide

theorem test_decode_fexp : decode 0b010010_10000_10001_0000000000000000#32 = .ok (.fexp 16 17) := by decide

theorem test_decode_ftanh : decode 0b010011_00101_00100_0000000000000000#32 = .ok (.ftanh 5 4) := by decide

theorem test_decode_swz4 : decode 0b010100_01001_01010_0000000000000000#32 = .ok (.swz4 9 10) := by decide

theorem test_decode_swap2 : decode 0b010101_01010_00000_0000000000000000#32 = .ok (.swap2 10 0) := by decide

theorem test_decode_stq : decode 0b010110_00000_10001_00000000000000_01#32 = .ok (.stq 17 .green) := by decide

/-- spec/95_test_vectors.md section 2.7 and the checks' order (R78). -/
theorem test_decode_faults :
    decode 0x00000000 = .error .illegalOpcode ∧ decode 0x5C000000 = .error .illegalOpcode ∧
      decode 0xFC000000 = .error .illegalOpcode ∧ decode 0x04000001 = .error .reservedBits ∧
      decode 0x381F0000 = .error .regRange ∧ decode 0x10000006 = .error .badOperand ∧
      decode 0x58000003 = .error .badOperand := by decide

/-- Every word of P-REF decodes, and the encoder gives it back (spec/46_reference_kernel.md R270). -/
theorem test_refKernel_words :
    (refKernel.all fun w =>
      match decode w with
      | .ok i => encode i == w
      | .error _ => false) = true := by decide +kernel

theorem test_table_word : decodeTableWord 32 0x20841000 = some (.fadd 4 4 2) ∧ decodeTableWord 32 0 = none := by decide

/-- R82, R83. -/
theorem test_assembly :
    disassemble 0x0C00081E = "LOOP 8, 30" ∧ disassemble 0x13000002 = "RDS v24, TIME" ∧
      disassemble 0x58110001 = "STQ v17, G" ∧
      expandFli 8 0x40800000 = [.flih 8 0x4080] ∧ expandFli 7 0x3F333333 = [.flih 7 0x3F33, .flil 7 0x3333] := by
  decide +kernel

/-! ### Binary32 vectors (spec/95_test_vectors.md sections 2.1 to 2.4) -/

/-- A two-operand operation gives the third word of every row. -/
def vectors (f : Word → Word → Word) (rows : List (Word × Word × Word)) : Bool :=
  rows.all fun r => f r.1 r.2.1 == r.2.2

theorem test_add32_vectors : vectors add32
    [(0x3F800000, 0x40000000, 0x40400000), (0x7F800000, 0xFF800000, 0x7FC00000), (0x00000000, 0x80000000, 0x00000000),
     (0x80000000, 0x80000000, 0x80000000), (0xC0600000, 0x40600000, 0x00000000), (0x7F7FFFFF, 0x7F7FFFFF, 0x7F800000),
     (0x00000001, 0x00000001, 0x00000002), (0x3DCCCCCD, 0x3E4CCCCD, 0x3E99999A), (0x3F800000, 0x33800000, 0x3F800000),
     (0x3F800000, 0x33800001, 0x3F800001), (0x7FC00001, 0x3F800000, 0x7FC00000)] = true := by decide +kernel

theorem test_sub32_vectors : vectors sub32
    [(0x7F800000, 0x7F800000, 0x7FC00000), (0x80000000, 0x80000000, 0x00000000), (0x80000000, 0x00000000, 0x80000000),
     (0x3F333333, 0x3F333333, 0x00000000), (0x7F7FFFFF, 0xFF7FFFFF, 0x7F800000),
     (0x3F800000, 0x3F333333, 0x3E99999A)] = true := by decide +kernel

theorem test_mul32_vectors : vectors mul32
    [(0x7F800000, 0x00000000, 0x7FC00000), (0x80000000, 0x40A00000, 0x80000000), (0xFF800000, 0xC0000000, 0x7F800000),
     (0x7F7FFFFF, 0x40000000, 0x7F800000), (0x00800000, 0x3F000000, 0x00400000), (0x00000001, 0x3F000000, 0x00000000),
     (0x00000003, 0x3F000000, 0x00000002), (0x40800000, 0x3F333333, 0x40333333),
     (0x3DCCCCCD, 0x3DCCCCCD, 0x3C23D70B)] = true := by decide +kernel

theorem test_div32_vectors : vectors div32
    [(0x3F800000, 0x00000000, 0x7F800000), (0x3F800000, 0x80000000, 0xFF800000), (0xBF800000, 0x00000000, 0xFF800000),
     (0x00000000, 0x00000000, 0x7FC00000), (0x7F800000, 0x7F800000, 0x7FC00000), (0x40A00000, 0x7F800000, 0x00000000),
     (0xC0A00000, 0x7F800000, 0x80000000), (0x80000000, 0x40400000, 0x80000000), (0x00000001, 0x40000000, 0x00000000),
     (0x3F800000, 0x40400000, 0x3EAAAAAB), (0x40000000, 0x40400000, 0x3F2AAAAB),
     (0x7149F2CA, 0x0DA24260, 0x7F800000)] = true := by decide +kernel

/-- Section 2.2. -/
theorem test_sign_vectors :
    abs32 0xBF000000 = 0x3F000000 ∧ abs32 0xFFC00001 = 0x7FC00001 ∧ neg32 0x00000000 = 0x80000000 ∧
      neg32 0x7FC00000 = 0xFFC00000 := by decide

/-- Section 2.4, the values the contract fixes, whatever the units' raw results are. -/
theorem test_units_fixed_values :
    sinA 0x80000000 = 0x80000000 ∧ sinA 0xFF800000 = 0x7FC00000 ∧ cosA 0x80000000 = 0x3F800000 ∧
      cosA 0xFF800000 = 0x7FC00000 ∧ expA 0x80000000 = 0x3F800000 ∧ expA 0xFF800000 = 0x00000000 ∧
      expA 0x7FC00001 = 0x7FC00000 ∧ tanhOf expA 0x80000000 = 0x00000000 ∧ tanhOf expA 0x7F800000 = 0x7FC00000 ∧
      tanhOf expA 0xFF800000 = 0xBF800000 := by decide +kernel

/-! ### The quantizer (spec/44_quantizer_store.md R204 examples; spec/95_test_vectors.md section 2.8 and program P1) -/

theorem test_qapprox_vectors :
    ([(0x3F000000, 118), (0x3E800000, 63), (0x3DCCCCCD, 26), (0x3F800000, 194), (0x40A00000, 255), (0x7F800000, 255),
      (0xBF800000, 0), (0x7FC00000, 0)] : List (Word × Byte)).all (fun r => qapprox r.1 == r.2) = true := by
  decide +kernel

theorem test_qexact_fixed_values : qexact 0x7FC00000 = 0 ∧ qexact 0x80000000 = 0 ∧ qexact 0x7F800000 = 255 := by
  decide +kernel

/-! ### Instructions: one step each, on a frame of two lane groups in each of two rows with L = 4 -/

/-- A small instance. -/
def small : Params := { laneWidth := 4, numWorkers := 2, progDepth := 80, fbCapacity := 48, maxDim := 65535 }

/-- A frame of 8 columns and 2 rows, approximate mode, entry 0. -/
def frame8x2 : Frame := { w := 8, h := 2, time := 0x3F000000, qmode := true, kentry := 0, g := 2 }

/-- An active worker of row `r`, group start `x0`. -/
def activeAt (r x0 pc : Nat) : Worker := { Worker.atReset 4 with wstate := .active, row := r, x0 := x0, pc := pc }

/-- The frame running with these two workers, the words given in PROG, and worker 0's step as the next event. -/
def running (prog : Store Word) (u0 u1 : Worker) : State :=
  { State.resetWith small [] [.work 0] 0 with
    fstate := .running, frame := frame8x2, prog := prog, workers := [u0, u1] }

/-- A worker with a register loaded. -/
def loaded (u : Worker) (r : VReg) (x : Lanes) : Worker := { u with v := u.v.set r x }

/-- v0 = (1, 2, 3, 4), v1 = (2, 2, 2, 2) on worker 0; its row 1, X0 = 4; worker 1 holds row 0. -/
def two : State :=
  running [(0, 0x04000000)]
    (loaded (loaded (activeAt 1 4 0) 0 [0x3F800000, 0x40000000, 0x40400000, 0x40800000]) 1
      [0x40000000, 0x40000000, 0x40000000, 0x40000000])
    (activeAt 0 0 0)

/-- A property of the next state. -/
def nextSat (o : Host.Outcome State Fault Refusal) (p : State → Bool) : Bool :=
  match o with
  | .next t => p t
  | _ => false

/-- The lanes of a register of the executing worker after an instruction. -/
def lanesAfter (i : Instr) (s : State) (r : VReg) (x : Lanes) : Bool := nextSat (exec i s) fun t => reg t r == x

/-- The code, pc and word an instruction's fault records. -/
def faultAfter (o : Host.Outcome State Fault Refusal) (code : Byte) (pc word : Word) : Bool :=
  nextSat o fun t => t.err && t.errCode == code && t.errPc == pc && t.errInstr == word && t.fstate == .idle

theorem test_nop_advances : nextSat (exec .nop two) (fun t => t.me.pc == 1 && t == advance two) = true := by decide +kernel

theorem test_fadd : lanesAfter (.fadd 0 0 1) two 0 [0x40400000, 0x40800000, 0x40A00000, 0x40C00000] = true := by
  decide +kernel

theorem test_fsub : lanesAfter (.fsub 0 1 0) two 0 [0x3F800000, 0x00000000, 0xBF800000, 0xC0000000] = true := by
  decide +kernel

theorem test_fmul : lanesAfter (.fmul 5 0 1) two 5 [0x40000000, 0x40800000, 0x40C00000, 0x41000000] = true := by
  decide +kernel

theorem test_fdiv : lanesAfter (.fdiv 1 0 1) two 1 [0x3F000000, 0x3F800000, 0x3FC00000, 0x40000000] = true := by
  decide +kernel

theorem test_fneg_then_fabs :
    nextSat (exec (.fneg 0 0) two) (fun t =>
      reg t 0 == [0xBF800000, 0xC0000000, 0xC0400000, 0xC0800000] && lanesAfter (.fabs 3 0) t 3 (reg two 0)) = true := by
  decide +kernel

/-- 1*1 + 2*2 = 5 in lane 0 (R116 with both pairs the same). -/
theorem test_dot2 : lanesAfter (.dot2 7 0 0) two 7 [0x40A00000, 0x41000000, 0x41500000, 0x41A00000] = true := by
  decide +kernel

theorem test_dot2_range_fault : faultAfter (exec (.dot2 0 31 0) two) 0x12 0 0x04000000 = true := by decide +kernel

/-- Worker 0 with v0 to v3 = (1, 2^24, 1, -2^24) and v4 to v7 = 1 (section 2.3: the tree order shows). -/
def quads : State :=
  running []
    (loaded (loaded (loaded (loaded (loaded (loaded (loaded (loaded (activeAt 0 0 0) 0 (zeroLanes 4 |>.map fun _ => 0x3F800000)) 1
      (zeroLanes 4 |>.map fun _ => 0x4B800000)) 2 (zeroLanes 4 |>.map fun _ => 0x3F800000)) 3
      (zeroLanes 4 |>.map fun _ => 0xCB800000)) 4 (zeroLanes 4 |>.map fun _ => 0x3F800000)) 5
      (zeroLanes 4 |>.map fun _ => 0x3F800000)) 6 (zeroLanes 4 |>.map fun _ => 0x3F800000)) 7
      (zeroLanes 4 |>.map fun _ => 0x3F800000))
    (activeAt 1 0 0)

theorem test_dot4_tree_order : lanesAfter (.dot4 0 0 4) quads 0 (List.replicate 4 0x3F800000) = true := by decide +kernel

theorem test_fmov : lanesAfter (.fmov 9 0) two 9 [0x3F800000, 0x40000000, 0x40400000, 0x40800000] = true := by
  decide +kernel

theorem test_flih : lanesAfter (.flih 8 0x4080) two 8 (List.replicate 4 0x40800000) = true := by decide +kernel

/-- Section 2.5. -/
theorem test_flil_keeps_the_upper_half :
    lanesAfter (.flil 0 0xBEEF) two 0 [0x3F80BEEF, 0x4000BEEF, 0x4040BEEF, 0x4080BEEF] = true := by decide +kernel

/-- A quad over its own source pair: (X, Y, Y, X) of the pair as it was (section 2.5, SWZ4 v9, v10). -/
theorem test_swz4_overlap :
    nextSat (exec (.swz4 1 0) two) (fun t =>
      reg t 0 == reg two 0 && reg t 1 == reg two 0 && reg t 2 == reg two 1 && reg t 3 == reg two 1 &&
        reg t 4 == reg two 0) = true := by decide +kernel

/-- Section 2.5, SWAP2 v11, v10. -/
theorem test_swap2_overlap :
    nextSat (exec (.swap2 1 0) two) (fun t =>
      reg t 0 == reg two 0 && reg t 1 == reg two 1 && reg t 2 == reg two 0) = true := by decide +kernel

theorem test_ftanh_of_infinity :
    nextSat (exec (.flih 0 0xFF80) two) (fun t => lanesAfter (.ftanh 1 0) t 1 (List.replicate 4 0xBF800000)) = true := by
  decide +kernel

theorem test_fsin_fcos_fexp_of_zero :
    (lanesAfter (.fsin 9 9) two 9 (zeroLanes 4) && lanesAfter (.fcos 9 9) two 9 (List.replicate 4 0x3F800000) &&
      lanesAfter (.fexp 9 9) two 9 (List.replicate 4 0x3F800000)) = true := by decide +kernel

/-- LANEX of X0 = 4, ROWY of row 1 of 2. -/
theorem test_rds :
    (lanesAfter (.rds 0 .laneX) two 0 [0x40800000, 0x40A00000, 0x40C00000, 0x40E00000] &&
      lanesAfter (.rds 0 .rowY) two 0 (zeroLanes 4) && lanesAfter (.rds 0 .time) two 0 (List.replicate 4 0x3F000000) &&
      lanesAfter (.rds 0 .widthF) two 0 (List.replicate 4 0x41000000) &&
      lanesAfter (.rds 0 .heightF) two 0 (List.replicate 4 0x40000000) &&
      lanesAfter (.rds 0 .iter) two 0 (zeroLanes 4)) = true := by decide +kernel

/-- LOOP 2, 1 at pc 0: the body is pc 1, run 1 of 2. -/
theorem test_loop_starts :
    nextSat (exec (.loop 2 1) two) (fun t =>
      t.me.lactive && t.me.lstart == 1 && t.me.lend == 1 && t.me.lcount == 2 && t.me.liter == 1 && t.me.pc == 1) = true := by
  decide +kernel

/-- LOOP_NEST and LOOP_BOUNDS, the bounds at pc = PROG_DEPTH - 2 as section 2.6 has them. -/
theorem test_loop_faults :
    (nextSat (exec (.loop 2 1) two) (fun t => faultAfter (exec (.loop 1 1) t) 0x14 1 0) &&
      faultAfter (exec (.loop 0 5) two) 0x15 0 0x04000000 && faultAfter (exec (.loop 5 0) two) 0x15 0 0x04000000 &&
      faultAfter (exec (.loop 1 2) (running [] (activeAt 0 0 78) (activeAt 1 0 0))) 0x15 78 0 &&
      nextSat (exec (.loop 1 1) (running [] (activeAt 0 0 78) (activeAt 1 0 0))) fun t => t.me.pc == 79) = true := by
  decide +kernel

/-- The last word of the body goes back while runs are left, and on after the last run. -/
theorem test_loop_back_and_out :
    ((({ activeAt 0 0 5 with lactive := true, lstart := 3, lend := 5, lcount := 2, liter := 1 } : Worker).advance ==
        { activeAt 0 0 3 with lactive := true, lstart := 3, lend := 5, lcount := 2, liter := 2 }) &&
      (({ activeAt 0 0 5 with lactive := true, lstart := 3, lend := 5, lcount := 2, liter := 2 } : Worker).advance ==
        { activeAt 0 0 6 with lactive := false, lstart := 3, lend := 5, lcount := 2, liter := 0 })) = true := by
  decide +kernel

/-- END of group 0 of row 0 starts group 1 with cleared registers; END of group 1 of row 1 completes the row. -/
theorem test_end :
    (nextSat (exec .endInv (running [] (loaded (activeAt 0 0 9) 0 [1, 2, 3, 4]) (activeAt 1 0 0))) (fun t =>
        t.me == activeAt 0 4 0 && t.doneRows == []) &&
      nextSat (exec .endInv two) fun t => t.me.wstate == .idle && t.doneRows == [1] && t.fstate == .running) = true := by
  decide +kernel

/-- END of the last open row completes the frame (spec/45_row_dispatch.md R239). -/
theorem test_end_of_the_frame :
    nextSat (exec .endInv { two with doneRows := [0] }) (fun t =>
      t.fstate == .idle && t.done && !t.err && t.frames == 1 && t.doneRows == [0, 1]) = true := by decide +kernel

/-- The example of R200: X0 = 4, row 1, W = 8, (0.5, 1, 5, -1): bytes 118, 194, 255, 0 at 37, 40, 43, 46. -/
theorem test_stq :
    nextSat (exec (.stq 3 .green)
        (running [] (loaded (activeAt 1 4 0) 3 [0x3F000000, 0x3F800000, 0x40A00000, 0xBF800000]) (activeAt 0 0 0)))
      (fun t => t.fb == [(37, 118), (40, 194), (43, 255), (46, 0)]) = true := by decide +kernel

/-! ### Steps -/

/-- The kernel evaluates the very next step of a fetched word from reset: FLIH on worker 0. -/
theorem test_step_of_withFetchWord :
    nextSat (step (State.reset.withFetchWord 32 0x19004080)) (fun t =>
      reg t 8 == List.replicate 8 0x40800000 && t.me.pc == 1) = true := by decide +kernel

/-- Cleared words fault ILLEGAL_OPCODE with ERRINSTR 0, and pc = PROG_DEPTH faults PC_OVERFLOW (section 2.6). -/
theorem test_step_faults :
    (faultAfter (step (running [] (activeAt 0 0 1) (activeAt 1 0 0))) 0x10 1 0 &&
      faultAfter (step (running [] (activeAt 0 0 80) (activeAt 1 0 0))) 0x16 80 0) = true := by decide +kernel

/-- The state after reset with one host access as the next event. -/
def hosted (op : HostOp) (s : State) : State := { s with agenda := [.host op] }

/-- Section 2.9: ID, PROG[0], PROG[72], an offset without a register, and a 16-bit read. -/
theorem test_host_reads :
    (nextSat (step (hosted (.csrRead 0x000 4) State.reset)) (fun t => t.resp == .readData 0x414E5401) &&
      nextSat (step (hosted (.csrRead 0x1000 4) State.reset)) (fun t => t.resp == .readData 0x10000000) &&
      nextSat (step (hosted (.csrRead 0x1120 4) State.reset)) (fun t => t.resp == .readData 0) &&
      nextSat (step (hosted (.csrRead 0x03C 4) State.reset)) (fun t => t.resp == .readData 0) &&
      nextSat (step (hosted (.csrRead 0x024 2) State.reset)) fun t => t.resp == .readError 0) = true := by decide +kernel

/-- Section 2.9: START refused with CFG_DIM, CFG_FB (3,000,000 > 1,440,000), CFG_ENTRY. -/
theorem test_start_refused :
    (nextSat (step (hosted (.csrWrite 0x020 4 1) State.reset)) (fun t => statusWord t == 0x00000104) &&
      nextSat (step (hosted (.csrWrite 0x020 4 1) { State.reset with width := 1000, height := 1000 }))
        (fun t => statusWord t == 0x00000204) &&
      nextSat (step (hosted (.csrWrite 0x020 4 1) { State.reset with width := 8, height := 1, kentry := 1024 }))
        (fun t => statusWord t == 0x00000304)) = true := by decide +kernel

/-- Section 2.9: S3's frame shape, and a START accepted. -/
theorem test_start_accepted :
    nextSat (step (hosted (.csrWrite 0x020 4 1) { State.reset with width := 800, height := 600 })) (fun t =>
      busy t && t.frame.g == 100 && t.unclaimed.length == 600 && statusWord t == 1) = true := by decide +kernel

/-- Section 2.9: clearing ERR, and the interrupt output that ERR_IE raises. -/
theorem test_status_and_irq :
    (nextSat (step (hosted (.csrWrite 0x024 4 2) { State.reset with err := true, errCode := 1 }))
        (fun t => statusWord t == 0x00000104) &&
      nextSat (step (hosted (.csrWrite 0x024 4 4) { State.reset with err := true, errCode := 1 }))
        (fun t => statusWord t == 0) &&
      nextSat (step (hosted (.csrWrite 0x028 4 2) { State.reset with err := true, errCode := 1 })) irq) = true := by
  decide +kernel

/-- Section 2.9: bytes 0x11 to 0x44 read as 0x44332211, and a misaligned read is a bus error. -/
theorem test_framebuffer_byte_order :
    (nextSat (step (hosted (.fbRead 0 4) { State.reset with fb := [(0, 0x11), (1, 0x22), (2, 0x33), (3, 0x44)] }))
        (fun t => t.resp == .readData 0x44332211) &&
      nextSat (step (hosted (.fbRead 2 4) State.reset)) (fun t => t.resp == .readError 0) &&
      nextSat (step (hosted (.fbWrite 2 2 0x0000AABB) State.reset)) fun t => t.fb == [(2, 0xBB), (3, 0xAA)]) = true := by
  decide +kernel

/-- A claim gives row 0 to worker 1 (spec/45_row_dispatch.md R236). -/
theorem test_claim :
    nextSat (step { running [] (activeAt 1 0 0) (Worker.atReset 4) with agenda := [.claim 1 0], unclaimed := [0] }) (fun t =>
      t.unclaimed == [] && t.worker 1 == activeAt 0 0 0) = true := by decide +kernel

end Sys2Proof.Tests
end

