-- ==== Sys2Proof/Tests/Witnesses.lean ====
section
/-! SUPPORT. For every statement of Certificates/Slice0/Obligations.lean that has hypotheses, concrete states and operands that meet them
together, clause by clause and at the edges of their ranges. The theorem for the statement X is witness_X. -/

set_option Elab.async false

namespace Sys2Proof.Tests

open Sys2Proof.Machine Sys2Proof.Laws

/-- An outcome that satisfies a property of its next state is a next state. -/
theorem exists_next {o : Host.Outcome State Fault Refusal} {p : State → Bool} (h : nextSat o p = true) :
    ∃ t, o = .next t ∧ p t = true := by
  cases o with
  | next t => exact ⟨t, rfl, h⟩
  | fault r => cases h
  | refused r => cases h

/-! ### Decoding -/

theorem witness_DecodingAnEncodedInstructionGivesItBack : (Instr.dot4 31 28 28).wellFormed = true := by decide

theorem witness_AnAcceptedWordIsTheEncodingOfItsInstruction : decode 0x381EF000 = .ok (.dot2 0 30 30) := by decide

theorem witness_OpcodeMapRowsDecideTheInstruction :
    ((Op.stq, (0x58000000 : Word), (0xFFE0FFFC : Word)) ∈ opcodeRows ∧ (0x58110001 : Word) &&& 0xFFE0FFFC = 0x58000000) ∧
      ∀ row ∈ opcodeRows, (0x5C000000 : Word) &&& row.2.2 ≠ row.2.1 := by decide

theorem witness_ReservedBitSetIsAFault : opOf ((0x04000001 : Word).extractLsb' 26 6).toNat = some .nop := by decide

/-- At the last legal and the first illegal base of each group, selector and channel. -/
theorem witness_OperandChecksNameTheirFault :
    ∀ p ∈ [((0x381EF000 : Word), Op.dot2), (0x381F0000, .dot2), (0x3800F800, .dot2), (0x3C1CE000, .dot4), (0x3C1D0000, .dot4),
        (0x3C00E800, .dot4), (0x539E0000, .swz4), (0x53A00000, .swz4), (0x501F0000, .swz4), (0x57DE0000, .swap2),
        (0x57E00000, .swap2), (0x541F0000, .swap2), (0x10000005, .rds), (0x10000006, .rds), (0x58000002, .stq),
        (0x58000003, .stq)],
      opOf (p.1.extractLsb' 26 6).toNat = some p.2 ∧ p.1 &&& p.2.format.reservedMask = 0 := by decide

/-! ### Arithmetic -/

theorem witness_RoundingIsNearestTiesToEven : 0 < 1 ∧ 0 < 3 := by decide

theorem val32_eq (a : Word) (n : Int) (h : units a = n) : val32 a = n / 2 ^ 149 := by rw [val32, h]

/-- Values of the patterns the arithmetic witnesses use. -/
theorem val32_samples :
    val32 0x3F800000 = 1 ∧ val32 0x40400000 = 3 ∧ val32 0xBF800000 = -1 ∧ val32 0x00000000 = 0 ∧ val32 0x80000000 = 0 := by
  refine ⟨val32_one, ?_, ?_, ?_, ?_⟩
  · rw [val32_eq _ (3 * 2 ^ 149) (by decide +kernel)]; norm_num
  · rw [val32_eq _ (-2 ^ 149) (by decide +kernel)]; norm_num
  · rw [val32_eq _ 0 (by decide +kernel)]; norm_num
  · rw [val32_eq _ 0 (by decide +kernel)]; norm_num

theorem witness_AdditionAndSubtractionFollowIEEE :
    (isNaN 0x7FC00001 = true) ∧ (isInf 0x7F800000 = true ∧ isInf 0xFF800000 = true ∧ sign 0x7F800000 ≠ sign 0xFF800000) ∧
      (isInf 0x7F800000 = true ∧ isNaN 0x3F800000 = false ∧ isFinite 0x3F800000 = true) ∧
      (isFinite 0x40400000 = true ∧ val32 0x3F800000 + val32 0x40400000 ≠ 0 ∧ val32 0x3F800000 - val32 0x40400000 ≠ 0) ∧
      (isFinite 0xBF800000 = true ∧ val32 0x3F800000 + val32 0xBF800000 = 0) ∧
      (isFinite 0x80000000 = true ∧ val32 0x80000000 + val32 0x80000000 = 0) := by
  obtain ⟨h1, h3, hm, -, hz⟩ := val32_samples
  refine ⟨by decide, by decide, by decide, ⟨by decide, ?_, ?_⟩, ⟨by decide, ?_⟩, by decide, ?_⟩
  · rw [h1, h3]; norm_num
  · rw [h1, h3]; norm_num
  · rw [h1, hm]; norm_num
  · rw [hz]; norm_num

theorem witness_MultiplicationFollowsIEEE :
    (isNaN 0x7FC00001 = true) ∧ (isInf 0x7F800000 = true ∧ isFinite 0x80000000 = true ∧ val32 0x80000000 = 0) ∧
      (isInf 0xFF800000 = true ∧ isFinite 0x40400000 = true ∧ val32 0x40400000 ≠ 0) ∧
      (isFinite 0x3F800000 = true ∧ val32 0x3F800000 * val32 0x40400000 ≠ 0) ∧
      val32 0x3F800000 * val32 0x80000000 = 0 := by
  obtain ⟨h1, h3, -, -, hz⟩ := val32_samples
  refine ⟨by decide, ⟨by decide, by decide, hz⟩, ⟨by decide, by decide, ?_⟩, ⟨by decide, ?_⟩, ?_⟩
  · rw [h3]; norm_num
  · rw [h1, h3]; norm_num
  · rw [hz, mul_zero]

theorem witness_DivisionFollowsIEEE :
    (isNaN 0x7FC00001 = true) ∧ (isInf 0x7F800000 = true ∧ isInf 0xFF800000 = true) ∧
      (isFinite 0x00000000 = true ∧ isFinite 0x80000000 = true ∧ val32 0x00000000 = 0 ∧ val32 0x80000000 = 0) ∧
      (isInf 0xFF800000 = true ∧ isFinite 0x3F800000 = true) ∧
      (val32 0x3F800000 ≠ 0 ∧ val32 0x80000000 = 0) ∧
      (isFinite 0x40400000 = true ∧ val32 0x3F800000 / val32 0x40400000 ≠ 0) ∧
      (val32 0x80000000 = 0 ∧ val32 0x40400000 ≠ 0) := by
  obtain ⟨h1, h3, -, h0, hz⟩ := val32_samples
  refine ⟨by decide, by decide, ⟨by decide, by decide, h0, hz⟩, by decide, ⟨?_, hz⟩, ⟨by decide, ?_⟩, hz, ?_⟩
  · rw [h1]; norm_num
  · rw [h1, h3]; norm_num
  · rw [h3]; norm_num

theorem witness_SmallIntegersConvertExactly : (0 : Nat) < 2 ^ 24 ∧ (2 ^ 24 - 1 : Nat) < 2 ^ 24 := by decide

/-- The last pair that fits, a pair that overlaps its swap, and a pair swapped in place. -/
theorem witness_DotProductOfASwappedPairIsTheSame :
    two.turn < two.workers.length ∧
      ∀ p ∈ [((30 : VReg), (30 : VReg)), (30, 29), (0, 30)], p.1.val ≤ 30 ∧ p.2.val ≤ 30 := by decide +kernel

/-! ### Transcendental units and the quantizer -/

/-- TransContract has an instance. -/
theorem witness_AdmissibleUnitsPassUnchanged : TransContract sampleSine sampleCosine sampleExponential := sample_contract

theorem witness_TrigUnitsKeepExactPointsAndRange :
    isNaN 0x7FC00001 = true ∧ isInf 0xFF800000 = true ∧ isFinite 0x7F7FFFFF = true := by decide

/-- The exponential's clauses at their own edges: the patterns next to 127 ln 2, 128 ln 2 and -126 ln 2. -/
theorem witness_ExponentialUnitKeepsItsRange :
    isNaN 0x7FC00001 = true ∧
      (isFinite 0x42B00F33 = true ∧ Real.exp ((val32 0x42B00F33 : ℚ) : ℝ) ≤ 2 ^ 127) ∧
      (isFinite 0x42B17218 = true ∧ 2 ^ 128 ≤ Real.exp ((val32 0x42B17218 : ℚ) : ℝ)) ∧
      (isFinite 0xC2AEAC50 = true ∧ Real.exp ((val32 0xC2AEAC50 : ℚ) : ℝ) < 1 / 2 ^ 126) := by
  have hpow : ∀ n : Nat, (2 : ℝ) ^ n = Real.exp (n * Real.log 2) := fun n => by
    rw [mul_comm, Real.exp_mul, Real.exp_log (by norm_num), Real.rpow_natCast]
  have hlo := Real.log_two_gt_d9
  have hhi := Real.log_two_lt_d9
  refine ⟨by decide, ⟨by decide, ?_⟩, ⟨by decide, ?_⟩, by decide, ?_⟩
  · rw [hpow, Real.exp_le_exp, val32_eq _ (11538227 * 2 ^ 132) (by decide +kernel)]
    push_cast
    linarith
  · rw [hpow, Real.exp_le_exp, val32_eq _ (11629080 * 2 ^ 132) (by decide +kernel)]
    push_cast
    linarith
  · rw [one_div, hpow, ← Real.exp_neg, Real.exp_lt_exp, val32_eq _ (-11447376 * 2 ^ 132) (by decide +kernel)]
    push_cast
    linarith

theorem witness_TableEntriesAreRoundedTanh : (0 : Nat) < 256 ∧ (255 : Nat) < 256 := by decide

theorem witness_TableChecksumEdgesAndOrder : (0 : Nat) < 255 ∧ (254 : Nat) < 255 := by decide

theorem witness_ApproximateStrategyClampsTheDomain :
    isNaN 0x7FC00000 = true ∧ (isNaN 0x80000000 = false ∧ units 0x80000000 ≤ 0) ∧ (isNaN 0xFF800000 = false ∧ units 0xFF800000 ≤ 0) ∧
      (isNaN 0x40A00000 = false ∧ units 0x40A00000 ≤ units 0x40A00000) ∧
      (isNaN 0x7F800000 = false ∧ units 0x40A00000 ≤ units 0x7F800000) := by decide +kernel

theorem witness_ApproximateStrategyIsMonotone :
    isNaN 0xFF800000 = false ∧ isNaN 0x7F800000 = false ∧ units 0xFF800000 ≤ units 0x7F800000 := by decide +kernel

theorem witness_ExactStrategySaturates :
    (isNaN 0x7FC00000 = true ∧ (isNaN 0x80000001 = false ∧ units 0x80000001 ≤ 0) ∧ (isNaN 0x80000000 = false ∧ units 0x80000000 ≤ 0) ∧
      (isNaN 0x42317218 = false ∧ sign 0x42317218 = false ∧ 0x42317218 ≤ (0x42317218 : Word).toNat) ∧
      (isNaN 0x7F800000 = false ∧ sign 0x7F800000 = false ∧ 0x42317218 ≤ (0x7F800000 : Word).toNat) ∧
      (isNaN 0x40A00000 = false ∧ units 0x40A00000 ≤ units 0x40A00000) ∧ units 0x40A00000 ≤ units 0x7F800000 ∧
      (isNaN 0x00000001 = false ∧ 0 < units 0x00000001 ∧ units 0x00000001 < units 0x40A00000) ∧
      (isNaN 0x409FFFFF = false ∧ 0 < units 0x409FFFFF ∧ units 0x409FFFFF < units 0x40A00000)) ∧
      ExpContract sampleExponential :=
  ⟨by decide +kernel, sampleExponential_contract⟩

/-- With e = exp 18, just above 2^25. -/
theorem tanh_of_nine : isFinite (expA (add32 0x41100000 0x41100000)) = true ∧ 2 ^ 25 ≤ val32 (expA (add32 0x41100000 0x41100000)) := by
  rw [show add32 0x41100000 0x41100000 = 0x41900000 by decide +kernel]
  have hv : ((val32 0x41900000 : ℚ) : ℝ) = 18 := by
    rw [val32_eq _ (18 * 2 ^ 149) (by decide +kernel)]
    norm_num
  have hexp : (2 : ℝ) ^ 25 + 2 ^ 20 ≤ Real.exp 18 ∧ Real.exp 18 ≤ 2 ^ 26 := by
    have hlo := Real.exp_one_gt_d9
    have hhi := Real.exp_one_lt_d9
    have h : Real.exp 18 = Real.exp 1 ^ 18 := by rw [← Real.exp_nat_mul]; norm_num
    rw [h]
    exact ⟨le_trans (by norm_num) (pow_le_pow_left₀ (by norm_num) hlo.le 18),
      le_trans (pow_le_pow_left₀ (Real.exp_pos 1).le hhi.le 18) (by norm_num)⟩
  obtain ⟨-, -, -, -, -, -, hsign, hmid, -⟩ := Config.units.contract
  obtain ⟨-, hs⟩ := hsign 0x41900000 (by decide)
  obtain ⟨hf, h⟩ := hmid 0x41900000 (by decide)
    (by rw [hv]; exact le_trans (by norm_num) hexp.1) (by rw [hv]; exact hexp.2.trans (by norm_num))
  rw [hv] at h
  have h' := abs_le.1 h
  have he := expA_eq_of_limits (x := 0x41900000) (by decide) (by decide)
  generalize Config.units.exponential 0x41900000 = w at *
  norm_num [transTol] at h' hexp
  have h2 : (2 ^ 25 : ℚ) < val32 w := by
    rw [← Rat.cast_lt (K := ℝ)]
    norm_num
    linarith [h'.1]
  have h4 : val32 w < (2 ^ 27 : ℚ) := by
    rw [← Rat.cast_lt (K := ℝ)]
    norm_num
    linarith [h'.2]
  have hl : 0x4C000000 < w.toNat := lt_toNat_of_val hs (by norm_num) (by
    rw [val32_eq (BitVec.ofNat 32 0x4C000000) (2 ^ 174) (by decide +kernel)]
    norm_num at h2 ⊢
    exact h2)
  have hu : w.toNat ≤ 0x4CFFFFFF := toNat_le_of_val hs (by norm_num) (by
    rw [val32_eq (BitVec.ofNat 32 (0x4CFFFFFF + 1)) (2 ^ 176) (by decide +kernel)]
    norm_num at h4 ⊢
    exact h4)
  rw [he (by rw [show expLow 0x41900000 = 0x3F7FFFF0 by decide]; omega)
    (by rw [show expHigh 0x41900000 = 0x7F000008 by decide]; omega)]
  exact ⟨hf, h2.le⟩

/-- With e = exp (-18), just below 2^-25. -/
theorem tanh_of_minus_nine :
    isFinite (expA (add32 0xC1100000 0xC1100000)) = true ∧ val32 (expA (add32 0xC1100000 0xC1100000)) < 1 / 2 ^ 25 := by
  rw [show add32 0xC1100000 0xC1100000 = 0xC1900000 by decide +kernel]
  have hv : ((val32 0xC1900000 : ℚ) : ℝ) = -18 := by
    rw [val32_eq _ (-18 * 2 ^ 149) (by decide +kernel)]
    norm_num
  have hexp : (1 : ℝ) / 2 ^ 26 ≤ Real.exp (-18) ∧ Real.exp (-18) ≤ 1 / (2 ^ 25 + 2 ^ 20) := by
    have hlo := Real.exp_one_gt_d9
    have hhi := Real.exp_one_lt_d9
    have h : Real.exp (-18) = 1 / Real.exp 1 ^ 18 := by rw [Real.exp_neg, ← Real.exp_nat_mul]; norm_num
    rw [h]
    exact ⟨one_div_le_one_div_of_le (by positivity) (le_trans (pow_le_pow_left₀ (Real.exp_pos 1).le hhi.le 18) (by norm_num)),
      one_div_le_one_div_of_le (by positivity) (le_trans (by norm_num) (pow_le_pow_left₀ (by norm_num) hlo.le 18))⟩
  obtain ⟨-, -, -, -, -, -, hsign, hmid, -⟩ := Config.units.contract
  obtain ⟨-, hs⟩ := hsign 0xC1900000 (by decide)
  obtain ⟨hf, h⟩ := hmid 0xC1900000 (by decide)
    (by rw [hv]; exact le_trans (by norm_num) hexp.1) (by rw [hv]; exact hexp.2.trans (by norm_num))
  rw [hv] at h
  have h' := abs_le.1 h
  have he := expA_eq_of_limits (x := 0xC1900000) (by decide) (by decide)
  generalize Config.units.exponential 0xC1900000 = w at *
  norm_num [transTol] at h' hexp
  have h2 : (1 / 2 ^ 27 : ℚ) < val32 w := by
    rw [← Rat.cast_lt (K := ℝ)]
    norm_num
    linarith [h'.1]
  have h4 : val32 w < (1 / 2 ^ 25 : ℚ) := by
    rw [← Rat.cast_lt (K := ℝ)]
    norm_num
    linarith [h'.2]
  have hl : 0x32000000 < w.toNat := lt_toNat_of_val hs (by norm_num) (by
    rw [val32_eq (BitVec.ofNat 32 0x32000000) (2 ^ 122) (by decide +kernel)]
    norm_num at h2 ⊢
    exact h2)
  have hu : w.toNat ≤ 0x32FFFFFF := toNat_le_of_val hs (by norm_num) (by
    rw [val32_eq (BitVec.ofNat 32 (0x32FFFFFF + 1)) (2 ^ 124) (by decide +kernel)]
    norm_num at h4 ⊢
    exact h4)
  rw [he (by rw [show expLow 0xC1900000 = 0x007FFFF8 by decide]; omega)
    (by rw [show expHigh 0xC1900000 = 0x3F800008 by decide]; omega)]
  exact ⟨hf, h4⟩

theorem witness_TanhCornerCases :
    (isNaN 0x7FC00000 = true ∧
      (isNaN 0x42317218 = false ∧ sign 0x42317218 = false ∧ 0x42317218 ≤ (0x42317218 : Word).toNat) ∧
      (isNaN 0xC22EAC50 = false ∧ sign 0xC22EAC50 = true ∧ 0xC22EAC50 ≤ (0xC22EAC50 : Word).toNat) ∧
      (isNaN 0xFF800000 = false ∧ sign 0xFF800000 = true ∧ 0xC22EAC50 ≤ (0xFF800000 : Word).toNat)) ∧
      (isFinite (expA (add32 0x41100000 0x41100000)) = true ∧ 2 ^ 25 ≤ val32 (expA (add32 0x41100000 0x41100000))) ∧
      isFinite (expA (add32 0xC1100000 0xC1100000)) = true ∧ val32 (expA (add32 0xC1100000 0xC1100000)) < 1 / 2 ^ 25 :=
  ⟨by decide +kernel, tanh_of_nine, tanh_of_minus_nine⟩

/-! ### Instructions -/

theorem witness_ArithmeticWritesEachLane : two.turn < two.workers.length := by decide

theorem witness_DotProductOfPairs :
    two.turn < two.workers.length ∧ (31 : VReg).val = (30 : VReg).val + 1 ∧ 30 < (31 : VReg).val := by decide

theorem witness_DotProductOfQuads :
    two.turn < two.workers.length ∧
      ((29 : VReg).val = (28 : VReg).val + 1 ∧ (30 : VReg).val = (28 : VReg).val + 2 ∧
        (31 : VReg).val = (28 : VReg).val + 3) ∧ 28 < (29 : VReg).val := by decide

theorem witness_MovesAndConstantsWriteTheirPattern : two.turn < two.workers.length := by decide

theorem witness_SwizzleBuildsTheQuad :
    two.turn < two.workers.length ∧
      ((29 : VReg).val = (28 : VReg).val + 1 ∧ (30 : VReg).val = (28 : VReg).val + 2 ∧
        (31 : VReg).val = (28 : VReg).val + 3 ∧ (31 : VReg).val = (30 : VReg).val + 1) ∧
      28 < (29 : VReg).val ∧ 30 < (31 : VReg).val := by decide

theorem witness_AxisSwapExchangesThePair :
    two.turn < two.workers.length ∧ (31 : VReg).val = (30 : VReg).val + 1 ∧ 30 < (31 : VReg).val := by decide

theorem witness_TranscendentalsWriteEachLane : two.turn < two.workers.length := by decide

theorem witness_NopOnlyAdvances : two.turn < two.workers.length := by decide

/-- Bodies that end at the last word of PROG and one past it; counts and lengths of 0, 1 and 255. -/
theorem witness_LoopStartsItsBodyOrFaults :
    let s := running [] (activeAt 0 0 78) (activeAt 1 0 0)
    s.turn < s.workers.length ∧ s.me.lactive = false ∧ (1 : BitVec 8) ≠ 0 ∧ (255 : BitVec 8) ≠ 0 ∧
      s.me.pc + (1 : BitVec 8).toNat < s.params.progDepth ∧ s.params.progDepth ≤ s.me.pc + (2 : BitVec 8).toNat ∧
      (advance (setLoop s 1 1)).me.lactive = true := by decide +kernel

/-- LOOP 2, 1 with a NOP as its body. -/
def looping : State := running [(0, 0x0C000201), (1, 0x04000000)] (activeAt 0 0 0) (activeAt 1 0 0)

theorem nop_continues (s : State) (hr : s.fstate = .running) (hp : s.me.pc < s.params.progDepth)
    (hd : decode (fetchWord s) = .ok .nop) : Continues s (advance s) :=
  ⟨hr, hp, .nop, hd, by decide, rfl, hr⟩

/-- Runs of 0 and 1 steps (below count * len) and of 2 steps (count * len). -/
theorem witness_LoopRunsItsBodyCountTimes :
    looping.turn < looping.workers.length ∧ looping.me.lactive = false ∧ (2 : BitVec 8) ≠ 0 ∧ (1 : BitVec 8) ≠ 0 ∧
      looping.me.pc + (1 : BitVec 8).toNat < looping.params.progDepth ∧
      exec (.loop 2 1) looping = .next (advance (setLoop looping 2 1)) ∧
      RunsTo 0 (advance (setLoop looping 2 1)) (advance (setLoop looping 2 1)) ∧
      RunsTo 1 (advance (setLoop looping 2 1)) (advance (advance (setLoop looping 2 1))) ∧
      RunsTo 2 (advance (setLoop looping 2 1)) (advance (advance (advance (setLoop looping 2 1)))) := by
  have h1 : Continues (advance (setLoop looping 2 1)) (advance (advance (setLoop looping 2 1))) :=
    nop_continues _ rfl (by decide +kernel) (by decide +kernel)
  have h2 : Continues (advance (advance (setLoop looping 2 1))) (advance (advance (advance (setLoop looping 2 1)))) :=
    nop_continues _ rfl (by decide +kernel) (by decide +kernel)
  exact ⟨by decide, by decide +kernel, by decide, by decide, by decide +kernel, rfl, rfl, ⟨_, h1, rfl⟩, _, h1, _, h2, rfl⟩

theorem witness_EndStartsTheNextLaneGroup :
    let s := running [] (activeAt 0 0 0) (activeAt 1 0 0)
    s.turn < s.workers.length ∧ s.me.x0 / s.params.laneWidth + 1 < s.frame.g := by decide +kernel

/-- The last group of a row, with another row still open and with every other row done. -/
theorem witness_EndOfTheLastGroupCompletesTheRow :
    two.turn < two.workers.length ∧ two.frame.g ≤ two.me.x0 / two.params.laneWidth + 1 ∧
      two.doneRows.Pairwise (· < ·) ∧ insertRow two.me.row two.doneRows ≠ allRows two ∧
      ({ two with doneRows := [0] } : State).doneRows.Pairwise (· < ·) ∧ insertRow two.me.row [0] = allRows two := by
  decide +kernel

theorem witness_SpecialValuesAreRead : two.turn < two.workers.length ∧ two.me.row < two.frame.h.toNat := by decide +kernel

/-- Up to the last byte of the space: lane 3, channel blue, address 47 of 48. -/
theorem witness_StoreWritesTheQuantizedLanes :
    two.turn < two.workers.length ∧
      ∀ j < two.params.laneWidth,
        (two.me.row * two.frame.w.toNat + (two.me.x0 + j)) * 3 + Channel.blue.index < two.params.fbCapacity := by
  decide +kernel

/-! ### Steps -/

theorem witness_StepRunsTheDecodedInstruction :
    two.agenda = [.work 0] ∧ two.fstate = .running ∧ 0 < two.workers.length ∧ (two.worker 0).wstate = .active ∧
      (two.worker 0).pc < two.params.progDepth ∧ decode (progWord two (two.worker 0).pc) = .ok .nop := by decide +kernel

/-- pc = PROG_DEPTH, and a word that is no instruction at pc = PROG_DEPTH - 1. -/
theorem witness_StepRecordsFetchAndDecodeFaults :
    (let s := running [] (activeAt 0 0 80) (activeAt 1 0 0);
      s.agenda = [.work 0] ∧ s.fstate = .running ∧ 0 < s.workers.length ∧ (s.worker 0).wstate = .active ∧
        (s.worker 0).pc = s.params.progDepth) ∧
      (let s := running [] (activeAt 0 0 79) (activeAt 1 0 0);
        s.agenda = [.work 0] ∧ s.fstate = .running ∧ 0 < s.workers.length ∧ (s.worker 0).wstate = .active ∧
          (s.worker 0).pc < s.params.progDepth ∧
          decode (progWord s (s.worker 0).pc) = .error .illegalOpcode) := by decide +kernel

/-- A running frame; and IDLE with each check failing first at its edge, and with none failing. -/
theorem witness_StartValidatesAndLatches :
    (0x00000001 : Word).getLsbD 0 = true ∧ (0xFFFFFFFF : Word).getLsbD 0 = true ∧ two.fstate = .running ∧
      (let s := { State.resetWith { small with maxDim := 7 } [] [] 0 with width := 8, height := 1 };
        s.fstate = .idle ∧ s.params.maxDim < s.width.toNat) ∧
      (let s := { State.resetWith small [] [] 0 with width := 17, height := 1 };
        s.fstate = .idle ∧ ¬(s.width = 0 ∨ s.height = 0 ∨ s.params.maxDim < s.width.toNat ∨ s.params.maxDim < s.height.toNat) ∧
          s.params.fbCapacity < s.width.toNat * s.height.toNat * 3) ∧
      (let s := { State.resetWith small [] [] 0 with width := 16, height := 1, kentry := 80 };
        ¬(s.width = 0 ∨ s.height = 0 ∨ s.params.maxDim < s.width.toNat ∨ s.params.maxDim < s.height.toNat) ∧
          ¬s.params.fbCapacity < s.width.toNat * s.height.toNat * 3 ∧ s.params.progDepth ≤ s.kentry.toNat) ∧
      (let s := { State.resetWith small [] [] 0 with width := 16, height := 1, kentry := 79 };
        ¬(s.width = 0 ∨ s.height = 0 ∨ s.params.maxDim < s.width.toNat ∨ s.params.maxDim < s.height.toNat) ∧
          ¬s.params.fbCapacity < s.width.toNat * s.height.toNat * 3 ∧ ¬s.params.progDepth ≤ s.kentry.toNat) := by
  decide +kernel

/-- Worker 1 free, row 0 unclaimed. -/
def claimable : State :=
  { running [] (activeAt 1 0 0) (Worker.atReset 4) with agenda := [.claim 1 0], unclaimed := [0] }

theorem witness_ClaimStartsTheRowsFirstGroup :
    claimable.agenda = [.claim 1 0] ∧ claimable.fstate = .running ∧ 0 ∈ claimable.unclaimed ∧
      1 < claimable.workers.length ∧ (claimable.worker 1).wstate = .idle ∧ claimable.frame.g ≠ 0 := by decide +kernel

/-- A frame narrower than L: the claim of row 0 leaves row 1 open, the claim of row 1 then completes the frame. -/
def narrow (unclaimed doneRows : List Nat) : State :=
  { running [] (Worker.atReset 4) (Worker.atReset 4) with
    agenda := [.claim 0 1], unclaimed := unclaimed, doneRows := doneRows, frame := { frame8x2 with w := 3, g := 0 } }

theorem witness_ClaimWithoutGroupsCompletesTheRow :
    ∀ s ∈ [narrow [0, 1] [], narrow [1] [0]],
      s.agenda = [.claim 0 1] ∧ s.fstate = .running ∧ 1 ∈ s.unclaimed ∧ 0 < s.workers.length ∧
        (s.worker 0).wstate = .idle ∧ s.frame.g = 0 ∧ s.doneRows.Pairwise (· < ·) := by decide +kernel

theorem witness_ResetRestoresAllButTheFramebuffer :
    ({ two with agenda := [.reset] } : State).agenda = [.reset] ∧ two.params.Legal := by decide +kernel

/-! ### The host's view -/

/-- A host access as the next event; the ends of the space, of PROG and of each range without a register. -/
theorem witness_ReadOnlyRegistersStatusAndInterrupt :
    (hosted (.csrRead 0x000 4) two).agenda = [.host (.csrRead 0x000 4)] ∧
      (∀ off ∈ [0x000, 0xFFFFC], off % 4 = 0 ∧ off < 2 ^ 20) ∧ (0 < two.params.progDepth ∧ 79 < two.params.progDepth) ∧
      ∀ off ∈ [0x01C, 0x03C, 0x054, 0xFFC, 0x1140],
        off % 4 = 0 ∧
          (off = 0x01C ∨ off = 0x03C ∨ (0x054 ≤ off ∧ off < 0x1000) ∨ 0x1000 + 4 * two.params.progDepth ≤ off) := by
  decide +kernel

/-- The read-only ranges at their ends, a running and an idle state, and a value with bit 0 clear. -/
theorem witness_CsrWritesFollowTheirAccessType :
    (∀ off ∈ [0x000, 0x01C, 0x02C, 0x03C, 0x054, 0xFFC, 0x1140, 0xFFFFC],
      off % 4 = 0 ∧ off < 2 ^ 20 ∧ (off < 0x020 ∨ (0x02C ≤ off ∧ off < 0x040) ∨ (0x054 ≤ off ∧ off < 0x1000) ∨
        0x1000 + 4 * two.params.progDepth ≤ off)) ∧
      (two.fstate = .running ∧
        ∀ off ∈ [0x040, 0x050, 0x1000, 0xFFFFC],
          off % 4 = 0 ∧ off < 2 ^ 20 ∧ ((0x040 ≤ off ∧ off < 0x054) ∨ 0x1000 ≤ off)) ∧
      State.reset.fstate = .idle ∧ (0xFFFFFFFE : Word).getLsbD 0 = false := by decide +kernel

theorem witness_ProgramWordsReadBackWhileIdle :
    small.Legal ∧ (State.resetWith small [] [] 0).fstate = .idle ∧ 79 < small.progDepth ∧ 0 < small.progDepth := by
  decide +kernel

theorem witness_BadHostAccessesAreBusErrors :
    ((2 : Nat) ≠ 4 ∧ (2 : Nat) % 4 ≠ 0 ∧ (2 : Nat) ^ 20 ≤ 0x100000) ∧
      (((3 : Nat) ≠ 1 ∧ (3 : Nat) ≠ 2 ∧ (3 : Nat) ≠ 4) ∧ (1 : Nat) % 2 ≠ 0 ∧ small.fbCapacity < 48 + 1) := by decide

theorem witness_HostFramebufferAccessIsLittleEndian :
    ∀ n ∈ [1, 2, 4], (n = 1 ∨ n = 2 ∨ n = 4) ∧ (48 - n) % n = 0 ∧ (48 - n) + n ≤ small.fbCapacity := by decide

/-! ### Invariants and whole-machine rules -/

theorem two_steps : ∃ t, step two = .next t :=
  (exists_next (p := fun _ => true) (by decide +kernel)).imp fun _ h => h.1

theorem witness_StepKeepsStorageForm : StorageOk two ∧ ∃ t, step two = .next t := ⟨by decide +kernel, two_steps⟩

theorem witness_StepKeepsStatusBitsConsistent : StatusOk two ∧ ∃ t, step two = .next t := ⟨by decide +kernel, two_steps⟩

theorem witness_StepKeepsRowsPartitioned : DispatchOk two ∧ ∃ t, step two = .next t := ⟨by decide +kernel, two_steps⟩

theorem witness_StepKeepsLoopRecordsInPlace : SequenceOk two ∧ ∃ t, step two = .next t := ⟨by decide +kernel, two_steps⟩

theorem witness_NoStepStops : DispatchOk two ∧ two.fstate = .running := by decide +kernel

/-- A step of STQ v9, R on row 1 that changes a byte, the first and the last byte of a row's slice, two active workers. -/
theorem witness_WorkersWriteTheirOwnDisjointSlices :
    (let s := { running [(0, 0x58090000)] (activeAt 1 4 0) (activeAt 0 0 0) with fb := [(36, 99)] };
      DispatchOk s ∧ s.agenda = [.work 0] ∧ ∃ t, step s = .next t ∧ (fbByte t 36 != fbByte s 36) = true) ∧
      DispatchOk two ∧ (two.worker 0).wstate = .active ∧ (two.worker 1).wstate = .active ∧
      ∀ a ∈ [24, 47],
        (two.worker 0).row * two.frame.w.toNat * 3 ≤ a ∧
          a < (two.worker 0).row * two.frame.w.toNat * 3 + two.frame.w.toNat * 3 :=
  ⟨⟨by decide +kernel, by decide, exists_next (by decide +kernel)⟩, by decide +kernel, by decide, by decide,
    by decide +kernel⟩

/-- Two states that differ in the framebuffer and in the other worker. -/
theorem witness_WorkerStepDependsOnItsOwnInputs :
    let s' := { running [(0, 0x04000000)] two.me (activeAt 0 4 9) with fb := [(0, 1)] }
    two.agenda = s'.agenda ∧ two.fstate = s'.fstate ∧ two.params = s'.params ∧ two.prog = s'.prog ∧ two.frame = s'.frame ∧
      0 < two.workers.length ∧ 0 < s'.workers.length ∧ two.worker 0 = s'.worker 0 ∧
      (∃ t, step two = .next t) ∧ ∃ t, step s' = .next t := by
  refine ⟨by decide, by decide, by decide, by decide, by decide, by decide, by decide, by decide +kernel, two_steps, ?_⟩
  exact (exists_next (p := fun _ => true) (by decide +kernel)).imp fun _ h => h.1

theorem witness_WorkerStepsCommute :
    StorageOk two ∧ StatusOk two ∧ DispatchOk two ∧ workEnabled two 0 = true ∧ workEnabled two 1 = true ∧
      (∃ a ab, perform (.work 0) two = .next a ∧ perform (.work 1) a = .next ab ∧ ab.err = false) ∧
      ∃ b ba, perform (.work 1) two = .next b ∧ perform (.work 0) b = .next ba ∧ ba.err = false := by
  refine ⟨by decide +kernel, by decide +kernel, by decide +kernel, by decide +kernel, by decide +kernel, ?_, ?_⟩
  · obtain ⟨a, ha, hb⟩ := exists_next (o := perform (.work 0) two)
      (p := fun a => nextSat (perform (.work 1) a) fun ab => !ab.err) (by decide +kernel)
    obtain ⟨ab, hab, he⟩ := exists_next hb
    exact ⟨a, ab, ha, hab, by simpa using he⟩
  · obtain ⟨a, ha, hb⟩ := exists_next (o := perform (.work 1) two)
      (p := fun a => nextSat (perform (.work 0) a) fun ab => !ab.err) (by decide +kernel)
    obtain ⟨ab, hab, he⟩ := exists_next hb
    exact ⟨a, ab, ha, hab, by simpa using he⟩

theorem witness_InvocationsEnd : two.params.Legal ∧ SequenceOk two ∧ two.turn < two.workers.length := by decide +kernel

/-- One state whose workers hold rows, and one with a row unclaimed and a worker free. -/
theorem witness_RunningFrameHasAnEnabledStep :
    ∀ s ∈ [two, claimable], StorageOk s ∧ DispatchOk s ∧ s.fstate = .running := by decide +kernel

theorem witness_RunningFrameFreezesProgramAndConfiguration :
    two.fstate = .running ∧ nextEvent two ≠ .reset ∧ ∃ t, step two = .next t := ⟨by decide, by decide, two_steps⟩

/-- A step that completes the frame, one that faults it, and one that does neither. -/
theorem witness_FrameEndsWithDoneOrErr :
    (∀ s ∈ [{ running [(0, 0x08000000)] (activeAt 1 4 0) (Worker.atReset 4) with doneRows := [0] },
        running [] (activeAt 0 0 0) (activeAt 1 0 0)],
      StatusOk s ∧ s.fstate = .running ∧ nextEvent s ≠ .reset ∧ nextSat (step s) (fun t => t.fstate == .idle) = true) ∧
      nextEvent two ≠ .reset ∧ ∃ t, step two = .next t :=
  ⟨by decide +kernel, by decide, two_steps⟩

end Sys2Proof.Tests
end

section
/-! SUPPORT. Patterns of a sign and a magnitude (spec/00_scope.md R10): the classes, the sign and the value of a pattern, read off its
31 magnitude bits. -/

namespace Sys2Proof.Proofs

open Sys2Proof.Machine Sys2Proof.Laws

theorem withSign_toNat (neg : Bool) {m : ℕ} (hm : m < 2 ^ 31) :
    (withSign neg (BitVec.ofNat 32 m)).toNat = (if neg then 2 ^ 31 else 0) + m := by
  cases neg
  · simpa [withSign] using (pattern_toNat hm).1
  · have h : m ||| 2 ^ 31 = 2 ^ 31 + m := by
      simpa [Nat.or_comm] using (Nat.two_pow_add_eq_or_of_lt hm 1).symm
    simpa [withSign, Nat.mod_eq_of_lt (show m < 4294967296 by omega)] using h

theorem sign_withSign (neg : Bool) {m : ℕ} (hm : m < 2 ^ 31) : sign (withSign neg (BitVec.ofNat 32 m)) = neg := by
  rw [sign_eq, withSign_toNat neg hm]
  cases neg
  · simpa using hm
  · simp

theorem units_eq (a : Word) : units a = (if sign a then -1 else 1) * (patternUnits (a.toNat % 2 ^ 31) : ℤ) := by
  rw [units, magUnits_eq]
  split <;> simp

theorem units_withSign (neg : Bool) {m : ℕ} (hm : m < 2 ^ 31) :
    units (withSign neg (BitVec.ofNat 32 m)) = (if neg then -1 else 1) * (patternUnits m : ℤ) := by
  rw [units_eq, sign_withSign neg hm, withSign_toNat neg hm,
    show ((if neg then 2 ^ 31 else 0) + m) % 2 ^ 31 = m by split <;> omega]

/-- A pattern is finite when its magnitude is below the infinity's. -/
theorem isFinite_iff (a : Word) : isFinite a = true ↔ a.toNat % 2 ^ 31 < 0x7F800000 := by
  have h := expField_eq a
  rw [isFinite, bne_iff_ne, ne_eq, ← BitVec.toNat_inj, h]
  simp only [show BitVec.toNat (0xFF : BitVec 8) = 255 by decide]
  omega

theorem isInf_iff (a : Word) : isInf a = true ↔ a.toNat % 2 ^ 31 = 0x7F800000 := by
  have he := expField_eq a
  have hf := fracField_eq a
  rw [isInf, Bool.and_eq_true, beq_iff_eq, beq_iff_eq, ← BitVec.toNat_inj, ← BitVec.toNat_inj, he, hf]
  simp only [show BitVec.toNat (0xFF : BitVec 8) = 255 by decide, show BitVec.toNat (0 : BitVec 23) = 0 by decide]
  omega

theorem isNaN_iff (a : Word) : isNaN a = true ↔ 0x7F800000 < a.toNat % 2 ^ 31 := by
  have he := expField_eq a
  have hf := fracField_eq a
  rw [isNaN, Bool.and_eq_true, beq_iff_eq, bne_iff_ne, ne_eq, ← BitVec.toNat_inj, ← BitVec.toNat_inj, he, hf]
  simp only [show BitVec.toNat (0xFF : BitVec 8) = 255 by decide, show BitVec.toNat (0 : BitVec 23) = 0 by decide]
  omega

theorem isFinite_of_not_special {x : Word} (h : ¬(isNaN x = true ∨ isInf x = true)) : isFinite x = true := by
  rw [← Bool.or_eq_true, special_iff] at h
  simpa using h

/-- The patterns up to +infinity are those of sign 0 that are no NaN. -/
theorem le_posInf_iff (w : Word) : w.toNat ≤ 0x7F800000 ↔ isNaN w = false ∧ sign w = false := by
  rw [← Bool.not_eq_true, isNaN_iff, sign_eq, decide_eq_false_iff_not]
  have := w.isLt
  omega

/-- The patterns below +infinity are those of the finite numbers of sign 0. -/
theorem lt_posInf_iff (w : Word) : w.toNat < 0x7F800000 ↔ isFinite w = true ∧ sign w = false := by
  rw [isFinite_iff, sign_eq, decide_eq_false_iff_not]
  have := w.isLt
  omega

/-- A pattern of [-1, 1] is finite. -/
theorem isFinite_of_abs_le_one {y : Word} (h : |val32 y| ≤ 1) : isFinite y = true := by
  rw [isFinite_iff]
  exact ((val32_abs_le_one_iff y).1 h).trans_lt (by norm_num)

theorem val32_nonneg {w : Word} (hs : sign w = false) : 0 ≤ val32 w := by
  rw [val32, units, if_neg (by simp [hs])]
  positivity

theorem val32_cast (x : Word) :
    ((val32 x : ℚ) : ℝ) = (if sign x then -1 else 1) * ((patternUnits (x.toNat % 2 ^ 31) : ℝ) / 2 ^ 149) := by
  rw [val32, units_eq]
  cases sign x <;> simp [neg_div]

end Sys2Proof.Proofs
end

section
/-! SUPPORT. Rounding (spec/00_scope.md R10).

Magnitude patterns are looked at with an unbounded exponent field (`patternUnits`): the unbounded rounding is the nearest of two
neighbouring patterns, and the clamp of `rneMag` to the infinity is then a matter of the two patterns around the overflow bound. -/

namespace Sys2Proof.Proofs

open Sys2Proof.Machine Sys2Proof.Laws

/-- The magnitude pattern `m` is the one nearest to `q` units, a tie going to the even pattern; exponents are not bounded. -/
def NearestEven (q : ℚ) (m : ℕ) : Prop :=
  ∀ k, |(patternUnits m : ℚ) - q| ≤ |(patternUnits k : ℚ) - q| ∧
    (|(patternUnits m : ℚ) - q| = |(patternUnits k : ℚ) - q| → k ≠ m → m % 2 = 0)

/-- The pattern of significand `k` in the binade of shift `e`; the upper end `2 ^ 24` of the binade is the next one's lower end. -/
theorem patternUnits_binade {e k : ℕ} (hk : k ≤ 2 ^ 24) (h : e = 0 ∨ 2 ^ 23 ≤ k) :
    patternUnits (e * 2 ^ 23 + k) = k * 2 ^ e := by
  unfold patternUnits
  rcases Nat.lt_or_ge k (2 ^ 23) with hlt | hge
  · obtain rfl : e = 0 := by omega
    rw [if_pos (by omega)]
    omega
  · rcases hk.lt_or_eq with hk | rfl
    · rw [if_neg (by omega), show (e * 2 ^ 23 + k) / 2 ^ 23 - 1 = e by omega,
        show 2 ^ 23 + (e * 2 ^ 23 + k) % 2 ^ 23 = k by omega]
    · rw [if_neg (by omega), show (e * 2 ^ 23 + 2 ^ 24) / 2 ^ 23 - 1 = e + 1 by omega,
        show (e * 2 ^ 23 + 2 ^ 24) % 2 ^ 23 = 0 by omega]
      ring

/-- The shift brings the quotient into 24 bits, and into exactly 24 where it shifts at all. -/
theorem shiftOf_spec (n d : ℕ) :
    n / (d * 2 ^ shiftOf n d) < 2 ^ 24 ∧ (shiftOf n d = 0 ∨ 2 ^ 23 ≤ n / (d * 2 ^ shiftOf n d)) := by
  rw [← Nat.div_div_eq_div_mul, shiftOf]
  have hlt : n / d < 2 ^ ((n / d).log2 + 1) := Nat.lt_log2_self
  rcases Nat.lt_or_ge 23 (n / d).log2 with h | h
  · have hne : n / d ≠ 0 := by
      intro h0
      simp [h0] at h
    have hle : 2 ^ (n / d).log2 ≤ n / d := Nat.log2_self_le hne
    refine ⟨?_, .inr ?_⟩
    · rw [Nat.div_lt_iff_lt_mul (by positivity), ← pow_add]
      exact hlt.trans_eq (by congr 1; omega)
    · rw [Nat.le_div_iff_mul_le (by positivity), ← pow_add]
      exact (by congr 1; omega : 2 ^ (23 + ((n / d).log2 - 23)) = 2 ^ (n / d).log2).trans_le hle
  · rw [Nat.sub_eq_zero_of_le h, pow_zero, Nat.div_one]
    exact ⟨hlt.trans_le (Nat.pow_le_pow_right (by norm_num) (by omega)), .inl rfl⟩

/-- `roundEven` is the floor below half, the floor's successor above it, and the even one of the two at half. -/
theorem roundEven_cases (n d : ℕ) :
    (roundEven n d = n / d ∧ (2 * (n % d) < d ∨ 2 * (n % d) = d ∧ n / d % 2 = 0)) ∨
      (roundEven n d = n / d + 1 ∧ (d < 2 * (n % d) ∨ 2 * (n % d) = d ∧ (n / d + 1) % 2 = 0)) := by
  unfold roundEven
  split
  · exact .inl ⟨rfl, .inl ‹_›⟩
  · split
    · exact .inr ⟨rfl, .inl ‹_›⟩
    · omega

/-- Between two neighbouring patterns the nearer one, or the even one at the midpoint, is the nearest of all. -/
theorem nearestEven_of_between {q : ℚ} {lo m : ℕ} (hlo : (patternUnits lo : ℚ) ≤ q) (hhi : q ≤ patternUnits (lo + 1))
    (hm : (m = lo ∧ (q - patternUnits lo < patternUnits (lo + 1) - q ∨
              q - patternUnits lo = patternUnits (lo + 1) - q ∧ lo % 2 = 0)) ∨
        (m = lo + 1 ∧ (patternUnits (lo + 1) - q < q - patternUnits lo ∨
              q - patternUnits lo = patternUnits (lo + 1) - q ∧ (lo + 1) % 2 = 0))) :
    NearestEven q m := by
  intro k
  have hinj : patternUnits k = patternUnits m → k = m := fun h => patternUnits_strictMono.injective h
  have hlo' : |(patternUnits lo : ℚ) - q| = q - patternUnits lo := by rw [abs_sub_comm, abs_of_nonneg (by linarith)]
  have hhi' : |(patternUnits (lo + 1) : ℚ) - q| = patternUnits (lo + 1) - q := abs_of_nonneg (by linarith)
  rcases Nat.lt_or_ge lo k with hk | hk
  · have hmono : (patternUnits (lo + 1) : ℚ) ≤ patternUnits k := by
      exact_mod_cast patternUnits_strictMono.monotone hk
    rw [abs_of_nonneg (a := (patternUnits k : ℚ) - q) (by linarith)]
    obtain ⟨rfl, h | ⟨h, heven⟩⟩ | ⟨rfl, h | ⟨h, heven⟩⟩ := hm
    · rw [hlo']
      exact ⟨by linarith, fun heq => by linarith⟩
    · rw [hlo']
      exact ⟨by linarith, fun _ _ => heven⟩
    · rw [hhi']
      exact ⟨by linarith, fun heq hne => absurd (hinj (by exact_mod_cast (sub_left_inj.1 heq).symm)) hne⟩
    · rw [hhi']
      exact ⟨by linarith, fun _ _ => heven⟩
  · have hmono : (patternUnits k : ℚ) ≤ patternUnits lo := by
      exact_mod_cast patternUnits_strictMono.monotone hk
    rw [abs_sub_comm (patternUnits k : ℚ), abs_of_nonneg (a := q - (patternUnits k : ℚ)) (by linarith)]
    obtain ⟨rfl, h | ⟨h, heven⟩⟩ | ⟨rfl, h | ⟨h, heven⟩⟩ := hm
    · rw [hlo']
      exact ⟨by linarith, fun heq hne => absurd (hinj (by exact_mod_cast (sub_right_inj.1 heq).symm)) hne⟩
    · rw [hlo']
      exact ⟨by linarith, fun _ _ => heven⟩
    · rw [hhi']
      exact ⟨by linarith, fun heq => by linarith⟩
    · rw [hhi']
      exact ⟨by linarith, fun _ _ => heven⟩

/-- Rounding `t` of `2 ^ e` units up or down, above the pattern of significand `f` in the binade of shift `e`. -/
theorem nearestEven_binade {e f k : ℕ} {t : ℚ} (hf : f < 2 ^ 24) (hs : e = 0 ∨ 2 ^ 23 ≤ f) (h0 : 0 ≤ t) (h1 : t ≤ 2 ^ e)
    (hk : (k = f ∧ (2 * t < 2 ^ e ∨ 2 * t = 2 ^ e ∧ f % 2 = 0)) ∨
      (k = f + 1 ∧ (2 ^ e < 2 * t ∨ 2 * t = 2 ^ e ∧ (f + 1) % 2 = 0))) :
    NearestEven (f * 2 ^ e + t) (e * 2 ^ 23 + k) := by
  have hlo : (patternUnits (e * 2 ^ 23 + f) : ℚ) = f * 2 ^ e := by
    rw [patternUnits_binade hf.le hs]
    push_cast
    rfl
  have hhi : (patternUnits (e * 2 ^ 23 + f + 1) : ℚ) = f * 2 ^ e + 2 ^ e := by
    rw [Nat.add_assoc, patternUnits_binade hf (hs.imp_right fun h => Nat.le_succ_of_le h)]
    push_cast
    ring
  refine nearestEven_of_between (lo := e * 2 ^ 23 + f) ?_ ?_ ?_
  · rw [hlo]
    linarith only [h0]
  · rw [hhi]
    linarith only [h1]
  · rw [hlo, hhi]
    obtain ⟨rfl, h | ⟨h, heven⟩⟩ | ⟨rfl, h | ⟨h, heven⟩⟩ := hk
    · exact .inl ⟨rfl, .inl (by linarith only [h])⟩
    · exact .inl ⟨rfl, .inr ⟨by linarith only [h], by omega⟩⟩
    · exact .inr ⟨(Nat.add_assoc _ _ _).symm, .inl (by linarith only [h])⟩
    · exact .inr ⟨(Nat.add_assoc _ _ _).symm, .inr ⟨by linarith only [h], by omega⟩⟩

/-- The unbounded rounding of `n / d` is its nearest pattern. -/
theorem nearestEven_unbounded (n : ℕ) {d : ℕ} (hd : 0 < d) :
    NearestEven ((n : ℚ) / d) (shiftOf n d * 2 ^ 23 + roundEven n (d * 2 ^ shiftOf n d)) := by
  obtain ⟨hf, hs⟩ := shiftOf_spec n d
  have hc : 0 < d * 2 ^ shiftOf n d := by positivity
  have hround := roundEven_cases n (d * 2 ^ shiftOf n d)
  have hmod := Nat.mod_lt n hc
  have hsplit := Nat.div_add_mod n (d * 2 ^ shiftOf n d)
  generalize n / (d * 2 ^ shiftOf n d) = f at *
  generalize n % (d * 2 ^ shiftOf n d) = r at *
  generalize shiftOf n d = e at *
  have hdq : (0 : ℚ) < d := by exact_mod_cast hd
  have hq : (n : ℚ) / d = f * 2 ^ e + r / d := by
    rw [← hsplit]
    push_cast
    field_simp
  have htwice : 2 * ((r : ℚ) / d) = (2 * r : ℕ) / d := by
    push_cast
    ring
  have hunit : (2 : ℚ) ^ e = (d * 2 ^ e : ℕ) / d := by
    push_cast
    field_simp
  rw [hq]
  refine nearestEven_binade hf hs (by positivity) ?_ ?_
  · rw [hunit, div_le_div_iff_of_pos_right hdq]
    exact_mod_cast hmod.le
  · rw [htwice, hunit, div_lt_div_iff_of_pos_right hdq, div_lt_div_iff_of_pos_right hdq, div_left_inj' hdq.ne']
    exact_mod_cast hround

/-- `rneMag` is the nearest pattern, with the infinity's pattern in place of every greater one. -/
theorem rneMag_spec (n : ℕ) {d : ℕ} (hd : 0 < d) :
    ∃ m, NearestEven ((n : ℚ) / d) m ∧ rneMag n d = min m 0x7F800000 :=
  ⟨_, nearestEven_unbounded n hd, rfl⟩

/-- The greatest finite pattern and the infinity's, whose midpoint is the overflow bound. -/
theorem patternUnits_overflow :
    patternUnits 0x7F7FFFFF = (2 ^ 25 - 2) * 2 ^ 252 ∧ patternUnits 0x7F800000 = 2 ^ 25 * 2 ^ 252 := by
  decide +kernel

/-- The nearest pattern reaches the infinity's exactly from 2^128 - 2^103 up, in units: at the bound itself the greatest finite
pattern is as near, but odd. -/
theorem NearestEven.overflow_iff {q : ℚ} {m : ℕ} (h : NearestEven q m) :
    0x7F800000 ≤ m ↔ (2 ^ 25 - 1) * 2 ^ 252 ≤ q := by
  obtain ⟨hmax, hinf⟩ := patternUnits_overflow
  have hmono : ∀ {a b : ℕ}, a ≤ b → (patternUnits a : ℚ) ≤ patternUnits b := fun hab => by
    exact_mod_cast patternUnits_strictMono.monotone hab
  have hmax' : (patternUnits 0x7F7FFFFF : ℚ) = (2 ^ 25 - 2) * 2 ^ 252 := by
    rw [hmax]
    norm_num
  have hinf' : (patternUnits 0x7F800000 : ℚ) = 2 ^ 25 * 2 ^ 252 := by
    rw [hinf]
    norm_num
  have hu : (0 : ℚ) < 2 ^ 252 := by positivity
  constructor
  · intro hm
    by_contra! hq
    have hle := hmono hm
    have hnear := (h 0x7F7FFFFF).1
    simp only [hinf', hmax'] at hle hnear
    generalize (2 : ℚ) ^ 252 = u at *
    rw [abs_of_nonneg (by linarith)] at hnear
    have hlt : |(2 ^ 25 - 2) * u - q| < 2 ^ 25 * u - q := abs_lt.2 ⟨by linarith, by linarith⟩
    linarith
  · intro hq
    by_contra! hm
    have hle := hmono (Nat.le_of_lt_succ hm)
    obtain ⟨hnear, htie⟩ := h 0x7F800000
    simp only [hinf', hmax'] at hle hnear htie
    generalize (2 : ℚ) ^ 252 = u at *
    rw [abs_sub_comm, abs_of_nonneg (by linarith)] at hnear htie
    have hfar : |2 ^ 25 * u - q| ≤ q - (2 ^ 25 - 2) * u := abs_le.2 ⟨by linarith, by linarith⟩
    have hm' : m = 0x7F7FFFFF := patternUnits_strictMono.injective (by
      have heq : (patternUnits m : ℚ) = patternUnits 0x7F7FFFFF := by linarith
      exact_mod_cast heq)
    have heven := htie (by linarith) (by omega)
    omega

/-- Distances to a number of sign `neg` are those of the magnitudes, the other number counted with the sign `neg`. -/
theorem abs_val32_sub (neg : Bool) (q : ℚ) (a : Word) :
    |val32 a - (if neg then -1 else 1) * q / 2 ^ 149| = |(if neg then -1 else 1) * (units a : ℚ) - q| / 2 ^ 149 := by
  rw [val32, ← sub_div, abs_div, abs_of_pos (show (0 : ℚ) < 2 ^ 149 by positivity)]
  cases neg
  · simp
  · rw [← abs_neg]
    simp [sub_eq_add_neg, add_comm]

/-- The nearest pattern of a positive number is nearest among the patterns of either sign too. -/
theorem NearestEven.signed {q : ℚ} (hq : 0 < q) {m : ℕ} (h : NearestEven q m) {v : ℚ} {k : ℕ}
    (hv : v = patternUnits k ∨ v = -patternUnits k) :
    |(patternUnits m : ℚ) - q| ≤ |v - q| ∧ (|(patternUnits m : ℚ) - q| = |v - q| → v ≠ patternUnits m → m % 2 = 0) := by
  obtain ⟨hle, htie⟩ := h k
  rcases hv with rfl | rfl
  · exact ⟨hle, fun heq hne => htie heq fun hkm => hne (by rw [hkm])⟩
  · have hneg : |-(patternUnits k : ℚ) - q| = patternUnits k + q := by
      rw [← neg_add', abs_neg, abs_of_nonneg (by positivity)]
    have hfar : |(patternUnits k : ℚ) - q| ≤ patternUnits k + q :=
      (abs_sub _ _).trans_eq (by rw [abs_of_nonneg (by positivity), abs_of_pos hq])
    rw [hneg]
    refine ⟨hle.trans hfar, fun heq hne => htie (le_antisymm hle (heq ▸ hfar)) fun hkm => ?_⟩
    -- a number as far from `q` as from `-q` is 0, whose two signs are the same number
    subst hkm
    have hzero : (patternUnits k : ℚ) = 0 := by
      rcases abs_eq_abs.1 (heq.trans (abs_of_nonneg (by positivity)).symm) with h | h <;> linarith
    exact hne (by rw [hzero, neg_zero])

/-- R10's rounding, from the nearest pattern of the magnitude: the sign does not matter to it. -/
theorem isRNE_of_nearestEven (neg : Bool) {q : ℚ} (hq : 0 < q) {m : ℕ} (h : NearestEven q m) :
    IsRNE ((if neg then -1 else 1) * q / 2 ^ 149) (withSign neg (BitVec.ofNat 32 (min m 0x7F800000))) := by
  have hlt : min m 0x7F800000 < 2 ^ 31 := (min_le_right _ _).trans_lt (by norm_num)
  have hmod : (withSign neg (BitVec.ofNat 32 (min m 0x7F800000))).toNat % 2 ^ 31 = min m 0x7F800000 := by
    rw [withSign_toNat neg hlt]
    split <;> omega
  have habs : |(if neg then -1 else 1) * q / 2 ^ 149| = q / 2 ^ 149 := by
    cases neg <;> simp [abs_div, abs_of_pos hq]
  have hbound : (2 ^ 128 - 2 ^ 103 : ℚ) = (2 ^ 25 - 1) * 2 ^ 252 / 2 ^ 149 := by norm_num
  refine ⟨?_, ?_, ?_⟩
  · rw [sign_withSign neg hlt]
    cases neg
    · simpa using by positivity
    · simpa [neg_div] using by positivity
  · rw [habs, hbound, div_le_div_iff_of_pos_right (by positivity), ← h.overflow_iff, isInf_iff, hmod]
    exact min_eq_right
  · rw [habs, hbound, div_lt_div_iff_of_pos_right (by positivity), ← not_le, ← h.overflow_iff, not_le]
    intro hm
    rw [isFinite_iff, hmod]
    rw [min_eq_left hm.le] at *
    refine ⟨hm, fun y _ => ?_⟩
    have hy : (if neg then -1 else 1) * (units y : ℚ) = patternUnits (y.toNat % 2 ^ 31) ∨
        (if neg then -1 else 1) * (units y : ℚ) = -patternUnits (y.toNat % 2 ^ 31) := by
      rw [units_eq]
      cases neg <;> cases sign y <;> simp
    have hr : (if neg then -1 else 1) * (units (withSign neg (BitVec.ofNat 32 m)) : ℚ) = patternUnits m := by
      rw [units_withSign neg hlt]
      cases neg <;> simp
    obtain ⟨hle, htie⟩ := h.signed hq hy
    rw [abs_val32_sub, abs_val32_sub, hr, div_le_div_iff_of_pos_right (by positivity), div_left_inj' (by positivity)]
    refine ⟨hle, fun heq hne => ?_⟩
    have heven : m % 2 = 0 := htie heq fun hym => hne (by
      have hunits : (units y : ℚ) = units (withSign neg (BitVec.ofNat 32 m)) := by
        rw [← hr] at hym
        cases neg <;> simpa using hym
      rw [val32, val32, hunits])
    rw [BitVec.getLsbD, Nat.testBit_zero, decide_eq_false_iff_not]
    omega

/-- Settles O8: the unbounded rounding of the magnitude is the nearest pattern. -/
theorem roundingIsNearestTiesToEven : Obligations.RoundingIsNearestTiesToEven := by
  intro neg n d hn hd
  obtain ⟨m, hm, hrne⟩ := rneMag_spec n hd
  rw [rne, hrne]
  exact isRNE_of_nearestEven neg (by positivity) hm

end Sys2Proof.Proofs
end

section
/-! SUPPORT. Conversion of small integers (spec/00_scope.md R10, spec/43_sequencing.md R175). -/

namespace Sys2Proof.Proofs

open Sys2Proof.Machine Sys2Proof.Laws

/-- A number that a finite pattern denotes is rounded to itself. -/
theorem val32_eq_of_isRNE {x : ℚ} {r y : Word} (h : IsRNE x r) (hy : isFinite y = true) (hval : val32 y = x)
    (hx : |x| < 2 ^ 128 - 2 ^ 103) : isFinite r = true ∧ val32 r = x := by
  obtain ⟨-, -, hnear⟩ := h
  obtain ⟨hr, hnear⟩ := hnear hx
  obtain ⟨hle, -⟩ := hnear y hy
  rw [hval, sub_self, abs_zero] at hle
  exact ⟨hr, sub_eq_zero.1 (abs_nonpos_iff.1 hle)⟩

/-- A positive integer below 2^24 has a pattern: its leading bit shifted to the place of the significand's. -/
theorem exists_pattern_of_lt {n : ℕ} (hpos : 0 < n) (hn : n < 2 ^ 24) : ∃ w : Word, isFinite w = true ∧ val32 w = n := by
  have hlog : n.log2 < 24 := (Nat.log2_lt hpos.ne').2 hn
  have hlo : 2 ^ 23 ≤ n * 2 ^ (23 - n.log2) :=
    calc 2 ^ 23 = 2 ^ n.log2 * 2 ^ (23 - n.log2) := by rw [← pow_add]; congr 1; omega
      _ ≤ n * 2 ^ (23 - n.log2) := Nat.mul_le_mul_right _ (Nat.log2_self_le hpos.ne')
  have hhi : n * 2 ^ (23 - n.log2) < 2 ^ 24 :=
    calc n * 2 ^ (23 - n.log2) < 2 ^ (n.log2 + 1) * 2 ^ (23 - n.log2) :=
          Nat.mul_lt_mul_of_pos_right Nat.lt_log2_self (by positivity)
      _ = 2 ^ 24 := by rw [← pow_add]; congr 1; omega
  obtain ⟨hf, -, hv⟩ := normalPattern_spec (e := n.log2 + 127) (by omega) (by omega) hhi hlo
  refine ⟨_, hf, ?_⟩
  have hexp : (2 : ℚ) ^ (23 - n.log2) * 2 ^ (n.log2 + 127 - 1) = 2 ^ 149 := by
    rw [← pow_add]
    congr 1
    omega
  rw [hv, div_eq_iff (by positivity), ← hexp]
  push_cast
  ring

/-- Settles O12: 0 by evaluation, and a positive integer because it has a pattern, which rounding keeps. -/
theorem smallIntegersConvertExactly : Obligations.SmallIntegersConvertExactly := by
  intro n hn
  rcases Nat.eq_zero_or_pos n with rfl | hpos
  · have hzero : float32 0 = 0x00000000 := by decide +kernel
    rw [hzero]
    exact ⟨by decide, by simpa using (zero_patterns (.inl rfl)).2, by decide⟩
  · have hrne : IsRNE n (float32 n) := by
      have h := roundingIsNearestTiesToEven false (n * 2 ^ 149) 1 (by positivity) one_pos
      have hx : (1 : ℚ) * (((n * 2 ^ 149 : ℕ) : ℚ) / (1 : ℕ)) / 2 ^ 149 = n := by
        push_cast
        field_simp
        norm_num
      exact hx ▸ h
    obtain ⟨y, hy, hval⟩ := exists_pattern_of_lt hpos hn
    have hlt : (n : ℚ) < 2 ^ 24 := by exact_mod_cast hn
    obtain ⟨hf, hv⟩ := val32_eq_of_isRNE hrne hy hval (by rw [Nat.abs_cast]; exact hlt.trans (by norm_num))
    obtain ⟨hsign, -⟩ := hrne
    exact ⟨hf, hv, by rw [hsign]; simp⟩

end Sys2Proof.Proofs
end

section
/-! SUPPORT. The limits of the sine and the cosine (spec/41_transcendental.md R131). -/

namespace Sys2Proof.Proofs

open Sys2Proof.Machine Sys2Proof.Laws

/-- Whatever the raw result is, the limited one lies in [-1, 1] (R131 S3). -/
theorem limitUnit_abs_le_one (y : Word) : |val32 (limitUnit y)| ≤ 1 := by
  rw [val32_abs_le_one_iff, limitUnit]
  split
  · rename_i h
    rwa [BitVec.toNat_and, show BitVec.toNat (0x7FFFFFFF : Word) = 2 ^ 31 - 1 by decide, Nat.and_two_pow_sub_one_eq_mod] at h
  · cases sign y <;> decide

/-- What `boundSin` and `boundCos` have in common: CNAN, the value at zero, and else the limited raw result. -/
def boundTrig (zero f : Word → Word) (x : Word) : Word :=
  if isNaN x || isInf x then cnan
  else if x = 0x00000000 ∨ x = 0x80000000 then zero x
  else limitUnit (f x)

theorem boundSin_eq_boundTrig : boundSin = boundTrig (fun x => x) := rfl

theorem boundCos_eq_boundTrig : boundCos = boundTrig (fun _ => one32) := rfl

section
variable (zero f : Word → Word) {x : Word}

theorem boundTrig_special (h : isNaN x = true ∨ isInf x = true) : boundTrig zero f x = cnan := by
  rw [boundTrig, if_pos (by simpa using h)]

theorem boundTrig_zero (h : x = 0x00000000 ∨ x = 0x80000000) : boundTrig zero f x = zero x := by
  rw [boundTrig, if_neg (by simp [special_iff, zero_patterns h]), if_pos h]

theorem boundTrig_nonzero (hx : isFinite x = true) (h : ¬(x = 0x00000000 ∨ x = 0x80000000)) :
    boundTrig zero f x = limitUnit (f x) := by
  rw [boundTrig, if_neg (by simp [special_iff, hx]), if_neg h]

/-- The limited unit keeps to [-1, 1] where its value at zero does (R131 S3). -/
theorem boundTrig_range (hzero : ∀ z, z = 0x00000000 ∨ z = 0x80000000 → |val32 (zero z)| ≤ 1) (hx : isFinite x = true) :
    isFinite (boundTrig zero f x) = true ∧ |val32 (boundTrig zero f x)| ≤ 1 := by
  have h : |val32 (boundTrig zero f x)| ≤ 1 := by
    by_cases h0 : x = 0x00000000 ∨ x = 0x80000000
    · rw [boundTrig_zero zero f h0]
      exact hzero x h0
    · rw [boundTrig_nonzero zero f hx h0]
      exact limitUnit_abs_le_one _
  exact ⟨isFinite_of_abs_le_one h, h⟩

end

/-- The limits change no result of an admissible unit. -/
theorem boundTrig_eq_self {f : Word → Word} {real : ℝ → ℝ} {zero : Word → Word} (hf : TrigContract f real zero) :
    boundTrig zero f = f := by
  obtain ⟨hspecial, hzero, hunit, -⟩ := hf
  funext x
  by_cases hx : isNaN x = true ∨ isInf x = true
  · rw [boundTrig_special zero f hx, hspecial x hx]
  · have hfin := isFinite_of_not_special hx
    by_cases h0 : x = 0x00000000 ∨ x = 0x80000000
    · rw [boundTrig_zero zero f h0, hzero x h0]
    · rw [boundTrig_nonzero zero f hfin h0, limitUnit_of_abs_le_one (hunit x hfin).2]

/-- Settles O14: the machine's units are the admissible raw units, which the limits do not change; the rest is said of the limits. -/
theorem trigUnitsKeepExactPointsAndRange : Obligations.TrigUnitsKeepExactPointsAndRange := by
  obtain ⟨hsin, hcos, -⟩ := Config.units.contract
  have hsinA : sinA = Config.units.sine := boundTrig_eq_self hsin
  have hcosA : cosA = Config.units.cosine := boundTrig_eq_self hcos
  refine ⟨⟨hsinA ▸ hsin, hcosA ▸ hcos⟩, fun f x => ?_⟩
  rw [boundSin_eq_boundTrig, boundCos_eq_boundTrig]
  refine ⟨fun h => ⟨boundTrig_special _ f h, boundTrig_special _ f h⟩, boundTrig_zero _ f (.inl rfl),
    boundTrig_zero _ f (.inr rfl), boundTrig_zero _ f (.inl rfl), boundTrig_zero _ f (.inr rfl), fun hx => ⟨?_, ?_⟩⟩
  · exact boundTrig_range _ f (fun z hz => by simp [zero_patterns hz]) hx
  · exact boundTrig_range _ f (fun _ _ => by simp [val32_one]) hx

end Sys2Proof.Proofs
end

section
/-! SUPPORT. The limits of the exponential (spec/41_transcendental.md R132). -/

namespace Sys2Proof.Proofs

open Sys2Proof.Machine Sys2Proof.Laws

/-! ### The argument's pattern and the size of its exponential -/

theorem two_pow_eq_exp (n : ℕ) : (2 : ℝ) ^ n = Real.exp (n * Real.log 2) := by
  rw [Real.exp_nat_mul, Real.exp_log two_pos]

/-- Patterns up to that of `c * 2 ^ 132` units with an exponential below `2 ^ n`. -/
theorem exp_pattern_lt {k t c n : ℕ} (hn : 0 < n) (hk : k ≤ t) (ht : patternUnits t = c * 2 ^ 132)
    (hc : (c : ℝ) / 2 ^ 17 ≤ n * 0.6931471803) : Real.exp ((patternUnits k : ℝ) / 2 ^ 149) < 2 ^ n := by
  have hmono : (patternUnits k : ℝ) ≤ c * 2 ^ 132 := by
    exact_mod_cast (patternUnits_strictMono.monotone hk).trans_eq ht
  have hpos : (0 : ℝ) < n := by exact_mod_cast hn
  rw [two_pow_eq_exp n, Real.exp_lt_exp]
  calc (patternUnits k : ℝ) / 2 ^ 149 ≤ (c : ℝ) * 2 ^ 132 / 2 ^ 149 := by gcongr
    _ = (c : ℝ) / 2 ^ 17 := by ring
    _ ≤ (n : ℝ) * 0.6931471803 := hc
    _ < n * Real.log 2 := by gcongr; exact Real.log_two_gt_d9

/-- Patterns from that of `c * 2 ^ 132` units up with an exponential above `2 ^ n`. -/
theorem two_pow_lt_exp_pattern {k t c n : ℕ} (hn : 0 < n) (hk : t ≤ k) (ht : patternUnits t = c * 2 ^ 132)
    (hc : n * 0.6931471808 ≤ (c : ℝ) / 2 ^ 17) : 2 ^ n < Real.exp ((patternUnits k : ℝ) / 2 ^ 149) := by
  have hmono : c * 2 ^ 132 ≤ (patternUnits k : ℝ) := by
    exact_mod_cast ht.symm.trans_le (patternUnits_strictMono.monotone hk)
  have hpos : (0 : ℝ) < n := by exact_mod_cast hn
  rw [two_pow_eq_exp n, Real.exp_lt_exp]
  calc (n : ℝ) * Real.log 2 < (n : ℝ) * 0.6931471808 := by gcongr; exact Real.log_two_lt_d9
    _ ≤ (c : ℝ) / 2 ^ 17 := hc
    _ = (c : ℝ) * 2 ^ 132 / 2 ^ 149 := by ring
    _ ≤ (patternUnits k : ℝ) / 2 ^ 149 := by gcongr

/-- The five ranges of the exponential that R132 tells apart, each with the limits the model sets in it. -/
theorem expLimits_cases (x : Word) :
    (expLow x = 0x007FFFF8 ∧ expHigh x = 0x3F800008 ∧
        1 / 2 ^ 126 ≤ Real.exp ((val32 x : ℚ) : ℝ) ∧ Real.exp ((val32 x : ℚ) : ℝ) ≤ 1) ∨
      (expLow x = 0 ∧ expHigh x = 0x00800000 ∧ Real.exp ((val32 x : ℚ) : ℝ) < 1 / 2 ^ 126) ∨
      (expLow x = 0x3F7FFFF0 ∧ expHigh x = 0x7F000008 ∧
        1 ≤ Real.exp ((val32 x : ℚ) : ℝ) ∧ Real.exp ((val32 x : ℚ) : ℝ) ≤ 2 ^ 127) ∨
      (expLow x = 0x7EFFFFF0 ∧ expHigh x = 0x7F800000 ∧
        2 ^ 127 < Real.exp ((val32 x : ℚ) : ℝ) ∧ Real.exp ((val32 x : ℚ) : ℝ) < 2 ^ 128) ∨
      (expLow x = 0x7F800000 ∧ expHigh x = 0x7F800000 ∧ 2 ^ 128 ≤ Real.exp ((val32 x : ℚ) : ℝ)) := by
  rw [val32_cast]
  have hs := sign_eq x
  have hx := x.isLt
  have hmag : (0 : ℝ) ≤ (patternUnits (x.toNat % 2 ^ 31) : ℝ) / 2 ^ 149 := by positivity
  unfold expLow expHigh
  cases hsign : sign x
  · have hk : x.toNat % 2 ^ 31 = x.toNat := Nat.mod_eq_of_lt (by simpa [hsign] using hs)
    simp only [Bool.false_eq_true, if_false, one_mul]
    rw [hk] at hmag ⊢
    rcases Nat.lt_or_ge x.toNat 0x42B00F34 with h127 | h127
    · have hlt := exp_pattern_lt (n := 127) (t := 0x42B00F33) (c := 11538227) (by norm_num) (Nat.le_of_lt_succ h127)
        (by decide +kernel) (by norm_num)
      exact .inr (.inr (.inl ⟨by rw [if_neg (by omega), if_neg (by omega)], by rw [if_neg (by omega)],
        Real.one_le_exp hmag, hlt.le⟩))
    · have hgt := two_pow_lt_exp_pattern (n := 127) (t := 0x42B00F34) (c := 11538228) (by norm_num) h127
        (by decide +kernel) (by norm_num)
      rcases Nat.lt_or_ge x.toNat 0x42B17218 with h128 | h128
      · have hlt := exp_pattern_lt (n := 128) (t := 0x42B17217) (c := 11629079) (by norm_num) (Nat.le_of_lt_succ h128)
          (by decide +kernel) (by norm_num)
        exact .inr (.inr (.inr (.inl ⟨by rw [if_neg (by omega), if_pos h127], if_pos h127, hgt, hlt⟩)))
      · have hgt := two_pow_lt_exp_pattern (n := 128) (t := 0x42B17218) (c := 11629080) (by norm_num) h128
          (by decide +kernel) (by norm_num)
        exact .inr (.inr (.inr (.inr ⟨if_pos h128, if_pos h127, hgt.le⟩)))
  · have hk : x.toNat % 2 ^ 31 = x.toNat - 2 ^ 31 := by
      have : 2 ^ 31 ≤ x.toNat := by simpa [hsign] using hs
      omega
    simp only [if_true, neg_one_mul, Real.exp_neg, one_div]
    rw [hk] at hmag ⊢
    rcases Nat.lt_or_ge x.toNat 0xC2AEAC50 with h126 | h126
    · have hlt := exp_pattern_lt (k := x.toNat - 2 ^ 31) (n := 126) (t := 0x42AEAC4F) (c := 11447375) (by norm_num) (by omega)
        (by decide +kernel) (by norm_num)
      exact .inl ⟨if_pos h126, if_pos h126, inv_anti₀ (Real.exp_pos _) hlt.le, inv_le_one_of_one_le₀ (Real.one_le_exp hmag)⟩
    · have hgt := two_pow_lt_exp_pattern (k := x.toNat - 2 ^ 31) (n := 126) (t := 0x42AEAC50) (c := 11447376) (by norm_num)
        (by omega) (by decide +kernel) (by norm_num)
      exact .inr (.inl ⟨if_neg (by omega), if_neg (by omega), inv_strictAnti₀ (by positivity) hgt⟩)

/-! ### What the limits do, whatever the raw result is -/

section
variable (f : Word → Word) {x : Word}

theorem boundExp_nan (h : isNaN x = true) : boundExp f x = cnan := if_pos h

theorem boundExp_posInf : boundExp f posInf = posInf := rfl

theorem boundExp_negInf : boundExp f negInf = 0x00000000 := rfl

theorem boundExp_finite (hx : isFinite x = true) :
    boundExp f x = if x = 0x00000000 ∨ x = 0x80000000 then one32
      else BitVec.ofNat 32 (max (expLow x) (min (f x).toNat (expHigh x))) := by
  have hn : ∀ y, isFinite y = false → x ≠ y := fun y hy e => by rw [e, hy] at hx; cases hx
  rw [boundExp, if_neg (fun h => by rw [not_finite (.inl h)] at hx; cases hx), if_neg (hn _ (by decide)),
    if_neg (hn _ (by decide))]

theorem boundExp_zero (h : x = 0x00000000 ∨ x = 0x80000000) : boundExp f x = one32 := by
  rw [boundExp_finite f (zero_patterns h).1, if_pos h]

/-- The pattern of a result lies between its limits; so does that of 1.0, the result at zero. -/
theorem boundExp_between (hx : isFinite x = true) :
    expLow x ≤ (boundExp f x).toNat ∧ (boundExp f x).toNat ≤ expHigh x := by
  rw [boundExp_finite f hx]
  by_cases h0 : x = 0x00000000 ∨ x = 0x80000000
  · rw [if_pos h0]
    rcases h0 with rfl | rfl <;> decide
  · have hle : expLow x ≤ expHigh x ∧ expHigh x < 2 ^ 32 := by
      rcases expLimits_cases x with ⟨hlo, hhi, -⟩ | ⟨hlo, hhi, -⟩ | ⟨hlo, hhi, -⟩ | ⟨hlo, hhi, -⟩ | ⟨hlo, hhi, -⟩ <;>
        rw [hlo, hhi] <;> decide
    rw [if_neg h0, BitVec.toNat_ofNat]
    omega

end

/-- 2^-126, the least normal number, in bits. -/
theorem val32_le_min_normal_iff {w : Word} (hs : sign w = false) : val32 w ≤ 1 / 2 ^ 126 ↔ w.toNat ≤ 0x00800000 := by
  have hmin : val32 (0x00800000 : Word) = 1 / 2 ^ 126 := by
    rw [val32, show units 0x00800000 = 2 ^ 23 by decide]
    norm_num
  rw [← hmin]
  exact val32_le_iff hs (by decide)

/-! ### The limits change no admissible result -/

/-- The pattern of a number close to one of `c` or more is above every pattern clearly below `c`. -/
theorem lt_toNat_of_near {w : Word} (hs : sign w = false) {e c : ℝ} (hnear : |((val32 w : ℚ) : ℝ) - e| ≤ (transTol : ℚ) * e)
    (hc : c ≤ e) {n u : ℕ} (hn : n < 2 ^ 31) (hu : patternUnits n = u) (h : (u : ℝ) / 2 ^ 149 < (1 - 1 / 10 ^ 6) * c) :
    n < w.toNat := by
  refine lt_toNat_of_val hs hn ?_
  obtain ⟨hmod, hsign⟩ := pattern_toNat hn
  rw [← Rat.cast_lt (K := ℝ), val32_cast, hmod, hsign, Nat.mod_eq_of_lt hn, hu]
  simp only [transTol, Bool.false_eq_true, if_false, one_mul] at hnear ⊢
  push_cast at hnear
  linarith [(abs_le.1 hnear).1]

/-- The pattern of a number close to one of `c` or less is below every pattern clearly above `c`. -/
theorem toNat_le_of_near {w : Word} (hs : sign w = false) {e c : ℝ} (hnear : |((val32 w : ℚ) : ℝ) - e| ≤ (transTol : ℚ) * e)
    (hc : e ≤ c) {n u : ℕ} (hn : n + 1 < 2 ^ 31) (hu : patternUnits (n + 1) = u)
    (h : (1 + 1 / 10 ^ 6) * c < (u : ℝ) / 2 ^ 149) : w.toNat ≤ n := by
  refine toNat_le_of_val hs hn ?_
  obtain ⟨hmod, hsign⟩ := pattern_toNat hn
  rw [← Rat.cast_lt (K := ℝ), val32_cast (BitVec.ofNat 32 (n + 1)), hmod, hsign, Nat.mod_eq_of_lt hn, hu]
  simp only [transTol, Bool.false_eq_true, if_false, one_mul] at hnear ⊢
  push_cast at hnear
  linarith [(abs_le.1 hnear).2]

/-- An admissible unit's result at a finite argument lies between the limits (R132 E4 to E6). -/
theorem between_of_contract {f : Word → Word} (hf : ExpContract f) {x : Word} (hx : isFinite x = true) :
    expLow x ≤ (f x).toNat ∧ (f x).toNat ≤ expHigh x := by
  obtain ⟨-, -, -, -, hsign, hnormal, hinf, hedge, hsmall⟩ := hf
  obtain ⟨-, hs⟩ := hsign x hx
  rcases expLimits_cases x with ⟨hlo, hhi, h1, h2⟩ | ⟨hlo, hhi, h1⟩ | ⟨hlo, hhi, h1, h2⟩ | ⟨hlo, hhi, h1, h2⟩ | ⟨hlo, hhi, h1⟩ <;>
    rw [hlo, hhi]
  · obtain ⟨-, hnear⟩ := hnormal x hx h1 (h2.trans (by norm_num))
    exact ⟨lt_toNat_of_near hs hnear h1 (n := 0x007FFFF7) (u := 2 ^ 23 - 9) (by norm_num) (by decide) (by norm_num),
      toNat_le_of_near hs hnear h2 (u := (2 ^ 23 + 9) * 2 ^ 126) (by norm_num) (by decide +kernel) (by norm_num)⟩
  · obtain ⟨-, -, hle⟩ := hsmall x hx h1
    exact ⟨Nat.zero_le _, (val32_le_min_normal_iff hs).1 hle⟩
  · obtain ⟨-, hnear⟩ := hnormal x hx (le_trans (by norm_num) h1) h2
    exact ⟨lt_toNat_of_near hs hnear h1 (n := 0x3F7FFFEF) (u := (2 ^ 24 - 17) * 2 ^ 125) (by norm_num) (by decide +kernel)
        (by norm_num),
      toNat_le_of_near hs hnear h2 (u := (2 ^ 23 + 9) * 2 ^ 253) (by norm_num) (by decide +kernel) (by norm_num)⟩
  · rcases hedge x hx h1 h2 with hpos | ⟨hfin, hnear⟩
    · rw [hpos]
      decide
    · exact ⟨lt_toNat_of_near hs hnear h1.le (n := 0x7EFFFFEF) (u := (2 ^ 24 - 17) * 2 ^ 252) (by norm_num) (by decide +kernel)
        (by norm_num), ((lt_posInf_iff _).2 ⟨hfin, hs⟩).le⟩
  · rw [hinf x hx h1]
    decide

/-- The limits change no result of an admissible exponential unit. -/
theorem boundExp_eq_self {f : Word → Word} (hf : ExpContract f) : boundExp f = f := by
  have hbetween := fun x => between_of_contract hf (x := x)
  obtain ⟨hnan, hpos, hneg, hzero, -⟩ := hf
  funext x
  by_cases hx : isFinite x = true
  · by_cases h0 : x = 0x00000000 ∨ x = 0x80000000
    · rw [boundExp_zero f h0, hzero x h0]
    · obtain ⟨hlo, hhi⟩ := hbetween x hx
      rw [boundExp_finite f hx, if_neg h0, min_eq_left hhi, max_eq_right hlo, BitVec.ofNat_toNat, BitVec.setWidth_eq]
  · by_cases hn : isNaN x = true
    · rw [boundExp_nan f hn, hnan x hn]
    · have hinf : x = posInf ∨ x = negInf := by
        rw [isFinite_iff] at hx
        rw [isNaN_iff] at hn
        rw [← BitVec.toNat_inj, ← BitVec.toNat_inj, show posInf.toNat = 0x7F800000 by decide,
          show negInf.toNat = 0xFF800000 by decide]
        have := x.isLt
        omega
      rcases hinf with rfl | rfl
      · rw [boundExp_posInf, hpos]
      · rw [boundExp_negInf, hneg]

/-- Every limit is at most +infinity's pattern; E4: it is a finite one's where e ≤ 2^127. -/
theorem expHigh_finite (x : Word) :
    expHigh x ≤ 0x7F800000 ∧ (Real.exp ((val32 x : ℚ) : ℝ) ≤ 2 ^ 127 → expHigh x < 0x7F800000) := by
  rcases expLimits_cases x with ⟨-, h, -⟩ | ⟨-, h, -⟩ | ⟨-, h, -⟩ | ⟨-, h, hgt, -⟩ | ⟨-, h, hge⟩ <;> rw [h]
  · exact ⟨by decide, fun _ => by decide⟩
  · exact ⟨by decide, fun _ => by decide⟩
  · exact ⟨by decide, fun _ => by decide⟩
  · exact ⟨le_rfl, fun he => by linarith only [he, hgt]⟩
  · exact ⟨le_rfl, fun he => by linarith only [he, hge]⟩

/-- E5: from 2^128 up the least pattern allowed is +infinity's. -/
theorem expLow_infinite {x : Word} (he : 2 ^ 128 ≤ Real.exp ((val32 x : ℚ) : ℝ)) : expLow x = 0x7F800000 := by
  rcases expLimits_cases x with ⟨-, -, -, h⟩ | ⟨-, -, h⟩ | ⟨-, -, -, h⟩ | ⟨-, -, -, h⟩ | ⟨h, -⟩
  · linarith only [he, h]
  · linarith only [he, h]
  · linarith only [he, h]
  · linarith only [he, h]
  · exact h

/-- E6: below 2^-126 the greatest pattern allowed is that of 2^-126. -/
theorem expHigh_small {x : Word} (he : Real.exp ((val32 x : ℚ) : ℝ) < 1 / 2 ^ 126) : expHigh x = 0x00800000 := by
  rcases expLimits_cases x with ⟨-, -, h, -⟩ | ⟨-, h, -⟩ | ⟨-, -, h, -⟩ | ⟨-, -, h, -⟩ | ⟨-, -, h⟩
  · linarith only [he, h]
  · exact h
  · linarith only [he, h]
  · linarith only [he, h]
  · linarith only [he, h]

/-- The range rules of R132 hold of every pattern between the limits. -/
theorem range_of_between {x r : Word} (hlo : expLow x ≤ r.toNat) (hhi : r.toNat ≤ expHigh x) :
    (isNaN r = false ∧ sign r = false) ∧
      (Real.exp ((val32 x : ℚ) : ℝ) ≤ 2 ^ 127 → isFinite r = true) ∧
      (2 ^ 128 ≤ Real.exp ((val32 x : ℚ) : ℝ) → r = posInf) ∧
      (Real.exp ((val32 x : ℚ) : ℝ) < 1 / 2 ^ 126 → 0 ≤ val32 r ∧ val32 r ≤ 1 / 2 ^ 126) := by
  obtain ⟨hmax, hfinite⟩ := expHigh_finite x
  have hle := hhi.trans hmax
  obtain ⟨hnan, hs⟩ := (le_posInf_iff r).1 hle
  refine ⟨⟨hnan, hs⟩, fun he => ?_, fun he => ?_, fun he => ?_⟩
  · exact ((lt_posInf_iff r).1 (hhi.trans_lt (hfinite he))).1
  · rw [expLow_infinite he] at hlo
    exact BitVec.eq_of_toNat_eq (le_antisymm hle hlo)
  · rw [expHigh_small he] at hhi
    exact ⟨val32_nonneg hs, (val32_le_min_normal_iff hs).2 hhi⟩

/-- Settles O15: the machine's unit is the admissible raw unit, which the limits do not change; the rest is said of the limits. -/
theorem exponentialUnitKeepsItsRange : Obligations.ExponentialUnitKeepsItsRange := by
  obtain ⟨-, -, hexp⟩ := Config.units.contract
  have hexpA : expA = Config.units.exponential := boundExp_eq_self hexp
  refine ⟨hexpA ▸ hexp, fun f x => ⟨boundExp_nan f, boundExp_posInf f, boundExp_negInf f, boundExp_zero f (.inl rfl),
    boundExp_zero f (.inr rfl), fun hx => ?_⟩⟩
  obtain ⟨hlo, hhi⟩ := boundExp_between f hx
  exact range_of_between hlo hhi

end Sys2Proof.Proofs
end

