-- ==== Sys2Proof/Proofs/AgentStep.lean ====
section
/-! SUPPORT. What one step of the block can do (spec/20_memory.md R58), said once for all events: the fields of the model's own that
it sets, and around them the step of one agent in six shapes. Every statement about every step is proved from these shapes. -/

namespace Sys2Proof.Proofs

open Sys2Proof.Machine Sys2Proof.Laws

theorem claimEnabled_iff (s : State) (w r : ℕ) :
    claimEnabled s w r = true ↔
      s.fstate = .running ∧ r ∈ s.unclaimed ∧ w < s.workers.length ∧ (s.worker w).wstate = .idle := by
  simp [claimEnabled, and_assoc]

theorem workEnabled_iff (s : State) (w : ℕ) :
    workEnabled s w = true ↔ s.fstate = .running ∧ w < s.workers.length ∧ (s.worker w).wstate = .active := by
  simp [workEnabled, and_assoc]

/-- The executing worker can take an instruction step (spec/10_state.md R25). -/
structure Executing (s : State) : Prop where
  running : s.fstate = .running
  turn_lt : s.turn < s.workers.length
  active : s.me.wstate = .active

/-- What the step of an agent other than the reset input can do. -/
inductive AgentStep (s t : State) : Prop where
  /-- The agent's step is not enabled. -/
  | stay (ht : t = s)
  /-- A host access, before its answer is noted. -/
  | host (h : HostShape s t)
  /-- A claim of a row (spec/45_row_dispatch.md R236). -/
  | claim (w r : ℕ) (h : claimEnabled s w r = true) (ht : t = claimRow s w r)
  /-- A kernel fault is recorded (spec/60_exceptions.md R302). -/
  | fault (h : Executing s) (c : FaultCode) (ht : t = raiseFault c s)
  /-- END. -/
  | ended (h : Executing s) (ht : t = endInvocation s)
  /-- LOOP starts its loop. -/
  | looped (h : Executing s) (hpc : s.me.pc < s.params.progDepth) (count len : BitVec 8)
      (hb : loopOutOfBounds s count len = false) (ht : t = advance (setLoop s count len))
  /-- Registers or framebuffer bytes are written. -/
  | ran (h : Executing s) (hpc : s.me.pc < s.params.progDepth) (v : Vector Lanes 32) (hv : LanesFrom s v)
      (ws : List (ℕ × Byte)) (hw : ∀ p ∈ ws, p.1 < s.params.fbCapacity)
      (ht : t = { s.setMe { s.me with v := v }.advance with fb := (fbPutAll s ws).fb })

/-- The byte writes of STQ with the advance: the framebuffer and the executing worker change. -/
theorem advance_fbPutAll (s : State) (ws : List (ℕ × Byte)) :
    advance (fbPutAll s ws) = { advance s with fb := (fbPutAll s ws).fb } := by
  conv_lhs => rw [fbPutAll_eq]
  rfl

theorem agentStep_of_shape {i : Instr} {s t : State} (hx : Executing s) (hpc : s.me.pc < s.params.progDepth)
    (h : Shape i s t) : AgentStep s t := by
  cases h with
  | fault c _ ht => exact .fault hx c ht
  | ended _ ht => exact .ended hx ht
  | looped count len _ _ hb ht => exact .looped hx hpc count len hb ht
  | written v _ hv ht => exact .ran hx hpc v hv [] (by simp) ht
  | stored ra ch _ hw ht =>
    exact .ran hx hpc s.me.v (lanesFrom_me s) (stqWrites s ra ch) hw (ht.trans (advance_fbPutAll s _))

theorem agentStep_of_fetchExecute {s t : State} (hx : Executing s) (h : fetchExecute s = .next t) : AgentStep s t := by
  rcases fetchExecute_cases s with ⟨-, e⟩ | ⟨c, -, -, e⟩ | ⟨i, hpc, -, e⟩
  · rw [e] at h
    exact .fault hx _ (by injection h with h; exact h.symm)
  · rw [e] at h
    exact .fault hx c (by injection h with h; exact h.symm)
  · exact agentStep_of_shape hx hpc (exec_cases hx.turn_lt (e ▸ h))

/-- The model's own fields set: the agenda, the tick and the turn (notes/assumptions/1.md, 2.md). -/
def scheduled (s : State) (agenda : List Event) (tick turn : ℕ) : State :=
  { s with agenda := agenda, tick := tick, turn := turn }

/-- The model's own answer to the host set (notes/assumptions/3.md). -/
def answered (s : State) (r : Response) : State := { s with resp := r }

/-- What a step can do: the reset step at a reset event, and else the step of another agent. -/
theorem step_cases {s t : State} (h : step s = .next t) :
    ∃ agenda tick turn r m, t = answered m r ∧
      ((nextEvent s = .reset ∧ m = resetStep (scheduled s agenda tick turn)) ∨ AgentStep (scheduled s agenda tick turn) m) := by
  rw [step_eq, show takeEvent s = scheduled s (takeEvent s).agenda (takeEvent s).tick s.turn from takeEvent_eq s] at h
  rcases perform_cases h with ⟨he, ht⟩ | ⟨op, -, ht⟩ | ⟨w, r, -, hc, ht⟩ | ⟨w, -, hw, hx⟩ | ht
  · exact ⟨_, _, _, t.resp, t, rfl, .inl ⟨he, ht⟩⟩
  · obtain ⟨m, r, hm, e⟩ := hostStep_cases op (scheduled s (takeEvent s).agenda (takeEvent s).tick s.turn)
    exact ⟨_, _, _, r, m, ht.trans e, .inr (.host hm)⟩
  · exact ⟨_, _, _, t.resp, t, rfl, .inr (.claim w r hc ht)⟩
  · obtain ⟨hf, hlt, ha⟩ := (workEnabled_iff _ _).1 hw
    exact ⟨_, _, w, t.resp, t, rfl, .inr (agentStep_of_fetchExecute ⟨hf, hlt, ha⟩ hx)⟩
  · exact ⟨_, _, _, t.resp, t, rfl, .inr (.stay ht)⟩

/-- The rule for an invariant of the block: it looks at none of the model's own fields, and the reset step and every agent's step
keep it. -/
theorem step_keeps {P : State → Prop} (hown : ∀ s agenda tick turn, P s → P (scheduled s agenda tick turn))
    (hresp : ∀ s r, P s → P (answered s r)) (hreset : ∀ s, P s → P (resetStep s))
    (hagent : ∀ s t, P s → AgentStep s t → P t) : ∀ s t, P s → step s = .next t → P t := by
  intro s t hs h
  obtain ⟨agenda, tick, turn, r, m, rfl, ⟨-, rfl⟩ | hm⟩ := step_cases h
  · exact hresp _ _ (hreset _ (hown s agenda tick turn hs))
  · exact hresp _ _ (hagent _ _ (hown s agenda tick turn hs) hm)

end Sys2Proof.Proofs
end

