-- ==== Sys2Proof/Proofs/Reset.lean ====
section
/-! SUPPORT. The state after a reset meets every invariant, for all legal parameters (spec/10_state.md R49). -/

namespace Sys2Proof.Proofs

open Sys2Proof.Machine Sys2Proof.Laws

theorem length_zeroLanes (l : ℕ) : (zeroLanes l).length = l := List.length_replicate

/-- Registers of zeros hold L lanes each (spec/10_state.md R22). -/
theorem length_zeroRegisters (l : ℕ) (r : VReg) : ((Vector.replicate 32 (zeroLanes l))[r]).length = l := by
  simp [length_zeroLanes]

section

variable (p : Params) (fb : Memory) (agenda : List Event) (tick : ℕ)

theorem mem_resetWith_workers {u : Worker} (h : u ∈ (State.resetWith p fb agenda tick).workers) :
    u = Worker.atReset p.laneWidth :=
  List.eq_of_mem_replicate h

theorem resetProg_below : ∀ q ∈ resetProg, q.1 < 72 := by decide +kernel

theorem resetWith_storageOk (hp : p.Legal) (hfb : Memory.wf fb ∧ ∀ q ∈ fb, q.1 < p.fbCapacity) :
    StorageOk (State.resetWith p fb agenda tick) := by
  refine ⟨hp, List.length_replicate, fun u hu r => ?_, hfb, resetProg_wf, fun q hq => ?_⟩
  · rw [mem_resetWith_workers p fb agenda tick hu]
    exact length_zeroRegisters _ r
  · obtain ⟨-, -, ⟨hdepth, -⟩, -⟩ := hp
    exact (resetProg_below q hq).trans_le hdepth

theorem resetWith_statusOk : StatusOk (State.resetWith p fb agenda tick) := by
  simp [StatusOk, State.resetWith]

theorem resetWith_dispatchOk : DispatchOk (State.resetWith p fb agenda tick) := by
  refine ⟨fun _ => ⟨rfl, fun u hu => ?_⟩, fun h => nomatch h⟩
  rw [mem_resetWith_workers p fb agenda tick hu]
  rfl

theorem resetWith_sequenceOk : SequenceOk (State.resetWith p fb agenda tick) := by
  refine ⟨fun u hu => ?_, fun h => nomatch h⟩
  rw [mem_resetWith_workers p fb agenda tick hu]
  exact ⟨Nat.zero_le _, by simp [Worker.atReset], fun _ => rfl⟩

end

/-- Settles O48. -/
theorem resetMeetsEveryInvariant : Obligations.ResetMeetsEveryInvariant :=
  ⟨resetWith_storageOk _ _ _ _ (by decide) ⟨List.Pairwise.nil, by simp⟩, resetWith_statusOk _ _ _ _,
    resetWith_dispatchOk _ _ _ _, resetWith_sequenceOk _ _ _ _⟩

end Sys2Proof.Proofs
end

