-- ==== Sys2Proof/Proofs/StorageForm.lean ====
section
/-! SUPPORT. The storage's form (spec/10_state.md R21, R31, R45, R47) is kept by every operation a step is made of. -/

namespace Sys2Proof.Proofs

open Sys2Proof.Machine Sys2Proof.Laws

/-- What holds of every worker holds of every worker still when one is replaced by a worker of which it holds. -/
theorem forall_mem_set {α : Type} {P : α → Prop} {ws : List α} (h : ∀ u ∈ ws, P u) {w : ℕ} {u : α} (hu : P u) :
    ∀ x ∈ ws.set w u, P x := by
  intro x hx
  rcases List.mem_or_eq_of_mem_set hx with hx | rfl
  · exact h x hx
  · exact hu

variable {s t : State}

theorem storageOk_setWorker (h : StorageOk s) (w : ℕ) {u : Worker} (hu : ∀ r : VReg, u.v[r].length = s.params.laneWidth) :
    StorageOk (s.setWorker w u) := by
  obtain ⟨hp, hn, hl, hmem⟩ := h
  exact ⟨hp, by simpa using hn, forall_mem_set hl hu, hmem⟩

/-- Every register of every worker number, one past the last included, holds L lanes. -/
theorem length_worker_reg (h : StorageOk s) (w : ℕ) (r : VReg) : (s.worker w).v[r].length = s.params.laneWidth := by
  obtain ⟨-, -, hl, -⟩ := h
  by_cases hw : w < s.workers.length
  · exact hl _ (worker_mem s hw) r
  · rw [State.worker, List.getD_eq_default _ _ (not_lt.1 hw)]
    exact length_zeroRegisters _ r

theorem length_of_lanesFrom {v : Vector Lanes 32} (h : StorageOk s) (hv : LanesFrom s v) (r : VReg) :
    v[r].length = s.params.laneWidth := by
  rcases hv r with hr | ⟨q, hq⟩
  · exact hr
  · rw [hq]
    exact length_worker_reg h s.turn q

theorem storageOk_takeRow (h : StorageOk s) (w r : ℕ) : StorageOk (takeRow s w r) :=
  storageOk_setWorker h w (length_worker_reg h w)

theorem storageOk_startInvocation (h : StorageOk s) (w g r : ℕ) : StorageOk (startInvocation s w g r) :=
  storageOk_setWorker h w (length_zeroRegisters _)

theorem storageOk_completeRow (h : StorageOk s) (w r : ℕ) : StorageOk (completeRow s w r) := by
  have hf : StorageOk (finishRow s w r) := storageOk_setWorker h w (length_worker_reg h w)
  rcases completeRow_cases s w r with ⟨-, e⟩ | ⟨-, e⟩ <;> rw [e] <;> exact hf

theorem storageOk_claimRow (h : StorageOk s) (w r : ℕ) : StorageOk (claimRow s w r) := by
  rcases claimRow_cases s w r with ⟨-, e⟩ | ⟨-, e⟩ <;> rw [e]
  · exact storageOk_completeRow (storageOk_takeRow h w r) w r
  · exact storageOk_startInvocation (storageOk_takeRow h w r) w 0 r

theorem storageOk_endInvocation (h : StorageOk s) : StorageOk (endInvocation s) := by
  rcases endInvocation_cases s with ⟨-, e⟩ | ⟨-, e⟩ <;> rw [e]
  · exact storageOk_startInvocation h _ _ _
  · exact storageOk_completeRow h _ _

theorem storageOk_raiseFault (h : StorageOk s) (c : FaultCode) : StorageOk (raiseFault c s) := by
  obtain ⟨hp, hn, hl, hmem⟩ := h
  refine ⟨hp, by simpa using hn, fun u hu r => ?_, hmem⟩
  obtain ⟨u', hu', rfl⟩ := List.mem_map.1 hu
  exact hl u' hu' r

theorem storageOk_fbPutAll (h : StorageOk s) {ws : List (ℕ × Byte)} (hw : ∀ p ∈ ws, p.1 < s.params.fbCapacity) :
    StorageOk { s with fb := (fbPutAll s ws).fb } := by
  obtain ⟨hp, hn, hl, ⟨hwf, hbelow⟩, hprog⟩ := h
  exact ⟨hp, hn, hl, ⟨fbPutAll_wf hwf ws, fbPutAll_below hbelow hw⟩, hprog⟩

theorem storageOk_setProg (h : StorageOk s) {k : ℕ} (hk : k < s.params.progDepth) (v : Word) :
    StorageOk (setProg s k v) := by
  obtain ⟨hp, hn, hl, hfb, hwf, hbelow⟩ := h
  exact ⟨hp, hn, hl, hfb, setProg_wf hwf k v, setProg_below hbelow hk v⟩

theorem storageOk_startRequest (h : StorageOk s) : StorageOk (startRequest s) := by
  rcases startRequest_cases s with ⟨-, e⟩ | ⟨c, -, -, e⟩ | ⟨-, -, e⟩ <;> rw [e] <;> exact h

theorem storageOk_host (h : StorageOk s) (hm : HostShape s t) : StorageOk t := by
  cases hm with
  | same ht => exact ht ▸ h
  | start ht => exact ht ▸ storageOk_startRequest h
  | status v ht =>
    rw [ht, writeStatus_eq]
    exact h
  | irqen d e ht => exact ht ▸ h
  | config _ w h' t q k ht => exact ht ▸ h
  | program _ k hk v ht => exact ht ▸ storageOk_setProg h hk v
  | bytes ws hw ht =>
    rw [ht, fbPutAll_eq]
    exact storageOk_fbPutAll h hw

theorem storageOk_agentStep (h : StorageOk s) (ha : AgentStep s t) : StorageOk t := by
  cases ha with
  | stay ht => exact ht ▸ h
  | host hm => exact storageOk_host h hm
  | claim w r _ ht => exact ht ▸ storageOk_claimRow h w r
  | fault _ c ht => exact ht ▸ storageOk_raiseFault h c
  | ended _ ht => exact ht ▸ storageOk_endInvocation h
  | looped hx _ count len _ ht =>
    rw [ht, setLoop, advance_setMe s _ hx.turn_lt]
    refine storageOk_setWorker h _ fun r => ?_
    rw [Worker.advance_v]
    exact length_worker_reg h s.turn r
  | ran _ _ v hv ws hw ht =>
    rw [ht]
    refine storageOk_setWorker (storageOk_fbPutAll h hw) s.turn fun r => ?_
    rw [Worker.advance_v]
    exact length_of_lanesFrom h hv r

/-- Settles O49, by the shapes of an agent's step. -/
theorem stepKeepsStorageForm : Obligations.StepKeepsStorageForm := by
  refine step_keeps (fun _ _ _ _ h => h) (fun _ _ h => h) (fun s h => ?_) fun _ _ => storageOk_agentStep
  obtain ⟨hp, -, -, hfb, -⟩ := h
  exact resetWith_storageOk _ _ _ _ hp hfb

end Sys2Proof.Proofs
end

