-- ==== Sys2Proof/Proofs/LoopRecords.lean ====
section
/-! SUPPORT. The workers' pc and loop records (spec/10_state.md R23, R24) under the advance, LOOP and the invocation start, and the
invariant on them. -/

namespace Sys2Proof.Proofs

open Sys2Proof.Machine Sys2Proof.Laws

/-- A host access other than START changes nothing of the workers, of the rows or of the frame. -/
theorem hostShape_cases {s t : State} (h : HostShape s t) :
    t = startRequest s ∨
      t = { s with
        done := t.done, err := t.err, errCode := t.errCode, doneIE := t.doneIE, errIE := t.errIE
        width := t.width, height := t.height, time := t.time, qmode := t.qmode, kentry := t.kentry
        prog := t.prog, fb := t.fb } := by
  cases h with
  | same ht => exact .inr (ht ▸ rfl)
  | start ht => exact .inl ht
  | status v ht =>
    rw [ht, writeStatus_eq]
    exact .inr rfl
  | irqen d e ht => exact .inr (ht ▸ rfl)
  | config _ w h' t q k ht => exact .inr (ht ▸ rfl)
  | program _ k _ v ht => exact .inr (ht ▸ rfl)
  | bytes ws _ ht =>
    rw [ht, fbPutAll_eq]
    exact .inr rfl

/-! ### One worker -/

theorem advance_loopOk {depth : ℕ} {u : Worker} (h : u.LoopOk depth) (hpc : u.pc < depth) : u.advance.LoopOk depth := by
  obtain ⟨-, hin, hout⟩ := h
  unfold Worker.advance
  split_ifs with hend hmore
  · obtain ⟨hact, -⟩ := hend
    obtain ⟨h1, h2, h3, h4, h5, h6⟩ := hin hact
    exact ⟨by simp only; omega, fun _ => ⟨h1, le_refl _, h2.trans h3, h4, by bv_omega, by bv_omega⟩, by simp [hact]⟩
  · exact ⟨hpc, by simp, fun _ => rfl⟩
  · refine ⟨hpc, fun hact => ?_, hout⟩
    obtain ⟨h1, h2, h3, h4, h5, h6⟩ := hin hact
    have hne : u.pc ≠ u.lend := fun e => hend ⟨hact, e⟩
    exact ⟨h1, by simp only; omega, by simp only; omega, h4, h5, h6⟩

/-- What LOOP's checks say where they pass (spec/43_sequencing.md R173). -/
theorem loopOutOfBounds_eq_false {s : State} {count len : BitVec 8} (h : loopOutOfBounds s count len = false) :
    1 ≤ count ∧ 1 ≤ len.toNat ∧ s.me.pc + len.toNat < s.params.progDepth := by
  simp only [loopOutOfBounds, Bool.or_eq_false_iff, beq_eq_false_iff_ne, decide_eq_false_iff_not, not_le] at h
  obtain ⟨⟨hc, hl⟩, hb⟩ := h
  exact ⟨by bv_omega, by bv_omega, hb⟩

/-- The worker after LOOP's advance stands at the first word of its body, in run 1. -/
theorem looped_loopOk {s : State} {count len : BitVec 8} (h : loopOutOfBounds s count len = false) :
    Worker.LoopOk s.params.progDepth
      { s.me with
        lactive := true, lstart := s.me.pc + 1, lend := s.me.pc + len.toNat, lcount := count, liter := 1 }.advance := by
  obtain ⟨hc, hl, hb⟩ := loopOutOfBounds_eq_false h
  have hne : ¬s.me.pc = s.me.pc + len.toNat := by omega
  simp only [Worker.advance, hne, and_false, if_false]
  exact ⟨by simp only; omega, fun _ => ⟨by simp, le_refl _, by simp only; omega, hb, by simp, hc⟩, by simp⟩

/-! ### The block -/

variable {s t : State}

theorem sequenceOk_setWorker (h : SequenceOk s) (w : ℕ) {u : Worker} (hu : u.LoopOk s.params.progDepth) :
    SequenceOk (s.setWorker w u) :=
  ⟨forall_mem_set h.1 hu, h.2⟩

theorem worker_loopOk (h : SequenceOk s) {w : ℕ} (hw : w < s.workers.length) :
    (s.worker w).LoopOk s.params.progDepth :=
  h.1 _ (worker_mem s hw)

theorem sequenceOk_takeRow (h : SequenceOk s) {w : ℕ} (hw : w < s.workers.length) (r : ℕ) : SequenceOk (takeRow s w r) :=
  sequenceOk_setWorker h w (worker_loopOk h hw)

theorem sequenceOk_startInvocation (h : SequenceOk s) (hr : s.fstate = .running) (w g r : ℕ) :
    SequenceOk (startInvocation s w g r) :=
  sequenceOk_setWorker h w ⟨(h.2 hr).le, by simp, fun _ => rfl⟩

theorem sequenceOk_completeRow (h : SequenceOk s) {w : ℕ} (hw : w < s.workers.length) (r : ℕ) :
    SequenceOk (completeRow s w r) := by
  have hf : SequenceOk (finishRow s w r) := sequenceOk_setWorker h w (worker_loopOk h hw)
  rcases completeRow_cases s w r with ⟨-, e⟩ | ⟨-, e⟩ <;> rw [e]
  · exact ⟨hf.1, by simp⟩
  · exact hf

theorem sequenceOk_claimRow (h : SequenceOk s) {w r : ℕ} (hc : claimEnabled s w r = true) : SequenceOk (claimRow s w r) := by
  obtain ⟨hr, -, hw, -⟩ := (claimEnabled_iff s w r).1 hc
  have ht : SequenceOk (takeRow s w r) := sequenceOk_takeRow h hw r
  rcases claimRow_cases s w r with ⟨-, e⟩ | ⟨-, e⟩ <;> rw [e]
  · exact sequenceOk_completeRow ht (by simpa [takeRow] using hw) r
  · exact sequenceOk_startInvocation ht hr w 0 r

theorem sequenceOk_endInvocation (h : SequenceOk s) (hx : Executing s) : SequenceOk (endInvocation s) := by
  rcases endInvocation_cases s with ⟨-, e⟩ | ⟨-, e⟩ <;> rw [e]
  · exact sequenceOk_startInvocation h hx.running _ _ _
  · exact sequenceOk_completeRow h hx.turn_lt _

theorem sequenceOk_raiseFault (h : SequenceOk s) (c : FaultCode) : SequenceOk (raiseFault c s) := by
  refine ⟨fun u hu => ?_, by simp⟩
  obtain ⟨u', hu', rfl⟩ := List.mem_map.1 hu
  exact h.1 u' hu'

theorem sequenceOk_startRequest (h : SequenceOk s) : SequenceOk (startRequest s) := by
  rcases startRequest_cases s with ⟨-, e⟩ | ⟨c, -, -, e⟩ | ⟨-, hv, e⟩ <;> rw [e]
  · exact h
  · exact h
  · obtain ⟨-, -, -, hentry⟩ := validate_none hv
    exact ⟨h.1, fun _ => hentry⟩

theorem sequenceOk_host (h : SequenceOk s) (hm : HostShape s t) : SequenceOk t := by
  rcases hostShape_cases hm with rfl | e
  · exact sequenceOk_startRequest h
  · rw [e]
    exact h

theorem sequenceOk_agentStep (h : SequenceOk s) (ha : AgentStep s t) : SequenceOk t := by
  cases ha with
  | stay ht => exact ht ▸ h
  | host hm => exact sequenceOk_host h hm
  | claim w r hc ht => exact ht ▸ sequenceOk_claimRow h hc
  | fault _ c ht => exact ht ▸ sequenceOk_raiseFault h c
  | ended hx ht => exact ht ▸ sequenceOk_endInvocation h hx
  | looped hx _ count len hb ht =>
    rw [ht, setLoop, advance_setMe s _ hx.turn_lt]
    exact sequenceOk_setWorker h _ (looped_loopOk hb)
  | ran hx hpc v _ ws _ ht =>
    rw [ht]
    have hu : Worker.LoopOk s.params.progDepth { s.me with v := v } := worker_loopOk h hx.turn_lt
    exact sequenceOk_setWorker h s.turn (advance_loopOk hu hpc)

/-- Settles O52, by the shapes of an agent's step. -/
theorem stepKeepsLoopRecordsInPlace : Obligations.StepKeepsLoopRecordsInPlace :=
  step_keeps (fun _ _ _ _ h => h) (fun _ _ h => h) (fun _ _ => resetWith_sequenceOk _ _ _ _) fun _ _ =>
    sequenceOk_agentStep

end Sys2Proof.Proofs
end

