-- ==== Sys2Proof/Proofs/StatusBits.lean ====
section
/-! SUPPORT. The status bits (spec/10_state.md R35), the end of a frame (spec/45_row_dispatch.md R239, spec/70_reset_and_hazards.md
R347) and what a running frame freezes (spec/20_memory.md R62). -/

namespace Sys2Proof.Proofs

open Sys2Proof.Machine Sys2Proof.Laws

variable {s t : State}

theorem code_mem_faultCodes (c : FaultCode) : c.code ∈ faultCodes := by
  cases c <;> decide

theorem statusOk_raiseFault (h : StatusOk s) (hr : s.fstate = .running) (c : FaultCode) : StatusOk (raiseFault c s) := by
  obtain ⟨-, -, -, hclear⟩ := h
  refine ⟨?_, by simp, fun _ => code_mem_faultCodes c, by simp⟩
  simp [(hclear hr).1]

theorem statusOk_startRequest (h : StatusOk s) : StatusOk (startRequest s) := by
  rcases startRequest_cases s with ⟨-, e⟩ | ⟨c, hi, -, e⟩ | ⟨-, -, e⟩ <;> rw [e]
  · exact h
  · exact ⟨by simp, by simp, fun _ => code_mem_faultCodes c, by simp [hi]⟩
  · simp [StatusOk]

theorem statusOk_writeStatus (h : StatusOk s) (v : Word) : StatusOk (writeStatus s v) := by
  obtain ⟨hboth, h0, hcode, hclear⟩ := h
  rw [writeStatus_eq]
  refine ⟨fun ⟨hd, he⟩ => hboth ⟨?_, ?_⟩, fun he => ?_, fun he => ?_, fun hr => ?_⟩
  · exact (Bool.and_eq_true_iff.1 hd).1
  · exact (Bool.and_eq_true_iff.1 he).1
  · by_cases hv : v.getLsbD 2 = true
    · exact if_pos hv
    · exact (if_neg hv).trans (h0 ((Bool.and_eq_false_iff.1 he).resolve_right (by simp only [hv]; decide)))
  · obtain ⟨he, hv⟩ := Bool.and_eq_true_iff.1 he
    have hv : v.getLsbD 2 = false := by simpa only [Bool.not_eq_true'] using hv
    simpa only [hv, Bool.false_eq_true, if_false] using hcode he
  · simp [hclear hr]

theorem statusOk_host (h : StatusOk s) (hm : HostShape s t) : StatusOk t := by
  cases hm with
  | same ht => exact ht ▸ h
  | start ht => exact ht ▸ statusOk_startRequest h
  | status v ht => exact ht ▸ statusOk_writeStatus h v
  | irqen d e ht => exact ht ▸ h
  | config _ w h' t q k ht => exact ht ▸ h
  | program _ k _ v ht => exact ht ▸ h
  | bytes ws _ ht =>
    rw [ht, fbPutAll_eq]
    exact h

theorem statusOk_completeRow (h : StatusOk s) (hr : s.fstate = .running) (w r : ℕ) : StatusOk (completeRow s w r) := by
  rcases completeRow_cases s w r with ⟨-, e⟩ | ⟨-, e⟩ <;> rw [e]
  · obtain ⟨-, h0, hcode, hclear⟩ := h
    exact ⟨by simp [(hclear hr).2], h0, hcode, by simp⟩
  · exact h

theorem statusOk_agentStep (h : StatusOk s) (ha : AgentStep s t) : StatusOk t := by
  cases ha with
  | stay ht => exact ht ▸ h
  | host hm => exact statusOk_host h hm
  | claim w r hc ht =>
    obtain ⟨hr, -⟩ := (claimEnabled_iff s w r).1 hc
    rw [ht]
    rcases claimRow_cases s w r with ⟨-, e⟩ | ⟨-, e⟩ <;> rw [e]
    · exact statusOk_completeRow (s := takeRow s w r) h hr w r
    · exact h
  | fault hx c ht => exact ht ▸ statusOk_raiseFault h hx.running c
  | ended hx ht =>
    rw [ht]
    rcases endInvocation_cases s with ⟨-, e⟩ | ⟨-, e⟩ <;> rw [e]
    · exact h
    · exact statusOk_completeRow h hx.running _ _
  | looped _ _ count len _ ht => exact ht ▸ h
  | ran _ _ v _ ws _ ht => exact ht ▸ h

/-- Settles O50, by the shapes of an agent's step. -/
theorem stepKeepsStatusBitsConsistent : Obligations.StepKeepsStatusBitsConsistent :=
  step_keeps (fun _ _ _ _ h => h) (fun _ _ h => h) (fun _ _ => resetWith_statusOk _ _ _ _) fun _ _ => statusOk_agentStep

/-! ### The end of a frame -/

/-- The step counts no frame and ends none. -/
abbrev GoesOn (s t : State) : Prop := t.frames = s.frames ∧ (s.fstate = .running → t.fstate = .running)

/-- The step completes the running frame: DONE is set and the frame counted (spec/45_row_dispatch.md R239). -/
abbrev CompletesFrame (s t : State) : Prop :=
  s.fstate = .running ∧ t.fstate = .idle ∧ t.done = true ∧ t.err = s.err ∧ t.frames = s.frames + 1

/-- The step records a kernel fault: ERR is set and no frame counted (spec/60_exceptions.md R302). -/
abbrev FaultsFrame (s t : State) : Prop := t.done = s.done ∧ t.err = true ∧ t.frames = s.frames

/-- What a step makes of the frame. -/
abbrev FrameOutcome (s t : State) : Prop := GoesOn s t ∨ CompletesFrame s t ∨ FaultsFrame s t

theorem frameOutcome_completeRow (hr : s.fstate = .running) (w r : ℕ) : FrameOutcome s (completeRow s w r) := by
  rcases completeRow_cases s w r with ⟨-, e⟩ | ⟨-, e⟩ <;> rw [e]
  · exact .inr (.inl ⟨hr, rfl, rfl, rfl, rfl⟩)
  · exact .inl ⟨rfl, id⟩

theorem goesOn_startRequest (s : State) : GoesOn s (startRequest s) := by
  rcases startRequest_cases s with ⟨-, e⟩ | ⟨c, -, -, e⟩ | ⟨-, -, e⟩ <;> rw [e]
  · exact ⟨rfl, id⟩
  · exact ⟨rfl, id⟩
  · exact ⟨rfl, fun _ => rfl⟩

theorem frameOutcome_agentStep (ha : AgentStep s t) : FrameOutcome s t := by
  cases ha with
  | stay ht => exact .inl (ht ▸ ⟨rfl, id⟩)
  | host hm =>
    rcases hostShape_cases hm with rfl | e
    · exact .inl (goesOn_startRequest s)
    · rw [e]
      exact .inl ⟨rfl, id⟩
  | claim w r hc ht =>
    obtain ⟨hr, -⟩ := (claimEnabled_iff s w r).1 hc
    rw [ht]
    rcases claimRow_cases s w r with ⟨-, e⟩ | ⟨-, e⟩ <;> rw [e]
    · exact frameOutcome_completeRow (s := takeRow s w r) hr w r
    · exact .inl ⟨rfl, id⟩
  | fault _ c ht => exact .inr (.inr (ht ▸ ⟨rfl, rfl, rfl⟩))
  | ended hx ht =>
    rw [ht]
    rcases endInvocation_cases s with ⟨-, e⟩ | ⟨-, e⟩ <;> rw [e]
    · exact .inl ⟨rfl, id⟩
    · exact frameOutcome_completeRow hx.running _ _
  | looped _ _ count len _ ht => exact .inl (ht ▸ ⟨rfl, id⟩)
  | ran _ _ v _ ws _ ht => exact .inl (ht ▸ ⟨rfl, id⟩)

theorem frameOutcome_step (hn : nextEvent s ≠ .reset) (h : step s = .next t) : FrameOutcome s t := by
  obtain ⟨agenda, tick, turn, r, m, rfl, ⟨he, -⟩ | ha⟩ := step_cases h
  · exact absurd he hn
  · exact frameOutcome_agentStep (s := scheduled s agenda tick turn) (t := m) ha

/-- Settles O60. -/
theorem frameEndsWithDoneOrErr : Obligations.FrameEndsWithDoneOrErr := by
  refine ⟨fun s t hok hr hn h hi => ?_, fun s t hn h => ?_⟩
  · obtain ⟨-, -, -, hclear⟩ := hok
    obtain ⟨hd, he⟩ := hclear hr
    rcases frameOutcome_step hn h with ⟨-, hf⟩ | ⟨-, -, hdone, herr, hframes⟩ | ⟨hdone, herr, hframes⟩
    · exact absurd ((hf hr).symm.trans hi) (by decide)
    · exact .inl ⟨hdone, herr.trans he, hframes⟩
    · exact .inr ⟨hdone.trans hd, herr, hframes⟩
  · rcases frameOutcome_step hn h with ⟨hframes, -⟩ | ⟨hr, hf, hdone, -, hframes⟩ | ⟨-, -, hframes⟩
    · exact .inl hframes
    · exact .inr ⟨hr, hf, hdone, hframes⟩
    · exact .inl hframes

/-! ### What a running frame freezes -/

/-- PROG, the frame registers, the configuration registers and the parameters. -/
def configuration (s : State) : Store Word × Frame × BitVec 16 × BitVec 16 × Word × Bool × BitVec 16 × Params :=
  (s.prog, s.frame, s.width, s.height, s.time, s.qmode, s.kentry, s.params)

theorem configuration_completeRow (s : State) (w r : ℕ) : configuration (completeRow s w r) = configuration s := by
  rw [completeRow_eq]
  rfl

theorem configuration_host (hr : s.fstate = .running) (hm : HostShape s t) : configuration t = configuration s := by
  have hbusy : s.fstate ≠ .idle := by simp [hr]
  cases hm with
  | same ht => exact congrArg configuration ht
  | start ht =>
    rcases startRequest_cases s with ⟨-, e⟩ | ⟨c, hi, -⟩ | ⟨hi, -⟩
    · exact congrArg configuration (ht.trans e)
    · exact absurd hi hbusy
    · exact absurd hi hbusy
  | status v ht =>
    rw [ht, writeStatus_eq]
    rfl
  | irqen d e ht => exact ht ▸ rfl
  | config hi => exact absurd hi hbusy
  | program hi => exact absurd hi hbusy
  | bytes ws _ ht =>
    rw [ht, fbPutAll_eq]
    rfl

theorem configuration_agentStep (hr : s.fstate = .running) (ha : AgentStep s t) : configuration t = configuration s := by
  cases ha with
  | stay ht => exact congrArg configuration ht
  | host hm => exact configuration_host hr hm
  | claim w r _ ht =>
    rw [ht]
    rcases claimRow_cases s w r with ⟨-, e⟩ | ⟨-, e⟩ <;> rw [e]
    · exact configuration_completeRow (takeRow s w r) w r
    · rfl
  | fault _ c ht => exact ht ▸ rfl
  | ended _ ht =>
    rw [ht]
    rcases endInvocation_cases s with ⟨-, e⟩ | ⟨-, e⟩ <;> rw [e]
    · rfl
    · exact configuration_completeRow s _ _
  | looped _ _ count len _ ht => exact ht ▸ rfl
  | ran _ _ v _ ws _ ht => exact ht ▸ rfl

/-- Settles O59. -/
theorem runningFrameFreezesProgramAndConfiguration : Obligations.RunningFrameFreezesProgramAndConfiguration := by
  intro s t hr hn h
  obtain ⟨agenda, tick, turn, r, m, rfl, ⟨he, -⟩ | ha⟩ := step_cases h
  · exact absurd he hn
  · have hc : configuration m = configuration s := configuration_agentStep (s := scheduled s agenda tick turn) hr ha
    simp only [configuration, Prod.mk.injEq] at hc
    exact hc

end Sys2Proof.Proofs
end

