-- ==== Sys2Proof/Proofs/RowPartition.lean ====
section
/-! SUPPORT. The partition of a running frame's rows (spec/45_row_dispatch.md R236, R240).

The idea is the state between two halves of a step: `RowHeld s w r` says that the rows are partitioned when worker `w` is
counted as holding row `r`, whatever its own context says. A claim and an instruction step lead to such a state, and giving the
worker a context in row `r`, or completing row `r`, leads from it to a state of the invariant. -/

namespace Sys2Proof.Proofs

open Sys2Proof.Machine Sys2Proof.Laws

/-! ### The rows held by a list of workers -/

/-- The rows of the active workers of a list: `activeRows` of any workers. -/
def heldRows (ws : List Worker) : List ℕ := (ws.filter fun u => u.wstate == .active).map fun u => u.row

theorem heldRows_perm {ws vs : List Worker} (h : ws.Perm vs) : (heldRows ws).Perm (heldRows vs) :=
  (h.filter _).map _

theorem activeRows_of_active {s : State} {u : Worker} {ws : List Worker} (h : s.workers.Perm (u :: ws))
    (hu : u.wstate = .active) : (activeRows s).Perm (u.row :: heldRows ws) := by
  have hcons : heldRows (u :: ws) = u.row :: heldRows ws := by simp [heldRows, hu]
  exact hcons ▸ heldRows_perm h

theorem activeRows_of_idle {s : State} {u : Worker} {ws : List Worker} (h : s.workers.Perm (u :: ws))
    (hu : u.wstate = .idle) : (activeRows s).Perm (heldRows ws) := by
  have hcons : heldRows (u :: ws) = heldRows ws := by simp [heldRows, hu]
  exact hcons ▸ heldRows_perm h

theorem heldRows_eq_nil_iff (ws : List Worker) : heldRows ws = [] ↔ ∀ u ∈ ws, u.wstate = .idle := by
  have hne : ∀ u : Worker, u.wstate ≠ .active ↔ u.wstate = .idle := fun u => by cases u.wstate <;> simp
  simp [heldRows, hne]

/-- The workers but number `w`. -/
def others (s : State) (w : ℕ) : List Worker := s.workers.eraseIdx w

theorem workers_perm (s : State) {w : ℕ} (hw : w < s.workers.length) : s.workers.Perm (s.worker w :: others s w) := by
  rw [worker_eq_getElem s hw]
  exact (List.getElem_cons_eraseIdx_perm hw).symm

theorem setWorker_workers_perm (s : State) {w : ℕ} (hw : w < s.workers.length) (u : Worker) :
    (s.setWorker w u).workers.Perm (u :: others s w) :=
  List.set_perm_cons_eraseIdx hw u

theorem others_setWorker (s : State) (w : ℕ) (u : Worker) : others (s.setWorker w u) w = others s w :=
  List.eraseIdx_set_eq

/-! ### The partition -/

variable {s t : State} {w r : ℕ}

/-- The worker's lane group lies in its row (spec/43_sequencing.md R170). -/
def InRow (s : State) (u : Worker) : Prop :=
  u.x0 % s.params.laneWidth = 0 ∧ u.x0 + s.params.laneWidth ≤ s.frame.w.toNat

/-- The frame runs with its rows partitioned when worker `w` is counted as holding row `r`. -/
structure RowHeld (s : State) (w r : ℕ) : Prop where
  running : s.fstate = .running
  lt : w < s.workers.length
  legal : FrameLegal s
  rising : s.doneRows.Pairwise (· < ·)
  notAll : s.doneRows ≠ allRows s
  parts : (s.unclaimed ++ s.doneRows ++ r :: heldRows (others s w)).Perm (allRows s)
  inRow : ∀ u ∈ others s w, u.wstate = .active → InRow s u

/-- A worker that holds the row counted for it. -/
theorem RowHeld.setWorker (h : RowHeld s w r) {u : Worker} (ha : u.wstate = .active) (hr : u.row = r) (hu : InRow s u) :
    DispatchOk (s.setWorker w u) := by
  have hperm := setWorker_workers_perm s h.lt u
  refine ⟨fun hi => absurd (h.running.symm.trans hi) (by decide),
    fun _ => ⟨h.legal, h.rising, h.notAll, ?_, fun v hv hact => ?_⟩⟩
  · have hrows : (activeRows (s.setWorker w u)).Perm (r :: heldRows (others s w)) :=
      hr ▸ activeRows_of_active hperm ha
    exact (hrows.append_left _).trans h.parts
  · rcases List.mem_cons.1 (hperm.mem_iff.1 hv) with rfl | hv
    · exact hu
    · exact h.inRow v hv hact

theorem RowHeld.startInvocation (h : RowHeld s w r) (ha : (s.worker w).wstate = .active) {g : ℕ} (hg : g < s.frame.g) :
    DispatchOk (startInvocation s w g r) := by
  refine h.setWorker ha rfl ⟨Nat.mul_mod_left _ _, ?_⟩
  obtain ⟨-, -, -, -, hgroups⟩ := h.legal
  calc g * s.params.laneWidth + s.params.laneWidth = (g + 1) * s.params.laneWidth := (Nat.succ_mul _ _).symm
    _ ≤ s.frame.g * s.params.laneWidth := Nat.mul_le_mul_right _ hg
    _ ≤ s.frame.w.toNat := hgroups ▸ Nat.div_mul_le_self _ _

/-- With row `r` done the rows are partitioned among UNCLAIMED, DONE_ROWS and the other workers. -/
theorem RowHeld.parts_done (h : RowHeld s w r) :
    (s.unclaimed ++ insertRow r s.doneRows ++ heldRows (others s w)).Perm (allRows s) := by
  have hmoved : (s.unclaimed ++ (r :: s.doneRows) ++ heldRows (others s w)).Perm (allRows s) := by
    refine .trans ?_ h.parts
    rw [List.append_assoc, List.append_assoc]
    exact List.perm_middle.symm.append_left _
  have hnew : r ∉ s.doneRows := by
    have hnodup : (s.unclaimed ++ (r :: s.doneRows) ++ heldRows (others s w)).Nodup :=
      hmoved.nodup_iff.2 List.nodup_range
    exact (List.nodup_cons.1 hnodup.of_append_left.of_append_right).1
  exact (((insertRow_perm hnew).append_left _).append_right _).trans hmoved

theorem RowHeld.completeRow (h : RowHeld s w r) : DispatchOk (completeRow s w r) := by
  have hperm : (finishRow s w r).workers.Perm ({ s.worker w with wstate := .idle } :: others s w) :=
    setWorker_workers_perm s h.lt _
  have hrows : (activeRows (finishRow s w r)).Perm (heldRows (others s w)) := activeRows_of_idle hperm rfl
  have hparts : (s.unclaimed ++ insertRow r s.doneRows ++ activeRows (finishRow s w r)).Perm (allRows s) :=
    (hrows.append_left _).trans h.parts_done
  rcases completeRow_cases s w r with ⟨hall, e⟩ | ⟨hall, e⟩ <;> rw [e]
  · have hlen := hparts.length_eq
    simp only [hall, List.length_append] at hlen
    have hunclaimed : s.unclaimed = [] := List.eq_nil_of_length_eq_zero (by omega)
    have hactive : activeRows (finishRow s w r) = [] := List.eq_nil_of_length_eq_zero (by omega)
    exact ⟨fun _ => ⟨hunclaimed, (heldRows_eq_nil_iff _).1 hactive⟩, fun hi => nomatch hi⟩
  · refine ⟨fun hi => absurd (h.running.symm.trans hi) (by decide),
      fun _ => ⟨h.legal, insertRow_rising h.rising r, hall, hparts, fun v hv hact => ?_⟩⟩
    rcases List.mem_cons.1 (hperm.mem_iff.1 hv) with rfl | hv
    · exact absurd hact (by simp)
    · exact h.inRow v hv hact

/-! ### Where a row is held -/

/-- The executing worker holds its row, and its lane group lies in it. -/
theorem rowHeld_of_executing (h : DispatchOk s) (hx : Executing s) : RowHeld s s.turn s.me.row ∧ InRow s s.me := by
  obtain ⟨hlegal, hrising, hall, hparts, hin⟩ := h.2 hx.running
  have hperm := workers_perm s hx.turn_lt
  have hrows : (activeRows s).Perm (s.me.row :: heldRows (others s s.turn)) :=
    activeRows_of_active hperm hx.active
  refine ⟨⟨hx.running, hx.turn_lt, hlegal, hrising, hall, (hrows.append_left _).symm.trans hparts, fun u hu => ?_⟩, ?_⟩
  · exact hin u (hperm.mem_iff.2 (List.mem_cons_of_mem _ hu))
  · exact hin s.me (worker_mem s hx.turn_lt) hx.active

/-- A claimed row leaves UNCLAIMED for the worker that claims it. -/
theorem rowHeld_of_claim (h : DispatchOk s) (hc : claimEnabled s w r = true) : RowHeld (takeRow s w r) w r := by
  obtain ⟨hr, hmem, hw, hidle⟩ := (claimEnabled_iff s w r).1 hc
  obtain ⟨hlegal, hrising, hall, hparts, hin⟩ := h.2 hr
  have hothers : others (takeRow s w r) w = others s w := others_setWorker s w _
  have hperm := workers_perm s hw
  have hrows : (activeRows s).Perm (heldRows (others s w)) := activeRows_of_idle hperm hidle
  have hnodup : s.unclaimed.Nodup := (hparts.nodup_iff.2 List.nodup_range).of_append_left.of_append_left
  refine ⟨hr, by simpa [takeRow] using hw, hlegal, hrising, hall, ?_, fun u hu => ?_⟩
  · rw [hothers]
    calc (removeRow r s.unclaimed ++ s.doneRows ++ r :: heldRows (others s w)).Perm
          (r :: removeRow r s.unclaimed ++ s.doneRows ++ heldRows (others s w)) := List.perm_middle
      List.Perm _ (s.unclaimed ++ s.doneRows ++ activeRows s) :=
        ((removeRow_perm hnodup hmem).append_right _).append hrows.symm
      List.Perm _ (allRows s) := hparts
  · rw [hothers] at hu
    exact hin u (hperm.mem_iff.2 (List.mem_cons_of_mem _ hu))

/-! ### The steps -/

theorem dispatchOk_claimRow (h : DispatchOk s) (hc : claimEnabled s w r = true) : DispatchOk (claimRow s w r) := by
  have hheld := rowHeld_of_claim h hc
  obtain ⟨-, -, hw, -⟩ := (claimEnabled_iff s w r).1 hc
  rcases claimRow_cases s w r with ⟨-, e⟩ | ⟨hg, e⟩ <;> rw [e]
  · exact hheld.completeRow
  · refine hheld.startInvocation ?_ (Nat.pos_of_ne_zero hg)
    rw [worker_takeRow, if_pos ⟨rfl, hw⟩]

theorem dispatchOk_endInvocation (h : DispatchOk s) (hx : Executing s) : DispatchOk (endInvocation s) := by
  obtain ⟨hheld, -⟩ := rowHeld_of_executing h hx
  rcases endInvocation_cases s with ⟨hg, e⟩ | ⟨-, e⟩ <;> rw [e]
  · exact hheld.startInvocation hx.active hg
  · exact hheld.completeRow

theorem dispatchOk_raiseFault (s : State) (c : FaultCode) : DispatchOk (raiseFault c s) := by
  refine ⟨fun _ => ⟨rfl, fun u hu => ?_⟩, fun hi => nomatch hi⟩
  obtain ⟨u', -, rfl⟩ := List.mem_map.1 hu
  rfl

/-- A worker that goes on in its invocation keeps its row and its lane group. -/
theorem dispatchOk_setMe (h : DispatchOk s) (hx : Executing s) {u : Worker} (hs : u.wstate = s.me.wstate)
    (hr : u.row = s.me.row) (h0 : u.x0 = s.me.x0) : DispatchOk (s.setMe u) := by
  obtain ⟨hheld, hin⟩ := rowHeld_of_executing h hx
  refine hheld.setWorker (hs.trans hx.active) hr ?_
  rw [InRow, h0]
  exact hin

/-- The advance of a worker with the executing worker's invocation context. -/
theorem dispatchOk_setMe_advance (h : DispatchOk s) (hx : Executing s) {u : Worker} (hs : u.wstate = s.me.wstate)
    (hr : u.row = s.me.row) (h0 : u.x0 = s.me.x0) : DispatchOk (s.setMe u.advance) := by
  obtain ⟨-, hax0, harow, hastate, -⟩ := u.advance_frame
  exact dispatchOk_setMe h hx (hastate.trans hs) (harow.trans hr) (hax0.trans h0)

theorem dispatchOk_beginFrame (h : DispatchOk s) (hi : s.fstate = .idle) (hv : validate s = none) :
    DispatchOk (beginFrame s) := by
  obtain ⟨-, hidle⟩ := h.1 hi
  obtain ⟨hw, hh, hfit, hentry⟩ := validate_none hv
  have hnone : activeRows (beginFrame s) = [] := (heldRows_eq_nil_iff _).2 hidle
  refine ⟨fun hb => absurd hb (by simp),
    fun _ => ⟨⟨hw, hh, hfit, hentry, rfl⟩, List.Pairwise.nil, ?_, ?_, fun u hu hact => ?_⟩⟩
  · intro hall
    have hlen : 0 = s.height.toNat := by simpa [allRows, beginFrame, latchFrame] using congrArg List.length hall
    omega
  · rw [hnone, List.append_nil]
    exact .of_eq (List.append_nil _)
  · exact absurd ((hidle u hu).symm.trans hact) (by decide)

theorem dispatchOk_host (h : DispatchOk s) (hm : HostShape s t) : DispatchOk t := by
  rcases hostShape_cases hm with rfl | e
  · rcases startRequest_cases s with ⟨-, e⟩ | ⟨c, -, -, e⟩ | ⟨hi, hv, e⟩ <;> rw [e]
    · exact h
    · exact h
    · exact dispatchOk_beginFrame (s := clearErr (clearDone s)) h hi hv
  · rw [e]
    exact h

theorem dispatchOk_agentStep (h : DispatchOk s) (ha : AgentStep s t) : DispatchOk t := by
  cases ha with
  | stay ht => exact ht ▸ h
  | host hm => exact dispatchOk_host h hm
  | claim w r hc ht => exact ht ▸ dispatchOk_claimRow h hc
  | fault _ c ht => exact ht ▸ dispatchOk_raiseFault s c
  | ended hx ht => exact ht ▸ dispatchOk_endInvocation h hx
  | looped hx _ count len _ ht =>
    rw [ht, setLoop, advance_setMe s _ hx.turn_lt]
    exact dispatchOk_setMe_advance h hx rfl rfl rfl
  | ran hx _ v _ ws _ ht =>
    rw [ht]
    exact dispatchOk_setMe_advance (u := { s.me with v := v }) h hx rfl rfl rfl

/-- Settles O51, by the shapes of an agent's step. -/
theorem stepKeepsRowsPartitioned : Obligations.StepKeepsRowsPartitioned :=
  step_keeps (fun _ _ _ _ h => h) (fun _ _ h => h) (fun _ _ => resetWith_dispatchOk _ _ _ _) fun _ _ =>
    dispatchOk_agentStep

end Sys2Proof.Proofs
end

