-- ==== Sys2Proof/Proofs/Registers.lean ====
section
/-! SUPPORT. The registers of CSR space as the host reads them (spec/10_state.md R30 to R45; spec/45_row_dispatch.md R231), and what
they read as after a reset (R49). -/

namespace Sys2Proof.Proofs

open Sys2Proof.Machine Sys2Proof.Laws

/-! ### Which register an offset names -/

variable (s : State)

theorem csrAt_named {off : ℕ} (h : off < 0x1000) : csrAt s off = csrNamed off :=
  if_neg (by omega)

theorem csrAt_word {k : ℕ} (hk : k < s.params.progDepth) : csrAt s (0x1000 + 4 * k) = some (.prog k) := by
  rw [csrAt, if_pos (by omega), Nat.add_sub_cancel_left, Nat.mul_div_cancel_left k (by decide)]

theorem csrNamed_past {off : ℕ} (h : 0x054 ≤ off) : csrNamed off = none := by
  unfold csrNamed
  split
  any_goals omega
  rfl

theorem csrAt_past {off : ℕ} (h : 0x1000 + 4 * s.params.progDepth ≤ off) : csrAt s off = none := by
  rw [csrAt, if_neg (by omega), csrNamed_past (by omega)]

/-- From 0x1000 up an offset names a word of PROG or no register. -/
theorem csrAt_upper {off : ℕ} (h : 0x1000 ≤ off) :
    csrAt s off = none ∨ ∃ k < s.params.progDepth, csrAt s off = some (.prog k) := by
  by_cases hp : off < 0x1000 + 4 * s.params.progDepth
  · exact .inr ⟨(off - 0x1000) / 4, by omega, if_pos ⟨h, hp⟩⟩
  · exact .inl (csrAt_past s (not_lt.1 hp))

/-! ### Reading -/

theorem csrLoad_of_none {off : ℕ} (h : csrAt s off = none) : csrLoad s off = 0 := by
  rw [csrLoad, h]

theorem csrLoad_of_some {off : ℕ} {r : Csr} (h : csrAt s off = some r) : csrLoad s off = csrValue s r := by
  rw [csrLoad, h]

theorem csrLoad_word {k : ℕ} (hk : k < s.params.progDepth) : csrLoad s (0x1000 + 4 * k) = progWord s k :=
  csrLoad_of_some s (csrAt_word s hk)

theorem csrLegal_four {off : ℕ} (h4 : off % 4 = 0) (hs : off < 2 ^ 20) : csrLegal off 4 = true := by
  simpa [csrLegal, h4] using hs

theorem hostStep_csrRead {off : ℕ} (h4 : off % 4 = 0) (hs : off < 2 ^ 20) :
    hostStep (.csrRead off 4) s = { s with resp := .readData (csrLoad s off) } := by
  rw [hostStep, csrLegal_four h4 hs, if_pos rfl]

theorem hostStep_csrWrite {off : ℕ} (h4 : off % 4 = 0) (hs : off < 2 ^ 20) (v : Word) :
    hostStep (.csrWrite off 4 v) s = { csrStore s off v with resp := .writeDone } :=
  if_pos (csrLegal_four h4 hs)

/-! ### The bits of STATUS and IRQEN -/

theorem bitWord_getLsbD (b : Bool) (i : ℕ) : (bitWord b).getLsbD i = (decide (i = 0) && b) := by
  cases b <;> simp [bitWord, BitVec.getLsbD_one]

theorem bitWord_shiftLeft_getLsbD (b : Bool) {k : ℕ} (hk : k < 32) (i : ℕ) :
    (bitWord b <<< k).getLsbD i = (decide (i = k) && b) := by
  rw [BitVec.getLsbD_shiftLeft, bitWord_getLsbD]
  by_cases h : i = k
  · simp [h, hk]
  · have hout : i < k ∨ i - k ≠ 0 := by omega
    rcases hout with hlt | hne
    · simp [h, hlt]
    · simp [h, hne]

/-- The bits of STATUS (spec/10_state.md R35). -/
theorem statusWord_getLsbD {i : ℕ} (hi : i < 32) :
    (statusWord s).getLsbD i =
      (decide (i = 0) && busy s || decide (i = 1) && s.done || decide (i = 2) && s.err ||
        decide (8 ≤ i) && s.errCode.getLsbD (i - 8)) := by
  have hcode : (s.errCode.setWidth 32 <<< 8).getLsbD i = (decide (8 ≤ i) && s.errCode.getLsbD (i - 8)) := by
    simp only [BitVec.getLsbD_shiftLeft, BitVec.getLsbD_setWidth, hi, show i - 8 < 32 by omega, decide_true, Bool.true_and,
      ← decide_not, not_lt]
  simp only [statusWord, BitVec.getLsbD_or, bitWord_getLsbD, hcode, bitWord_shiftLeft_getLsbD _ (by decide : 1 < 32),
    bitWord_shiftLeft_getLsbD _ (by decide : 2 < 32)]

/-- The bits of IRQEN (spec/10_state.md R36). -/
theorem irqenWord_getLsbD (i : ℕ) :
    (irqenWord s).getLsbD i = (decide (i = 0) && s.doneIE || decide (i = 1) && s.errIE) := by
  rw [irqenWord, BitVec.getLsbD_or, bitWord_getLsbD, bitWord_shiftLeft_getLsbD _ (by decide)]

theorem statusWord_fields :
    ((statusWord s).getLsbD 0 = decide (s.fstate = .running) ∧ (statusWord s).getLsbD 1 = s.done ∧
      (statusWord s).getLsbD 2 = s.err ∧ (statusWord s).extractLsb' 3 5 = 0 ∧
      (statusWord s).extractLsb' 8 8 = s.errCode ∧ (statusWord s).extractLsb' 16 16 = 0) := by
  refine ⟨?_, ?_, ?_, ?_, ?_, ?_⟩
  · rw [statusWord_getLsbD s (by decide)]
    cases hf : s.fstate <;> simp [busy, hf]
  · rw [statusWord_getLsbD s (by decide)]
    simp
  · rw [statusWord_getLsbD s (by decide)]
    simp
  · ext i hi
    rw [BitVec.getElem_extractLsb', statusWord_getLsbD s (by omega)]
    simp [show ¬3 + i = 1 by omega, show ¬3 + i = 2 by omega, show ¬8 ≤ 3 + i by omega]
  · ext i hi
    rw [BitVec.getElem_extractLsb', statusWord_getLsbD s (by omega)]
    simp [show ¬8 + i = 1 by omega, show ¬8 + i = 2 by omega, BitVec.getLsbD_eq_getElem hi]
  · ext i hi
    rw [BitVec.getElem_extractLsb', statusWord_getLsbD s (by omega)]
    simp [show ¬16 + i = 1 by omega, show ¬16 + i = 2 by omega, show 8 ≤ 16 + i - 8 by omega]

theorem irqenWord_fields :
    (irqenWord s).getLsbD 0 = s.doneIE ∧ (irqenWord s).getLsbD 1 = s.errIE ∧ (irqenWord s).extractLsb' 2 30 = 0 := by
  refine ⟨?_, ?_, ?_⟩
  · rw [irqenWord_getLsbD]
    simp
  · rw [irqenWord_getLsbD]
    simp
  · ext i hi
    rw [BitVec.getElem_extractLsb', irqenWord_getLsbD]
    simp [show ¬2 + i = 1 by omega]

/-- A 16-bit register reads as its bits below 16 zeros. -/
theorem halfWord_fields (x : BitVec 16) :
    (x.setWidth 32).extractLsb' 0 16 = x ∧ (x.setWidth 32).extractLsb' 16 16 = 0 := by
  constructor
  · ext i hi
    simp [BitVec.getElem_extractLsb', BitVec.getLsbD_eq_getElem hi]
    omega
  · ext i hi
    simp [BitVec.getElem_extractLsb']

theorem bitWord_fields (b : Bool) : (bitWord b).getLsbD 0 = b ∧ (bitWord b).extractLsb' 1 31 = 0 := by
  cases b <;> decide

theorem step_host {op : HostOp} {rest : List Event} (h : s.agenda = .host op :: rest) :
    step s = .next (hostStep op { s with agenda := rest }) := by
  rw [step_eq, nextEvent, takeEvent, h]
  rfl

theorem irq_eq :
    irq s = (((statusWord s).getLsbD 1 && (irqenWord s).getLsbD 0) || ((statusWord s).getLsbD 2 && (irqenWord s).getLsbD 1)) := by
  obtain ⟨-, hdone, herr, -⟩ := statusWord_fields s
  obtain ⟨hdoneIE, herrIE, -⟩ := irqenWord_fields s
  rw [hdone, herr, hdoneIE, herrIE, irq]

theorem csrLoad_of_named {off : ℕ} (r : Csr) (h : off < 0x1000) (hr : csrNamed off = some r) :
    csrLoad s off = csrValue s r :=
  csrLoad_of_some s ((csrAt_named s h).trans hr)

theorem csrLoad_of_no_register {off : ℕ}
    (h : off = 0x01C ∨ off = 0x03C ∨ (0x054 ≤ off ∧ off < 0x1000) ∨ 0x1000 + 4 * s.params.progDepth ≤ off) :
    csrLoad s off = 0 := by
  refine csrLoad_of_none s ?_
  rcases h with rfl | rfl | ⟨hlo, hhi⟩ | hpast
  · exact csrAt_named s (by decide)
  · exact csrAt_named s (by decide)
  · exact (csrAt_named s hhi).trans (csrNamed_past hlo)
  · exact csrAt_past s hpast

/-- Settles O43. -/
theorem readOnlyRegistersStatusAndInterrupt : Obligations.ReadOnlyRegistersStatusAndInterrupt := by
  intro s
  have hload : ∀ {off : ℕ} (r : Csr), off < 0x1000 → csrNamed off = some r → csrLoad s off = csrValue s r :=
    csrLoad_of_named s
  have hstatus : csrLoad s 0x024 = statusWord s := hload .status (by decide) rfl
  have hirqen : csrLoad s 0x028 = irqenWord s := hload .irqen (by decide) rfl
  have hwidth : csrLoad s 0x040 = s.width.setWidth 32 := hload .width (by decide) rfl
  have hheight : csrLoad s 0x044 = s.height.setWidth 32 := hload .height (by decide) rfl
  have hqmode : csrLoad s 0x04C = bitWord s.qmode := hload .qmode (by decide) rfl
  have hkentry : csrLoad s 0x050 = s.kentry.setWidth 32 := hload .kentry (by decide) rfl
  rw [hstatus, hirqen, hwidth, hheight, hqmode, hkentry]
  exact ⟨fun op rest h => step_host s h,
    fun off h4 hs => ⟨hostStep_csrRead s h4 hs, hostStep_csrWrite s h4 hs⟩,
    ⟨hload .id (by decide) rfl, hload .lanes (by decide) rfl, hload .workers (by decide) rfl,
      hload .progDepth (by decide) rfl, hload .lutSize (by decide) rfl, hload .fbCap (by decide) rfl,
      hload .maxDim (by decide) rfl⟩,
    statusWord_fields s, irqenWord_fields s,
    ⟨hload .ctrl (by decide) rfl, hload .errLoc (by decide) rfl, hload .errPc (by decide) rfl,
      hload .errInstr (by decide) rfl, hload .frames (by decide) rfl, hload .time (by decide) rfl⟩,
    ⟨halfWord_fields s.width, halfWord_fields s.height, bitWord_fields s.qmode, halfWord_fields s.kentry⟩,
    fun k => csrLoad_word s, fun off _ => csrLoad_of_no_register s, irq_eq s⟩

/-! ### The reset step -/

/-- A list stored word by word from address `n` up reads back as the list. -/
theorem store_get?_mapIdx {β : Type} (l : List β) (n k : ℕ) :
    Store.get? (l.mapIdx fun i w => (i + n, w)) (k + n) = l[k]? := by
  induction l generalizing n k with
  | nil => rfl
  | cons x l ih =>
    rw [List.mapIdx_cons, Store.get?]
    cases k with
    | zero => simp
    | succ k =>
      rw [if_neg (by omega), List.getElem?_cons_succ, ← ih (n + 1) k]
      simp only [Nat.add_assoc, Nat.add_comm 1 n]

/-- The words of P-REF stand at their indices, and every other word is 0 (spec/10_state.md R45). -/
theorem resetProg_word (k : ℕ) : (Store.get? resetProg k).getD 0 = refKernel.getD k 0 := by
  have h : Store.get? resetProg k = refKernel[k]? := store_get?_mapIdx refKernel 0 k
  rw [h, List.getD_eq_getElem?_getD]

section

variable (p : Params) (fb : Memory) (agenda : List Event) (tick : ℕ)

theorem statusWord_resetWith : statusWord (State.resetWith p fb agenda tick) = 0 := by
  have h : statusWord (State.resetWith p fb agenda tick) =
      bitWord false ||| bitWord false <<< 1 ||| bitWord false <<< 2 ||| (0 : Byte).setWidth 32 <<< 8 := rfl
  rw [h]
  decide

theorem irqenWord_resetWith : irqenWord (State.resetWith p fb agenda tick) = 0 := by
  have h : irqenWord (State.resetWith p fb agenda tick) = bitWord false ||| bitWord false <<< 1 := rfl
  rw [h]
  decide

/-- Every register from CTRL up to PROG reads as 0 after a reset (spec/10_state.md R49). -/
theorem csrValue_resetWith {off : ℕ} (hlo : 0x01C ≤ off) {r : Csr} (h : csrNamed off = some r) :
    csrValue (State.resetWith p fb agenda tick) r = 0 := by
  unfold csrNamed at h
  split at h
  all_goals cases h
  any_goals omega
  any_goals rfl
  · exact statusWord_resetWith p fb agenda tick
  · exact irqenWord_resetWith p fb agenda tick

theorem csrLoad_resetWith {off : ℕ} (hlo : 0x01C ≤ off) (hhi : off < 0x1000) :
    csrLoad (State.resetWith p fb agenda tick) off = 0 := by
  rw [csrLoad, csrAt_named _ hhi]
  cases h : csrNamed off with
  | none => rfl
  | some r => exact csrValue_resetWith p fb agenda tick hlo h

end

/-- Settles O42. -/
theorem resetRestoresAllButTheFramebuffer : Obligations.ResetRestoresAllButTheFramebuffer := by
  intro s rest h hlegal
  obtain ⟨-, -, ⟨hdepth, -⟩, -⟩ := id hlegal
  have hstep : step s = .next (State.resetWith s.params s.fb rest s.tick) := by
    rw [step_eq, nextEvent, takeEvent, h]
    rfl
  have hword : ∀ {k}, k < s.params.progDepth →
      csrLoad (State.resetWith s.params s.fb rest s.tick) (0x1000 + 4 * k) = refKernel.getD k 0 := fun {k} hk =>
    (csrLoad_word (State.resetWith s.params s.fb rest s.tick) hk).trans (resetProg_word k)
  refine ⟨_, hstep, fun _ => rfl, rfl, rfl, fun off => csrLoad_resetWith _ _ _ _, fun k hk => hword (hk.trans_le hdepth),
    fun k hk => ?_, rfl, rfl, rfl, List.length_replicate, fun u hu => ?_, rfl⟩
  · by_cases hp : k < s.params.progDepth
    · exact (hword hp).trans (List.getD_eq_default _ _ hk)
    · exact csrLoad_of_none _ (csrAt_past _ (show 0x1000 + 4 * s.params.progDepth ≤ _ by omega))
  · rw [mem_resetWith_workers _ _ _ _ hu]
    rfl

end Sys2Proof.Proofs
end

