-- ==== Sys2Proof/Proofs/RegisterWrites.lean ====
section
/-! SUPPORT. What a host write does to each register of CSR space, by access type (spec/45_row_dispatch.md R232), and PROG read back
after a write (spec/10_state.md R45). -/

namespace Sys2Proof.Proofs

open Sys2Proof.Machine Sys2Proof.Laws

section

variable (s : State) (v : Word)

theorem csrStore_of_none {off : ℕ} (h : csrAt s off = none) : csrStore s off v = s := by
  rw [csrStore, h]

theorem csrStore_of_some {off : ℕ} {r : Csr} (h : csrAt s off = some r) : csrStore s off v = csrPut s r v := by
  rw [csrStore, h]

theorem csrStore_named {off : ℕ} (r : Csr) (h : off < 0x1000) (hr : csrNamed off = some r) :
    csrStore s off v = csrPut s r v :=
  csrStore_of_some s v ((csrAt_named s h).trans hr)

theorem whenIdle_of_idle {s : State} (h : s.fstate = .idle) (t : State) : whenIdle s t = t := if_pos h

theorem whenIdle_of_running {s : State} (h : s.fstate = .running) (t : State) : whenIdle s t = s := if_neg (by simp [h])

/-- The registers below CTRL and those between IRQEN and WIDTH take no write (spec/10_state.md R31, R37 to R39). -/
theorem csrPut_readOnly {off : ℕ} (hoff : off < 0x020 ∨ (0x02C ≤ off ∧ off < 0x040)) {r : Csr} (h : csrNamed off = some r) :
    csrPut s r v = s := by
  unfold csrNamed at h
  split at h
  all_goals cases h
  any_goals omega
  all_goals rfl

theorem csrStore_readOnly {off : ℕ}
    (h : off < 0x020 ∨ (0x02C ≤ off ∧ off < 0x040) ∨ (0x054 ≤ off ∧ off < 0x1000) ∨
      0x1000 + 4 * s.params.progDepth ≤ off) :
    csrStore s off v = s := by
  have hnamed : ∀ hoff : off < 0x020 ∨ (0x02C ≤ off ∧ off < 0x040), csrStore s off v = s := by
    intro hoff
    rw [csrStore, csrAt_named s (by omega)]
    cases hr : csrNamed off with
    | none => rfl
    | some r => exact csrPut_readOnly s v hoff hr
  rcases h with hlo | hmid | ⟨hlo, hhi⟩ | hpast
  · exact hnamed (.inl hlo)
  · exact hnamed (.inr hmid)
  · exact csrStore_of_none s v ((csrAt_named s hhi).trans (csrNamed_past hlo))
  · exact csrStore_of_none s v (csrAt_past s hpast)

/-- The registers WIDTH to KENTRY take no write while a frame runs. -/
theorem csrPut_configuration {s : State} (hr : s.fstate = .running) {off : ℕ} (hlo : 0x040 ≤ off) (hhi : off < 0x054)
    {r : Csr} (h : csrNamed off = some r) : csrPut s r v = s := by
  unfold csrNamed at h
  split at h
  all_goals cases h
  any_goals omega
  all_goals exact whenIdle_of_running hr _

theorem csrStore_running {s : State} (hr : s.fstate = .running) {off : ℕ} (h : (0x040 ≤ off ∧ off < 0x054) ∨ 0x1000 ≤ off) :
    csrStore s off v = s := by
  rcases h with ⟨hlo, hhi⟩ | hup
  · rw [csrStore, csrAt_named s (by omega)]
    cases hn : csrNamed off with
    | none => rfl
    | some r => exact csrPut_configuration v hr hlo hhi hn
  · rcases csrAt_upper s hup with hn | ⟨k, -, hk⟩
    · exact csrStore_of_none s v hn
    · exact (csrStore_of_some s v hk).trans (whenIdle_of_running hr _)

/-- A write to a named register, answered. -/
theorem hostStep_csrWrite_named {off : ℕ} (r : Csr) (hlt : off < 0x1000) (h4 : off % 4 = 0) (hr : csrNamed off = some r) :
    hostStep (.csrWrite off 4 v) s = { csrPut s r v with resp := .writeDone } := by
  rw [hostStep_csrWrite s h4 (by omega), csrStore_named s v r hlt hr]

/-- A write to a register that is written while IDLE only, answered. -/
theorem hostStep_csrWrite_idle {s t : State} (hi : s.fstate = .idle) {off : ℕ} (r : Csr) (hput : csrPut s r v = whenIdle s t)
    (hlt : off < 0x1000) (h4 : off % 4 = 0) (hr : csrNamed off = some r) :
    hostStep (.csrWrite off 4 v) s = { t with resp := .writeDone } := by
  rw [hostStep_csrWrite_named s v r hlt h4 hr, hput, whenIdle_of_idle hi]

end

/-- Settles O44. -/
theorem csrWritesFollowTheirAccessType : Obligations.CsrWritesFollowTheirAccessType := by
  intro s v
  refine ⟨fun off h4 hs h => ?_, fun hr off h4 hs h => ?_, fun hi => ⟨?_, ?_, ?_, ?_, ?_⟩, ?_, ?_, fun h0 => ?_⟩
  · rw [hostStep_csrWrite s h4 hs, csrStore_readOnly s v h]
  · rw [hostStep_csrWrite s h4 hs, csrStore_running v hr h]
  · exact hostStep_csrWrite_idle v hi .width rfl (by decide) rfl rfl
  · exact hostStep_csrWrite_idle v hi .height rfl (by decide) rfl rfl
  · exact hostStep_csrWrite_idle v hi .time rfl (by decide) rfl rfl
  · exact hostStep_csrWrite_idle v hi .qmode rfl (by decide) rfl rfl
  · exact hostStep_csrWrite_idle v hi .kentry rfl (by decide) rfl rfl
  · exact hostStep_csrWrite_named s v .irqen (by decide) rfl rfl
  · rw [hostStep_csrWrite_named s v .status (by decide) rfl rfl, csrPut, writeStatus_eq]
  · rw [hostStep_csrWrite_named s v .ctrl (by decide) rfl rfl, csrPut, h0]
    rfl

/-- Settles O45. -/
theorem programWordsReadBackWhileIdle : Obligations.ProgramWordsReadBackWhileIdle := by
  intro s v k hlegal hi hk
  obtain ⟨-, -, ⟨-, hdepth⟩, -⟩ := id hlegal
  have hlegalOff : ∀ {c}, c < s.params.progDepth → (0x1000 + 4 * c) % 4 = 0 ∧ 0x1000 + 4 * c < 2 ^ 20 := by omega
  have hread : ∀ c < s.params.progDepth,
      csrLoad { setProg s k v with resp := .writeDone } (0x1000 + 4 * c) =
        if c = k then v else csrLoad s (0x1000 + 4 * c) := fun c hc => by
    rw [csrLoad_word s hc, csrLoad_word { setProg s k v with resp := .writeDone } hc]
    exact progWord_setProg s k c v
  refine ⟨{ setProg s k v with resp := .writeDone }, ?_, rfl, rfl, fun c hc => ?_⟩
  · rw [hostStep_csrWrite s (hlegalOff hk).1 (hlegalOff hk).2, csrStore_of_some s v (csrAt_word s hk), csrPut,
      whenIdle_of_idle hi]
  · rw [hostStep_csrRead _ (hlegalOff hc).1 (hlegalOff hc).2, hread c hc]

end Sys2Proof.Proofs
end

