-- ==== Sys2Proof/Proofs/WorkerStep.lean ====
section
/-! SUPPORT. The event at the agenda's head and the executing worker's step (spec/20_memory.md R58, spec/43_sequencing.md R171). -/

namespace Sys2Proof.Proofs

open Sys2Proof.Machine Sys2Proof.Laws

theorem step_of_agenda {s : State} {e : Event} {rest : List Event} (h : s.agenda = e :: rest) :
    step s = perform e { s with agenda := rest } := by
  rw [step_eq, nextEvent, takeEvent, h]

theorem perform_work_of_enabled {s : State} {w : ℕ} (h : workEnabled s w = true) :
    perform (.work w) s = fetchExecute { s with turn := w } :=
  if_pos h

theorem perform_work_of_not_enabled {s : State} {w : ℕ} (h : workEnabled s w ≠ true) : perform (.work w) s = .next s :=
  if_neg h

/-- A worker whose step is enabled is executing once it is named. -/
theorem executing_of_enabled {s : State} {w : ℕ} (h : workEnabled s w = true) : Executing { s with turn := w } := by
  obtain ⟨hrun, hlt, hact⟩ := (workEnabled_iff s w).1 h
  exact ⟨hrun, hlt, hact⟩

theorem fetchExecute_of_decode {s : State} {i : Instr} (hpc : s.me.pc < s.params.progDepth)
    (hd : decode (fetchWord s) = .ok i) : fetchExecute s = exec i s := by
  rw [fetchExecute, if_neg (not_le.2 hpc), hd]

/-- Settles O37. -/
theorem stepRunsTheDecodedInstruction : Obligations.StepRunsTheDecodedInstruction := by
  intro s w rest i h hrun hlt hact hpc hd
  have hen : workEnabled { s with agenda := rest } w = true := (workEnabled_iff _ w).2 ⟨hrun, hlt, hact⟩
  rw [step_of_agenda h, perform_work_of_enabled hen]
  exact fetchExecute_of_decode (s := { s with agenda := rest, turn := w }) hpc hd

end Sys2Proof.Proofs
end

