-- ==== Sys2Proof/Proofs/PixelWrites.lean ====
section
/-! SUPPORT. Several byte writes to distinct addresses, and the bytes that STQ writes (spec/44_quantizer_store.md R200): which
instruction changes which framebuffer bytes. -/

namespace Sys2Proof.Proofs

open Sys2Proof.Machine Sys2Proof.Laws

/-! ### Byte writes -/

/-- A byte written reads as what was written, where no write gives its address another value. -/
theorem fbByte_fbPutAll_of_mem {s : State} {ws : List (ℕ × Byte)} {a : ℕ} {b : Byte} (h : (a, b) ∈ ws)
    (hsame : ∀ p ∈ ws, p.1 = a → p.2 = b) : fbByte (fbPutAll s ws) a = b := by
  induction ws generalizing s with
  | nil => exact absurd h List.not_mem_nil
  | cons p ws ih =>
    rw [fbPutAll_cons]
    by_cases hlater : (a, b) ∈ ws
    · exact ih hlater fun q hq => hsame q (List.mem_cons_of_mem _ hq)
    · obtain rfl : (a, b) = p := (List.mem_cons.1 h).resolve_right hlater
      have hlast : ∀ q ∈ ws, a ≠ q.1 := fun q hq e => by
        have hq' : q = (a, b) := Prod.ext e.symm (hsame q (List.mem_cons_of_mem _ hq) e.symm)
        exact hlater (hq' ▸ hq)
      rw [fbByte_fbPutAll_of_not_mem _ _ _ hlast, fbByte_fbPut, if_pos rfl]

/-- The byte writes `val 0` to `val (n - 1)` at the addresses `addr 0` to `addr (n - 1)`. -/
def indexedWrites (n : ℕ) (addr : ℕ → ℕ) (val : ℕ → Byte) : List (ℕ × Byte) :=
  (List.range n).map fun i => (addr i, val i)

theorem mem_indexedWrites {n : ℕ} {addr : ℕ → ℕ} {val : ℕ → Byte} {p : ℕ × Byte} :
    p ∈ indexedWrites n addr val ↔ ∃ i < n, (addr i, val i) = p := by
  simp [indexedWrites]

theorem fbByte_indexedWrites {n : ℕ} {addr : ℕ → ℕ} (val : ℕ → Byte) (hinj : Function.Injective addr) (s : State) {i : ℕ}
    (hi : i < n) : fbByte (fbPutAll s (indexedWrites n addr val)) (addr i) = val i := by
  refine fbByte_fbPutAll_of_mem (mem_indexedWrites.2 ⟨i, hi, rfl⟩) fun p hp e => ?_
  obtain ⟨k, -, rfl⟩ := mem_indexedWrites.1 hp
  exact congrArg val (hinj e)

theorem fbByte_indexedWrites_of_ne {n : ℕ} {addr : ℕ → ℕ} (val : ℕ → Byte) (s : State) {a : ℕ} (h : ∀ i < n, a ≠ addr i) :
    fbByte (fbPutAll s (indexedWrites n addr val)) a = fbByte s a := by
  refine fbByte_fbPutAll_of_not_mem _ _ _ fun p hp => ?_
  obtain ⟨i, hi, rfl⟩ := mem_indexedWrites.1 hp
  exact h i hi

/-! ### STQ -/

/-- The byte STQ writes for lane `j`. -/
def stqByte (s : State) (ra : VReg) (j : ℕ) : Byte := quantize s.frame.qmode (regLane s ra j)

theorem stqWrites_eq (s : State) (ra : VReg) (ch : Channel) :
    stqWrites s ra ch = indexedWrites s.params.laneWidth (stqAddr s ch) (stqByte s ra) := rfl

theorem mem_stqWrites {s : State} {ra : VReg} {ch : Channel} {p : ℕ × Byte} :
    p ∈ stqWrites s ra ch ↔ ∃ j < s.params.laneWidth, (stqAddr s ch j, stqByte s ra j) = p :=
  mem_indexedWrites

theorem channel_index_lt (ch : Channel) : ch.index < 3 := by
  cases ch <;> decide

/-- No two lanes have the same address. -/
theorem stqAddr_injective (s : State) (ch : Channel) : Function.Injective (stqAddr s ch) := by
  intro i j h
  simp only [stqAddr, fbaddr] at h
  omega

/-- STQ completes where the address of every lane lies in the space. -/
theorem exec_stq {s : State} {ra : VReg} {ch : Channel}
    (h : ∀ j < s.params.laneWidth, stqAddr s ch j < s.params.fbCapacity) :
    exec (.stq ra ch) s = .next (advance (fbPutAll s (stqWrites s ra ch))) := by
  rcases storeLanes_cases (stqWrites s ra ch) s with ⟨p, hp, hcap, -⟩ | ⟨-, hn⟩
  · obtain ⟨j, hj, rfl⟩ := mem_stqWrites.1 hp
    exact absurd (h j hj) (not_lt.2 hcap)
  · exact hn

/-- Settles O36. -/
theorem storeWritesTheQuantizedLanes : Obligations.StoreWritesTheQuantizedLanes := by
  intro s ra ch hturn hspace
  refine ⟨_, exec_stq hspace, ?_⟩
  rw [advance_fbPutAll]
  refine ⟨rfl, length_advance s, fun w hw => worker_advance_of_ne s hw, ?_, fun r => reg_advance s r hturn,
    fun j hj => ?_, fun a ha => ?_⟩
  · exact (me_advance s hturn).symm ▸ s.me.advance_spec
  · exact fbByte_indexedWrites (stqByte s ra) (stqAddr_injective s ch) s hj
  · exact fbByte_indexedWrites_of_ne (stqByte s ra) s ha

/-! ### The bytes a worker's step changes -/

/-- An instruction leaves the framebuffer alone, unless it is STQ, which makes its byte writes. -/
theorem fb_of_shape {i : Instr} {s t : State} (h : Shape i s t) :
    t.fb = s.fb ∨ ∃ ra ch, t.fb = (fbPutAll s (stqWrites s ra ch)).fb := by
  cases h with
  | fault c _ ht => exact .inl (ht ▸ rfl)
  | ended _ ht =>
    rw [ht]
    rcases endInvocation_cases s with ⟨-, e⟩ | ⟨-, e⟩ <;> rw [e]
    · exact .inl rfl
    · rw [completeRow_eq]
      exact .inl rfl
  | looped count len _ _ _ ht => exact .inl (ht ▸ rfl)
  | written v _ _ ht => exact .inl (ht ▸ rfl)
  | stored ra ch _ _ ht => exact .inr ⟨ra, ch, ht ▸ rfl⟩

theorem fb_of_fetchExecute {s t : State} (hturn : s.turn < s.workers.length) (h : fetchExecute s = .next t) :
    t.fb = s.fb ∨ ∃ ra ch, t.fb = (fbPutAll s (stqWrites s ra ch)).fb := by
  rcases fetchExecute_cases s with ⟨-, e⟩ | ⟨c, -, -, e⟩ | ⟨i, -, -, e⟩
  · rw [e] at h
    exact .inl (by injection h with h; exact h ▸ rfl)
  · rw [e] at h
    exact .inl (by injection h with h; exact h ▸ rfl)
  · exact fb_of_shape (exec_cases hturn (e ▸ h))

/-- Reading a framebuffer byte looks at the framebuffer only. -/
theorem fbByte_congr {s t : State} (h : t.fb = s.fb) (a : ℕ) : fbByte t a = fbByte s a := by
  rw [fbByte, fbByte, h]

/-- A byte that a worker's step changes is the byte of a lane of the worker. -/
theorem exists_lane_of_fetchExecute {s t : State} (hturn : s.turn < s.workers.length) (h : fetchExecute s = .next t) {a : ℕ}
    (hne : fbByte t a ≠ fbByte s a) : ∃ ch, ∃ j < s.params.laneWidth, a = stqAddr s ch j := by
  rcases fb_of_fetchExecute hturn h with e | ⟨ra, ch, e⟩
  · exact absurd (fbByte_congr e a) hne
  · by_contra hnone
    push Not at hnone
    exact hne ((fbByte_congr e a).trans (fbByte_indexedWrites_of_ne (stqByte s ra) s (hnone ch)))

end Sys2Proof.Proofs
end

