-- ==== Sys2Proof/Proofs/RowSlices.lean ====
section
/-! SUPPORT. The slice of framebuffer space that a row owns (spec/20_memory.md R52, R57). The row invariant puts the lanes of every
active worker into its own row's slice and that slice into the space, and gives no two active workers the same row. From this: no
step stops, and no two workers write the same byte. -/

namespace Sys2Proof.Proofs

open Sys2Proof.Machine Sys2Proof.Laws

variable {s : State} {w r a : ℕ}

/-! ### Slices -/

/-- The byte belongs to the row (spec/20_memory.md R52). -/
def InSlice (s : State) (r a : ℕ) : Prop :=
  r * s.frame.w.toNat * 3 ≤ a ∧ a < r * s.frame.w.toNat * 3 + s.frame.w.toNat * 3

/-- The row of a byte is found by dividing by the row's size. -/
theorem InSlice.div_eq (h : InSlice s r a) : a / (s.frame.w.toNat * 3) = r := by
  obtain ⟨hlo, hhi⟩ := h
  rw [Nat.mul_assoc] at hlo hhi
  exact Nat.div_eq_of_lt_le hlo (hhi.trans_eq (Nat.succ_mul _ _).symm)

/-- The slices of a legal frame's rows lie in the space. -/
theorem InSlice.lt_fbCapacity (h : InSlice s r a) (hlegal : FrameLegal s) (hr : r < s.frame.h.toNat) :
    a < s.params.fbCapacity := by
  obtain ⟨-, -, hfit, -⟩ := hlegal
  calc a < r * s.frame.w.toNat * 3 + s.frame.w.toNat * 3 := h.2
    _ = (r + 1) * s.frame.w.toNat * 3 := by ring
    _ ≤ s.frame.h.toNat * s.frame.w.toNat * 3 := by gcongr; exact hr
    _ = s.frame.w.toNat * s.frame.h.toNat * 3 := by ring
    _ ≤ s.params.fbCapacity := hfit

/-- The lanes of a lane group inside its row are in the row's slice. -/
theorem inSlice_stqAddr (h : InRow s s.me) (ch : Channel) {j : ℕ} (hj : j < s.params.laneWidth) :
    InSlice s s.me.row (stqAddr s ch j) := by
  obtain ⟨-, hfit⟩ := h
  have hch := channel_index_lt ch
  simp only [InSlice, stqAddr, fbaddr]
  omega

/-- The lanes of a lane group inside its row lie in columns below F.G * L (spec/45_row_dispatch.md R238). -/
theorem InRow.column_lt {u : Worker} (h : InRow s u) (hlegal : FrameLegal s) {j : ℕ} (hj : j < s.params.laneWidth) :
    u.x0 + j < s.frame.g * s.params.laneWidth := by
  obtain ⟨hdvd, hfit⟩ := h
  obtain ⟨-, -, -, -, hgroups⟩ := hlegal
  obtain ⟨q, hq⟩ := Nat.dvd_of_mod_eq_zero hdvd
  have hstart : u.x0 = q * s.params.laneWidth := hq.trans (Nat.mul_comm _ _)
  have hcount : q + 1 ≤ s.frame.g := by
    rw [hgroups, Nat.le_div_iff_mul_le (Nat.zero_lt_of_lt hj), Nat.succ_mul, ← hstart]
    exact hfit
  calc u.x0 + j < (q + 1) * s.params.laneWidth := by rw [Nat.succ_mul, ← hstart]; omega
    _ ≤ s.frame.g * s.params.laneWidth := Nat.mul_le_mul_right _ hcount

/-! ### The rows of active workers -/

/-- A row that a worker holds is a row of the frame. -/
theorem RowHeld.row_lt (h : RowHeld s w r) : r < s.frame.h.toNat :=
  (mem_allRows s r).1 (h.parts.mem_iff.1 (List.mem_append_right _ List.mem_cons_self))

/-- A row that a worker holds is held by no other active worker. -/
theorem RowHeld.row_ne (h : RowHeld s w r) {u : Worker} (hu : u ∈ others s w) (ha : u.wstate = .active) : u.row ≠ r := by
  have hnodup : (r :: heldRows (others s w)).Nodup := (h.parts.nodup_iff.2 List.nodup_range).of_append_right
  have hheld : u.row ∈ heldRows (others s w) := List.mem_map_of_mem (List.mem_filter.2 ⟨hu, by simp [ha]⟩)
  exact fun e => (List.nodup_cons.1 hnodup).1 (e ▸ hheld)

theorem worker_mem_others {v : ℕ} (hv : v < s.workers.length) (hne : v ≠ w) : s.worker v ∈ others s w :=
  List.mem_eraseIdx_iff_getElem.2 ⟨v, hv, hne, (worker_eq_getElem s hv).symm⟩

/-- Where a worker is active a frame runs. -/
theorem running_of_active (h : DispatchOk s) (hw : w < s.workers.length) (ha : (s.worker w).wstate = .active) :
    s.fstate = .running := by
  cases hf : s.fstate with
  | running => rfl
  | idle => exact absurd (((h.1 hf).2 _ (worker_mem s hw)).symm.trans ha) (by decide)

/-- Two active workers hold different rows. -/
theorem active_rows_ne (h : DispatchOk s) {v : ℕ} (hv : v < s.workers.length) (hw : w < s.workers.length) (hne : v ≠ w)
    (hav : (s.worker v).wstate = .active) (haw : (s.worker w).wstate = .active) : (s.worker v).row ≠ (s.worker w).row := by
  have hx : Executing { s with turn := w } := ⟨running_of_active h hw haw, hw, haw⟩
  obtain ⟨hheld, -⟩ := rowHeld_of_executing (s := { s with turn := w }) h hx
  exact hheld.row_ne (worker_mem_others (s := { s with turn := w }) hv hne) hav

/-! ### No step stops -/

/-- Every address STQ can write lies in the space. -/
theorem stqAddr_lt_fbCapacity (h : DispatchOk s) (hx : Executing s) (ch : Channel) {j : ℕ} (hj : j < s.params.laneWidth) :
    stqAddr s ch j < s.params.fbCapacity := by
  obtain ⟨hheld, hin⟩ := rowHeld_of_executing h hx
  exact (inSlice_stqAddr hin ch hj).lt_fbCapacity hheld.legal hheld.row_lt

/-- STQ is the only instruction that can stop. -/
theorem exec_answers (i : Instr) (hstq : ∀ ch, ∀ j < s.params.laneWidth, stqAddr s ch j < s.params.fbCapacity) :
    ∃ t, exec i s = .next t := by
  have next_ite : ∀ {c : Prop} [Decidable c] (x y : State),
      ∃ t, (if c then .next x else .next y : Host.Outcome State Fault Refusal) = .next t := fun x y => by
    split_ifs
    · exact ⟨x, rfl⟩
    · exact ⟨y, rfl⟩
  cases i with
  | stq ra ch => exact ⟨_, exec_stq (hstq ch)⟩
  | loop count len =>
    by_cases hn : s.me.lactive = true
    · exact ⟨_, if_pos hn⟩
    · exact (next_ite _ _).imp fun _ => (if_neg hn).trans
  | dot2 rd ra rb => exact next_ite _ _
  | dot4 rd ra rb => exact next_ite _ _
  | swz4 rd ra => exact next_ite _ _
  | swap2 rd ra => exact next_ite _ _
  | nop => exact ⟨_, rfl⟩
  | endInv => exact ⟨_, rfl⟩
  | rds rd sel => exact ⟨_, rfl⟩
  | fmov rd ra => exact ⟨_, rfl⟩
  | flih rd imm => exact ⟨_, rfl⟩
  | flil rd imm => exact ⟨_, rfl⟩
  | fadd rd ra rb => exact ⟨_, rfl⟩
  | fsub rd ra rb => exact ⟨_, rfl⟩
  | fmul rd ra rb => exact ⟨_, rfl⟩
  | fdiv rd ra rb => exact ⟨_, rfl⟩
  | fabs rd ra => exact ⟨_, rfl⟩
  | fneg rd ra => exact ⟨_, rfl⟩
  | fsin rd ra => exact ⟨_, rfl⟩
  | fcos rd ra => exact ⟨_, rfl⟩
  | fexp rd ra => exact ⟨_, rfl⟩
  | ftanh rd ra => exact ⟨_, rfl⟩

theorem fetchExecute_answers (h : DispatchOk s) (hx : Executing s) : ∃ t, fetchExecute s = .next t := by
  rcases fetchExecute_cases s with ⟨-, e⟩ | ⟨c, -, -, e⟩ | ⟨i, -, -, e⟩
  · exact ⟨_, e⟩
  · exact ⟨_, e⟩
  · exact e ▸ exec_answers i fun ch _ hj => stqAddr_lt_fbCapacity h hx ch hj

theorem perform_answers (h : DispatchOk s) (e : Event) : ∃ t, perform e s = .next t := by
  cases e with
  | reset => exact ⟨_, rfl⟩
  | host op => exact ⟨_, rfl⟩
  | claim w r => exact ⟨_, rfl⟩
  | work w =>
    by_cases hen : workEnabled s w = true
    · rw [perform_work_of_enabled hen]
      exact fetchExecute_answers (s := { s with turn := w }) h (executing_of_enabled hen)
    · exact ⟨s, perform_work_of_not_enabled hen⟩

/-- Settles O53. -/
theorem noStepStops : Obligations.NoStepStops := by
  intro s h
  have htaken : DispatchOk (takeEvent s) := by
    rw [takeEvent_eq]
    exact h
  rw [step_eq]
  exact perform_answers htaken _

/-! ### Disjoint slices -/

/-- A byte that a worker's step changes belongs to a lane of the worker's own lane group, and the worker is active. -/
theorem changed_byte_in_lane_group {t : State} {rest : List Event} (hag : s.agenda = .work w :: rest)
    (hstep : step s = .next t) (hne : fbByte t a ≠ fbByte s a) :
    Executing { s with turn := w } ∧ ∃ ch, ∃ j < s.params.laneWidth, a = stqAddr { s with turn := w } ch j := by
  rw [step_of_agenda hag] at hstep
  by_cases hen : workEnabled { s with agenda := rest } w = true
  · have hx : Executing { s with agenda := rest, turn := w } := executing_of_enabled hen
    rw [perform_work_of_enabled hen] at hstep
    exact ⟨⟨hx.running, hx.turn_lt, hx.active⟩, exists_lane_of_fetchExecute hx.turn_lt hstep hne⟩
  · rw [perform_work_of_not_enabled hen] at hstep
    injection hstep with ht
    exact absurd (ht ▸ rfl) hne

/-- Settles O54. -/
theorem workersWriteTheirOwnDisjointSlices : Obligations.WorkersWriteTheirOwnDisjointSlices := by
  refine ⟨fun s t w rest h hag hstep a hne => ?_, fun s v w a h hv hw hvw hav haw hlo hhi hother => ?_⟩
  · obtain ⟨hx, ch, j, hj, rfl⟩ := changed_byte_in_lane_group hag hstep hne
    obtain ⟨hheld, hin⟩ := rowHeld_of_executing (s := { s with turn := w }) h hx
    exact ⟨hx.turn_lt, hx.active, ⟨j, ch, hj, rfl, hin.column_lt hheld.legal hj⟩, inSlice_stqAddr hin ch hj⟩
  · have hslice : InSlice s (s.worker v).row a := ⟨hlo, hhi⟩
    exact active_rows_ne h hv hw hvw hav haw (hslice.div_eq.symm.trans (InSlice.div_eq hother))

end Sys2Proof.Proofs
end

