-- ==== Sys2Proof/Proofs/HostBytes.lean ====
section
/-! SUPPORT. The host's accesses to framebuffer space, byte by byte in little-endian order (spec/20_memory.md R51, R54), and the
accesses to both spaces that are bus errors (R50, R51). -/

namespace Sys2Proof.Proofs

open Sys2Proof.Machine Sys2Proof.Laws

/-! ### Which accesses are taken -/

theorem csrLegal_iff (off n : ℕ) : csrLegal off n = true ↔ n = 4 ∧ off % 4 = 0 ∧ off < 2 ^ 20 := by
  simp [csrLegal, and_assoc]

theorem fbLegal_iff (s : State) (off n : ℕ) :
    fbLegal s off n = true ↔ (n = 1 ∨ n = 2 ∨ n = 4) ∧ off % n = 0 ∧ off + n ≤ s.params.fbCapacity := by
  simp [fbLegal, and_assoc, or_assoc]

theorem hostStep_csrRead_illegal (s : State) {off n : ℕ} (h : csrLegal off n ≠ true) :
    hostStep (.csrRead off n) s = { s with resp := .readError 0 } := by
  rw [hostStep, if_neg h]

theorem hostStep_csrWrite_illegal (s : State) {off n : ℕ} (h : csrLegal off n ≠ true) (v : Word) :
    hostStep (.csrWrite off n v) s = { s with resp := .writeError } :=
  if_neg h

theorem hostStep_fbRead_legal {s : State} {off n : ℕ} (h : fbLegal s off n = true) :
    hostStep (.fbRead off n) s = { s with resp := .readData (fbLoad s off n) } := by
  rw [hostStep, if_pos h]

theorem hostStep_fbRead_illegal {s : State} {off n : ℕ} (h : fbLegal s off n ≠ true) :
    hostStep (.fbRead off n) s = { s with resp := .readError 0 } := by
  rw [hostStep, if_neg h]

theorem hostStep_fbWrite_legal {s : State} {off n : ℕ} (h : fbLegal s off n = true) (v : Word) :
    hostStep (.fbWrite off n v) s = { fbStore s off n v with resp := .writeDone } :=
  if_pos h

theorem hostStep_fbWrite_illegal {s : State} {off n : ℕ} (h : fbLegal s off n ≠ true) (v : Word) :
    hostStep (.fbWrite off n v) s = { s with resp := .writeError } :=
  if_neg h

/-- Settles O46. -/
theorem badHostAccessesAreBusErrors : Obligations.BadHostAccessesAreBusErrors := by
  intro s off n v
  refine ⟨fun h => ?_, fun h => ?_⟩
  · have hbad : csrLegal off n ≠ true := by
      rw [ne_eq, csrLegal_iff]
      omega
    exact ⟨hostStep_csrRead_illegal s hbad, hostStep_csrWrite_illegal s hbad v⟩
  · have hbad : fbLegal s off n ≠ true := by
      rw [ne_eq, fbLegal_iff]
      omega
    exact ⟨hostStep_fbRead_illegal hbad, hostStep_fbWrite_illegal hbad v⟩

/-! ### Little-endian words -/

/-- The word of some bytes, the first one in bits 7:0 (spec/20_memory.md R54). -/
def littleEndian (bs : List Byte) : Word := bs.foldr (fun b acc => acc <<< 8 ||| b.setWidth 32) 0

theorem fbLoad_eq (s : State) (off n : ℕ) :
    fbLoad s off n = littleEndian ((List.range n).map fun i => fbByte s (off + i)) := by
  rw [littleEndian, List.foldr_map, fbLoad]

theorem littleEndian_cons (b : Byte) (bs : List Byte) :
    littleEndian (b :: bs) = littleEndian bs <<< 8 ||| b.setWidth 32 := rfl

/-- Bit `k` of the word is bit `k % 8` of byte `k / 8`. -/
theorem littleEndian_getLsbD (bs : List Byte) {k : ℕ} (hk : k < 32) :
    (littleEndian bs).getLsbD k = (bs.getD (k / 8) 0).getLsbD (k % 8) := by
  induction bs generalizing k with
  | nil => simp [littleEndian]
  | cons b bs ih =>
    rw [littleEndian_cons, BitVec.getLsbD_or, BitVec.getLsbD_shiftLeft, BitVec.getLsbD_setWidth]
    by_cases hlow : k < 8
    · simp [hk, hlow, Nat.div_eq_of_lt hlow, Nat.mod_eq_of_lt hlow]
    · have hdiv : k / 8 = (k - 8) / 8 + 1 := by omega
      have hmod : k % 8 = (k - 8) % 8 := by omega
      rw [ih (by omega), hdiv, hmod, List.getD_cons_succ, BitVec.getLsbD_of_ge b k (not_lt.1 hlow)]
      simp [hk, hlow]

theorem extractLsb'_littleEndian (bs : List Byte) {i : ℕ} (hi : i < 4) :
    (littleEndian bs).extractLsb' (8 * i) 8 = bs.getD i 0 := by
  apply BitVec.eq_of_getLsbD_eq
  intro k hk
  have hdiv : (8 * i + k) / 8 = i := by omega
  have hmod : (8 * i + k) % 8 = k := by omega
  rw [BitVec.getLsbD_extractLsb', littleEndian_getLsbD bs (by omega), hdiv, hmod, decide_eq_true hk, Bool.true_and]

theorem littleEndian_lt (bs : List Byte) : (littleEndian bs).toNat < 256 ^ bs.length := by
  induction bs with
  | nil => decide
  | cons b bs ih =>
    have hpow : 256 ^ (b :: bs).length = 2 ^ (8 * bs.length + 8) := by
      rw [List.length_cons, show 256 = 2 ^ 8 by rfl, ← Nat.pow_mul]
      ring_nf
    have hbs : (littleEndian bs).toNat * 2 ^ 8 < 2 ^ (8 * bs.length + 8) := by
      rw [Nat.pow_add, Nat.pow_mul]
      exact Nat.mul_lt_mul_of_pos_right ih (by decide)
    have hb : b.toNat < 2 ^ (8 * bs.length + 8) := b.isLt.trans_le (Nat.pow_le_pow_right (by decide) (by omega))
    rw [littleEndian_cons, BitVec.toNat_or, BitVec.toNat_shiftLeft, Nat.shiftLeft_eq, hpow]
    refine Nat.or_lt_two_pow ((Nat.mod_le _ _).trans_lt hbs) ?_
    rw [BitVec.toNat_setWidth]
    exact (Nat.mod_le _ _).trans_lt hb

/-! ### Framebuffer accesses -/

theorem fbStore_eq (s : State) (off n : ℕ) (v : Word) :
    fbStore s off n v = fbPutAll s (indexedWrites n (fun i => off + i) fun i => v.extractLsb' (8 * i) 8) := rfl

theorem extractLsb'_fbLoad (s : State) (off : ℕ) {n i : ℕ} (hi : i < n) (h4 : i < 4) :
    (fbLoad s off n).extractLsb' (8 * i) 8 = fbByte s (off + i) := by
  rw [fbLoad_eq, extractLsb'_littleEndian _ h4]
  simp [hi]

theorem fbLoad_lt (s : State) (off n : ℕ) : (fbLoad s off n).toNat < 256 ^ n := by
  simpa [fbLoad_eq] using littleEndian_lt ((List.range n).map fun i => fbByte s (off + i))

/-- Settles O47. -/
theorem hostFramebufferAccessIsLittleEndian : Obligations.HostFramebufferAccessIsLittleEndian := by
  intro s off n v hn halign hspace
  have hlegal : fbLegal s off n = true := (fbLegal_iff s off n).2 ⟨hn, halign, hspace⟩
  refine ⟨⟨_, hostStep_fbWrite_legal hlegal v, ?_, rfl, fun i hi => ?_, fun a ha => ?_⟩,
    _, hostStep_fbRead_legal hlegal, fun i hi => extractLsb'_fbLoad s off hi (by omega), fbLoad_lt s off n⟩
  · rw [fbStore_eq, fbPutAll_eq]
  · exact fbByte_indexedWrites (fun i => v.extractLsb' (8 * i) 8) (add_right_injective off) s hi
  · exact fbByte_indexedWrites_of_ne (fun i => v.extractLsb' (8 * i) 8) s fun i hi => by omega

end Sys2Proof.Proofs
end

