-- ==== Sys2Proof/Proofs/WordFields.lean ====
section
/-! SUPPORT. The opcodes and the fields of a word (spec/30_encoding.md R71 to R73): a word whose reserved bits are clear is the word
its own fields build, in each of the seven formats. -/

namespace Sys2Proof.Proofs

open Sys2Proof.Machine Sys2Proof.Laws

/-! ### Opcodes, selectors and channels -/

/-- The opcode of R77's row. -/
def opCode : Op → BitVec 6
  | .nop => 0x01
  | .endInv => 0x02
  | .loop => 0x03
  | .rds => 0x04
  | .fmov => 0x05
  | .flih => 0x06
  | .flil => 0x07
  | .fadd => 0x08
  | .fsub => 0x09
  | .fmul => 0x0A
  | .fdiv => 0x0B
  | .fabs => 0x0C
  | .fneg => 0x0D
  | .dot2 => 0x0E
  | .dot4 => 0x0F
  | .fsin => 0x10
  | .fcos => 0x11
  | .fexp => 0x12
  | .ftanh => 0x13
  | .swz4 => 0x14
  | .swap2 => 0x15
  | .stq => 0x16

theorem opOf_opCode (op : Op) : opOf (opCode op).toNat = some op := by
  cases op <;> rfl

theorem opCode_of_opOf : ∀ (b : BitVec 6), ∀ op ∈ opOf b.toNat, opCode op = b := by
  decide

theorem opOf_eq_some_iff {b : BitVec 6} {op : Op} : opOf b.toNat = some op ↔ b = opCode op :=
  ⟨fun h => (opCode_of_opOf b op h).symm, fun h => h ▸ opOf_opCode op⟩

theorem opOf_eq_none_iff : ∀ b : BitVec 6, opOf b.toNat = none ↔ b = 0 ∨ 0x17 ≤ b.toNat := by
  decide

theorem selOf_eq_none_iff : ∀ b : BitVec 4, selOf b.toNat = none ↔ 5 < b.toNat := by
  decide

theorem selBits_of_selOf : ∀ b : BitVec 4, ∀ sel ∈ selOf b.toNat, sel.bits = b := by
  decide

theorem selOf_selBits (sel : Sel) : selOf sel.bits.toNat = some sel := by
  cases sel <;> rfl

theorem channelOf_eq_none_iff : ∀ b : BitVec 2, channelOf b.toNat = none ↔ b.toNat = 3 := by
  decide

theorem channelBits_of_channelOf : ∀ b : BitVec 2, ∀ ch ∈ channelOf b.toNat, ch.bits = b := by
  decide

theorem channelOf_channelBits (ch : Channel) : channelOf ch.bits.toNat = some ch := by
  cases ch <;> rfl

/-! ### A word from its own fields -/

/-- Two neighbouring fields of a word are one field. -/
theorem field_append_field (w : Word) (start m n : ℕ) :
    w.extractLsb' (start + n) m ++ w.extractLsb' start n = w.extractLsb' start (m + n) :=
  BitVec.extractLsb'_append_extractLsb'_eq_extractLsb' rfl

/-- A field that a mask covers is 0 where the masked word is. -/
theorem field_eq_zero_of_and {w mask : Word} (start len : ℕ) (hw : w &&& mask = 0)
    (hmask : mask.extractLsb' start len = BitVec.allOnes len) : w.extractLsb' start len = 0 := by
  have hfield : (w &&& mask).extractLsb' start len = 0 := by simp [hw]
  rwa [BitVec.extractLsb'_and, hmask, BitVec.and_allOnes] at hfield

section

variable {w : Word} {op : BitVec 6}

theorem wordN_fields (hop : fieldOp w = op) (hres : w &&& Format.n.reservedMask = 0) : wordN op = w := by
  have hlow : w.extractLsb' 0 26 = 0 := field_eq_zero_of_and 0 26 hres (by decide)
  calc wordN op
      = w.extractLsb' 26 6 ++ w.extractLsb' 0 26 := by rw [hlow, ← hop]; rfl
    _ = w := by rw [field_append_field w 0 6 26, BitVec.extractLsb'_eq_self]

theorem wordR3_fields (hop : fieldOp w = op) (hres : w &&& Format.r3.reservedMask = 0) :
    wordR3 op (fieldRd w) (fieldRa w) (fieldRb w) = w := by
  have hlow : w.extractLsb' 0 11 = 0 := field_eq_zero_of_and 0 11 hres (by decide)
  calc wordR3 op (fieldRd w) (fieldRa w) (fieldRb w)
      = w.extractLsb' 26 6 ++ w.extractLsb' 21 5 ++ w.extractLsb' 16 5 ++ w.extractLsb' 11 5 ++ w.extractLsb' 0 11 := by
        rw [hlow, ← hop]; rfl
    _ = w := by
        rw [field_append_field w 21 6 5, field_append_field w 16 11 5, field_append_field w 11 16 5,
          field_append_field w 0 21 11, BitVec.extractLsb'_eq_self]

theorem wordR2_fields (hop : fieldOp w = op) (hres : w &&& Format.r2.reservedMask = 0) :
    wordR2 op (fieldRd w) (fieldRa w) = w := by
  have hlow : w.extractLsb' 0 16 = 0 := field_eq_zero_of_and 0 16 hres (by decide)
  calc wordR2 op (fieldRd w) (fieldRa w)
      = w.extractLsb' 26 6 ++ w.extractLsb' 21 5 ++ w.extractLsb' 16 5 ++ w.extractLsb' 0 16 := by rw [hlow, ← hop]; rfl
    _ = w := by
        rw [field_append_field w 21 6 5, field_append_field w 16 11 5, field_append_field w 0 16 16,
          BitVec.extractLsb'_eq_self]

theorem wordI16_fields (hop : fieldOp w = op) (hres : w &&& Format.i16.reservedMask = 0) :
    wordI16 op (fieldRd w) (fieldImm w) = w := by
  have hmid : w.extractLsb' 16 5 = 0 := field_eq_zero_of_and 16 5 hres (by decide)
  calc wordI16 op (fieldRd w) (fieldImm w)
      = w.extractLsb' 26 6 ++ w.extractLsb' 21 5 ++ w.extractLsb' 16 5 ++ w.extractLsb' 0 16 := by rw [hmid, ← hop]; rfl
    _ = w := by
        rw [field_append_field w 21 6 5, field_append_field w 16 11 5, field_append_field w 0 16 16,
          BitVec.extractLsb'_eq_self]

theorem wordSP_fields (hop : fieldOp w = op) (hres : w &&& Format.sp.reservedMask = 0) :
    wordSP op (fieldRd w) (w.extractLsb' 0 4) = w := by
  have hmid : w.extractLsb' 4 17 = 0 := field_eq_zero_of_and 4 17 hres (by decide)
  calc wordSP op (fieldRd w) (w.extractLsb' 0 4)
      = w.extractLsb' 26 6 ++ w.extractLsb' 21 5 ++ w.extractLsb' 4 17 ++ w.extractLsb' 0 4 := by rw [hmid, ← hop]; rfl
    _ = w := by
        rw [field_append_field w 21 6 5, field_append_field w 4 11 17, field_append_field w 0 28 4,
          BitVec.extractLsb'_eq_self]

theorem wordST_fields (hop : fieldOp w = op) (hres : w &&& Format.st.reservedMask = 0) :
    wordST op (fieldRa w) (w.extractLsb' 0 2) = w := by
  have hhigh : w.extractLsb' 21 5 = 0 := field_eq_zero_of_and 21 5 hres (by decide)
  have hmid : w.extractLsb' 2 14 = 0 := field_eq_zero_of_and 2 14 hres (by decide)
  calc wordST op (fieldRa w) (w.extractLsb' 0 2)
      = w.extractLsb' 26 6 ++ w.extractLsb' 21 5 ++ w.extractLsb' 16 5 ++ w.extractLsb' 2 14 ++ w.extractLsb' 0 2 := by
        rw [hhigh, hmid, ← hop]; rfl
    _ = w := by
        rw [field_append_field w 21 6 5, field_append_field w 16 11 5, field_append_field w 2 16 14,
          field_append_field w 0 30 2, BitVec.extractLsb'_eq_self]

theorem wordLP_fields (hop : fieldOp w = op) (hres : w &&& Format.lp.reservedMask = 0) :
    wordLP op (fieldCount w) (fieldLen w) = w := by
  have hmid : w.extractLsb' 16 10 = 0 := field_eq_zero_of_and 16 10 hres (by decide)
  calc wordLP op (fieldCount w) (fieldLen w)
      = w.extractLsb' 26 6 ++ w.extractLsb' 16 10 ++ w.extractLsb' 8 8 ++ w.extractLsb' 0 8 := by rw [hmid, ← hop]; rfl
    _ = w := by
        rw [field_append_field w 16 6 10, field_append_field w 8 16 8, field_append_field w 0 24 8,
          BitVec.extractLsb'_eq_self]

end

end Sys2Proof.Proofs
end

