-- ==== Sys2Proof/Proofs/Decoder.lean ====
section
/-! SUPPORT. The decoder, said once (spec/30_encoding.md R77 to R81): a word is unassigned, has a reserved bit set, has a bad selector
or channel, or is the word of an instruction, which the decoder gives back where its register groups fit. -/

namespace Sys2Proof.Proofs

open Sys2Proof.Machine Sys2Proof.Laws

/-! ### The checks in their order -/

section

variable {w : Word} {op : Op}

theorem decode_of_unassigned (hop : opOf (fieldOp w).toNat = none) : decode w = .error .illegalOpcode := by
  rw [decode, hop]

theorem decode_of_reserved (hop : opOf (fieldOp w).toNat = some op) (hres : w &&& op.format.reservedMask ≠ 0) :
    decode w = .error .reservedBits := by
  rw [decode, hop]
  exact if_pos hres

theorem decode_of_assigned (hop : opOf (fieldOp w).toNat = some op) (hres : w &&& op.format.reservedMask = 0) :
    decode w = assemble op w := by
  rw [decode, hop]
  exact if_neg (not_not.2 hres)

end

/-! ### Register groups -/

theorem checkGroups_eq_ok_iff {i j : Instr} : checkGroups i = .ok j ↔ i = j ∧ i.wellFormed = true := by
  unfold checkGroups
  split_ifs with h <;> simp [h]

theorem checkGroups_eq_error_iff {i : Instr} {c : FaultCode} :
    checkGroups i = .error c ↔ c = .regRange ∧ i.wellFormed = false := by
  unfold checkGroups
  split_ifs with h <;> simp [h, eq_comm]

/-! ### The word of an instruction -/

theorem encode_opcodeAndReservedBits : ∀ i : Instr, OpcodeAndReservedBits.Statement i
  | .nop => OpcodeAndReservedBits.nop
  | .endInv => OpcodeAndReservedBits.endInv
  | .loop _ _ => OpcodeAndReservedBits.loop _ _
  | .rds _ _ => OpcodeAndReservedBits.rds _ _
  | .fmov _ _ => OpcodeAndReservedBits.fmov _ _
  | .flih _ _ => OpcodeAndReservedBits.flih _ _
  | .flil _ _ => OpcodeAndReservedBits.flil _ _
  | .fadd _ _ _ => OpcodeAndReservedBits.fadd _ _ _
  | .fsub _ _ _ => OpcodeAndReservedBits.fsub _ _ _
  | .fmul _ _ _ => OpcodeAndReservedBits.fmul _ _ _
  | .fdiv _ _ _ => OpcodeAndReservedBits.fdiv _ _ _
  | .fabs _ _ => OpcodeAndReservedBits.fabs _ _
  | .fneg _ _ => OpcodeAndReservedBits.fneg _ _
  | .dot2 _ _ _ => OpcodeAndReservedBits.dot2 _ _ _
  | .dot4 _ _ _ => OpcodeAndReservedBits.dot4 _ _ _
  | .fsin _ _ => OpcodeAndReservedBits.fsin _ _
  | .fcos _ _ => OpcodeAndReservedBits.fcos _ _
  | .fexp _ _ => OpcodeAndReservedBits.fexp _ _
  | .ftanh _ _ => OpcodeAndReservedBits.ftanh _ _
  | .swz4 _ _ => OpcodeAndReservedBits.swz4 _ _
  | .swap2 _ _ => OpcodeAndReservedBits.swap2 _ _
  | .stq _ _ => OpcodeAndReservedBits.stq _ _

/-- Assembling the word of an instruction from its own fields leaves the check of its register groups. -/
theorem assemble_encode : ∀ i : Instr, assemble i.op (encode i) = checkGroups i
  | .nop | .endInv => rfl
  | .loop _ _ => by simp [Instr.op, assemble, encode, wordLP_count, wordLP_len, checkGroups, Instr.wellFormed]
  | .rds _ _ => by
    simp [Instr.op, assemble, encode, wordSP_rd, wordSP_sel, selOf_selBits, checkGroups, Instr.wellFormed]
  | .stq _ _ => by
    simp [Instr.op, assemble, encode, wordST_ra, wordST_ch, channelOf_channelBits, checkGroups, Instr.wellFormed]
  | .flih _ _ | .flil _ _ => by
    simp [Instr.op, assemble, encode, wordI16_rd, wordI16_imm, checkGroups, Instr.wellFormed]
  | .fmov _ _ | .fabs _ _ | .fneg _ _ | .fsin _ _ | .fcos _ _ | .fexp _ _ | .ftanh _ _ => by
    simp [Instr.op, assemble, encode, wordR2_rd, wordR2_ra, checkGroups, Instr.wellFormed]
  | .fadd _ _ _ | .fsub _ _ _ | .fmul _ _ _ | .fdiv _ _ _ => by
    simp [Instr.op, assemble, encode, wordR3_rd, wordR3_ra, wordR3_rb, checkGroups, Instr.wellFormed]
  | .swz4 _ _ | .swap2 _ _ => by rw [encode, Instr.op, assemble, wordR2_rd, wordR2_ra]
  | .dot2 _ _ _ | .dot4 _ _ _ => by rw [encode, Instr.op, assemble, wordR3_rd, wordR3_ra, wordR3_rb]

theorem decode_encode (i : Instr) : decode (encode i) = checkGroups i := by
  obtain ⟨hop, hres⟩ := encode_opcodeAndReservedBits i
  rw [decode_of_assigned hop hres, assemble_encode]

/-- Settles O1. -/
theorem decodingAnEncodedInstructionGivesItBack : Obligations.DecodingAnEncodedInstructionGivesItBack := by
  intro i hwf
  rw [decode_encode]
  exact checkGroups_eq_ok_iff.2 ⟨rfl, hwf⟩

/-! ### Every word -/

/-- The selector or channel values that check 4 refuses (R78). -/
def BadOperand (op : Op) (w : Word) : Prop :=
  (op = .rds ∧ 5 < (w.extractLsb' 0 4).toNat) ∨ (op = .stq ∧ (w.extractLsb' 0 2).toNat = 3)

theorem assemble_of_badOperand {op : Op} {w : Word} (h : BadOperand op w) : assemble op w = .error .badOperand := by
  rcases h with ⟨rfl, hsel⟩ | ⟨rfl, hch⟩
  · rw [assemble, (selOf_eq_none_iff _).2 hsel]
  · rw [assemble, (channelOf_eq_none_iff _).2 hch]

/-- A word whose opcode is assigned and whose reserved bits are clear has a bad selector or channel, or is the word of an
instruction of its opcode. -/
theorem badOperand_or_encode {w : Word} {op : Op} (hop : fieldOp w = opCode op) (hres : w &&& op.format.reservedMask = 0) :
    BadOperand op w ∨ ∃ i : Instr, i.op = op ∧ encode i = w := by
  cases op with
  | nop => exact .inr ⟨.nop, rfl, wordN_fields hop hres⟩
  | endInv => exact .inr ⟨.endInv, rfl, wordN_fields hop hres⟩
  | loop => exact .inr ⟨.loop _ _, rfl, wordLP_fields hop hres⟩
  | rds =>
    cases hsel : selOf (w.extractLsb' 0 4).toNat with
    | none => exact .inl (.inl ⟨rfl, (selOf_eq_none_iff _).1 hsel⟩)
    | some sel => exact .inr ⟨.rds _ sel, rfl, selBits_of_selOf _ _ hsel ▸ wordSP_fields hop hres⟩
  | fmov => exact .inr ⟨.fmov _ _, rfl, wordR2_fields hop hres⟩
  | flih => exact .inr ⟨.flih _ _, rfl, wordI16_fields hop hres⟩
  | flil => exact .inr ⟨.flil _ _, rfl, wordI16_fields hop hres⟩
  | fadd => exact .inr ⟨.fadd _ _ _, rfl, wordR3_fields hop hres⟩
  | fsub => exact .inr ⟨.fsub _ _ _, rfl, wordR3_fields hop hres⟩
  | fmul => exact .inr ⟨.fmul _ _ _, rfl, wordR3_fields hop hres⟩
  | fdiv => exact .inr ⟨.fdiv _ _ _, rfl, wordR3_fields hop hres⟩
  | fabs => exact .inr ⟨.fabs _ _, rfl, wordR2_fields hop hres⟩
  | fneg => exact .inr ⟨.fneg _ _, rfl, wordR2_fields hop hres⟩
  | dot2 => exact .inr ⟨.dot2 _ _ _, rfl, wordR3_fields hop hres⟩
  | dot4 => exact .inr ⟨.dot4 _ _ _, rfl, wordR3_fields hop hres⟩
  | fsin => exact .inr ⟨.fsin _ _, rfl, wordR2_fields hop hres⟩
  | fcos => exact .inr ⟨.fcos _ _, rfl, wordR2_fields hop hres⟩
  | fexp => exact .inr ⟨.fexp _ _, rfl, wordR2_fields hop hres⟩
  | ftanh => exact .inr ⟨.ftanh _ _, rfl, wordR2_fields hop hres⟩
  | swz4 => exact .inr ⟨.swz4 _ _, rfl, wordR2_fields hop hres⟩
  | swap2 => exact .inr ⟨.swap2 _ _, rfl, wordR2_fields hop hres⟩
  | stq =>
    cases hch : channelOf (w.extractLsb' 0 2).toNat with
    | none => exact .inl (.inr ⟨rfl, (channelOf_eq_none_iff _).1 hch⟩)
    | some ch => exact .inr ⟨.stq _ ch, rfl, channelBits_of_channelOf _ _ hch ▸ wordST_fields hop hres⟩

/-- What the decoder answers for a word whose opcode is assigned and whose reserved bits are clear. -/
theorem decode_operand_cases {w : Word} {op : Op} (hop : opOf (fieldOp w).toNat = some op)
    (hres : w &&& op.format.reservedMask = 0) :
    (BadOperand op w ∧ decode w = .error .badOperand) ∨
      ∃ i : Instr, i.op = op ∧ encode i = w ∧ decode w = checkGroups i := by
  rcases badOperand_or_encode (opOf_eq_some_iff.1 hop) hres with hbad | ⟨i, hi, rfl⟩
  · exact .inl ⟨hbad, (decode_of_assigned hop hres).trans (assemble_of_badOperand hbad)⟩
  · exact .inr ⟨i, hi, rfl, decode_encode i⟩

/-- What the decoder answers for a word, the checks in their order. -/
theorem decode_cases (w : Word) :
    (opOf (fieldOp w).toNat = none ∧ decode w = .error .illegalOpcode) ∨
      ∃ op, opOf (fieldOp w).toNat = some op ∧
        ((w &&& op.format.reservedMask ≠ 0 ∧ decode w = .error .reservedBits) ∨
          (w &&& op.format.reservedMask = 0 ∧
            (decode w = .error .badOperand ∨ ∃ i : Instr, encode i = w ∧ decode w = checkGroups i))) := by
  cases hop : opOf (fieldOp w).toNat with
  | none => exact .inl ⟨rfl, decode_of_unassigned hop⟩
  | some op =>
    refine .inr ⟨op, rfl, ?_⟩
    by_cases hres : w &&& op.format.reservedMask = 0
    · refine .inr ⟨hres, (decode_operand_cases hop hres).imp And.right ?_⟩
      exact fun ⟨i, _, henc, hdec⟩ => ⟨i, henc, hdec⟩
    · exact .inl ⟨hres, decode_of_reserved hop hres⟩

/-- Settles O2: a word the decoder accepts can only be the word of an instruction, which then is the one it gives. -/
theorem anAcceptedWordIsTheEncodingOfItsInstruction : Obligations.AnAcceptedWordIsTheEncodingOfItsInstruction := by
  intro w i hok
  rcases decode_cases w with ⟨-, hdec⟩ | ⟨op, -, ⟨-, hdec⟩ | ⟨-, hdec | ⟨j, rfl, hdec⟩⟩⟩
  · simp [hdec] at hok
  · simp [hdec] at hok
  · simp [hdec] at hok
  · obtain ⟨rfl, hwf⟩ := checkGroups_eq_ok_iff.1 (hdec.symm.trans hok)
    exact ⟨rfl, hwf⟩

/-! ### Which words have which fault -/

theorem decode_eq_illegalOpcode_iff (w : Word) : decode w = .error .illegalOpcode ↔ opOf (fieldOp w).toNat = none := by
  rcases decode_cases w with ⟨hop, hdec⟩ | ⟨op, hop, ⟨-, hdec⟩ | ⟨-, hdec | ⟨i, -, hdec⟩⟩⟩ <;>
    simp [hop, hdec, checkGroups_eq_error_iff]

theorem decode_eq_reservedBits_iff {w : Word} {op : Op} (hop : opOf (fieldOp w).toNat = some op) :
    decode w = .error .reservedBits ↔ w &&& op.format.reservedMask ≠ 0 := by
  refine ⟨fun hdec hres => ?_, decode_of_reserved hop⟩
  rcases decode_operand_cases hop hres with ⟨-, hbad⟩ | ⟨i, -, -, hgroups⟩
  · simp [hbad] at hdec
  · simp [hgroups, checkGroups_eq_error_iff] at hdec

theorem decode_eq_badOperand_iff {w : Word} {op : Op} (hop : opOf (fieldOp w).toNat = some op)
    (hres : w &&& op.format.reservedMask = 0) : decode w = .error .badOperand ↔ BadOperand op w := by
  refine ⟨fun hdec => ?_, fun hbad => (decode_of_assigned hop hres).trans (assemble_of_badOperand hbad)⟩
  rcases decode_operand_cases hop hres with ⟨hbad, -⟩ | ⟨i, -, -, hgroups⟩
  · exact hbad
  · simp [hgroups, checkGroups_eq_error_iff] at hdec

/-- The group bases that check 3 refuses (R75, R78). -/
def GroupPastEnd (op : Op) (w : Word) : Prop :=
  (op = .dot2 ∧ (30 < (fieldRa w).val ∨ 30 < (fieldRb w).val)) ∨
    (op = .dot4 ∧ (28 < (fieldRa w).val ∨ 28 < (fieldRb w).val)) ∨
    (op = .swz4 ∧ (28 < (fieldRd w).val ∨ 30 < (fieldRa w).val)) ∨
    (op = .swap2 ∧ (30 < (fieldRd w).val ∨ 30 < (fieldRa w).val))

theorem pairFits_iff {r : VReg} : pairFits r = true ↔ r.val ≤ 30 :=
  decide_eq_true_iff

theorem quadFits_iff {r : VReg} : quadFits r = true ↔ r.val ≤ 28 :=
  decide_eq_true_iff

theorem groupPastEnd_encode_iff (i : Instr) : GroupPastEnd i.op (encode i) ↔ i.wellFormed = false := by
  rw [← Bool.not_eq_true]
  cases i with
  | dot2 | dot4 =>
    simp [GroupPastEnd, Instr.op, encode, wordR3_ra, wordR3_rb, Instr.wellFormed, pairFits_iff, quadFits_iff, or_iff_not_imp_left]
  | swz4 | swap2 =>
    simp [GroupPastEnd, Instr.op, encode, wordR2_rd, wordR2_ra, Instr.wellFormed, pairFits_iff, quadFits_iff, or_iff_not_imp_left]
  | _ => simp [GroupPastEnd, Instr.op, Instr.wellFormed]

theorem not_groupPastEnd_of_badOperand {op : Op} {w : Word} (h : BadOperand op w) : ¬ GroupPastEnd op w := by
  rcases h with ⟨rfl, -⟩ | ⟨rfl, -⟩ <;> simp [GroupPastEnd]

theorem decode_eq_regRange_iff {w : Word} {op : Op} (hop : opOf (fieldOp w).toNat = some op)
    (hres : w &&& op.format.reservedMask = 0) : decode w = .error .regRange ↔ GroupPastEnd op w := by
  rcases decode_operand_cases hop hres with ⟨hbad, hdec⟩ | ⟨i, rfl, rfl, hdec⟩
  · simp [hdec, not_groupPastEnd_of_badOperand hbad]
  · simp [hdec, checkGroups_eq_error_iff, groupPastEnd_encode_iff]

/-- Settles O4. -/
theorem unassignedOpcodesAreIllegal : Obligations.UnassignedOpcodesAreIllegal := fun w =>
  (decode_eq_illegalOpcode_iff w).trans (opOf_eq_none_iff _)

/-- Settles O5. -/
theorem reservedBitSetIsAFault : Obligations.ReservedBitSetIsAFault := fun _ _ hop =>
  decode_eq_reservedBits_iff hop

/-- Settles O6. -/
theorem operandChecksNameTheirFault : Obligations.OperandChecksNameTheirFault := fun _ _ hop hres =>
  ⟨decode_eq_regRange_iff hop hres, decode_eq_badOperand_iff hop hres⟩

/-! ### The opcode map -/

/-- The mask of the opcode field. -/
def opMask : Word := 0xFC000000

/-- The row of R77's map as its opcode and format say: the word with every operand field 0, and the opcode and reserved bits. -/
def mapRow (op : Op) : Op × Word × Word := (op, wordN (opCode op), opMask ||| op.format.reservedMask)

theorem opcodeRows_eq : ∀ row ∈ opcodeRows, row = mapRow row.1 := by
  decide

theorem mapRow_mem (op : Op) : mapRow op ∈ opcodeRows := by
  cases op <;> decide

/-- The opcode bits of a word are the word of format N with its opcode. -/
theorem and_opMask (w : Word) : w &&& opMask = wordN (fieldOp w) := by
  have hop : fieldOp (w &&& opMask) = fieldOp w :=
    (BitVec.extractLsb'_and ..).trans BitVec.and_allOnes
  have hres : w &&& opMask &&& Format.n.reservedMask = 0 := by
    rw [BitVec.and_assoc]
    exact BitVec.and_zero
  exact (wordN_fields hop hres).symm

theorem fieldOp_and_reservedMask (w : Word) (f : Format) : fieldOp (w &&& f.reservedMask) = 0 := by
  have hmask : fieldOp f.reservedMask = 0 := by cases f <;> rfl
  calc fieldOp (w &&& f.reservedMask)
      = fieldOp w &&& fieldOp f.reservedMask := BitVec.extractLsb'_and ..
    _ = 0 := by rw [hmask]; exact BitVec.and_zero

theorem wordN_and_reservedMask (b : BitVec 6) (f : Format) : wordN b &&& f.reservedMask = 0 := by
  have hmask : Format.n.reservedMask &&& f.reservedMask = f.reservedMask := by cases f <;> rfl
  rw [← hmask, ← BitVec.and_assoc, wordN_reserved]
  exact BitVec.zero_and

theorem and_mapRow_mask (w : Word) (op : Op) :
    w &&& (mapRow op).2.2 = wordN (fieldOp w) ||| (w &&& op.format.reservedMask) := by
  rw [← and_opMask]
  exact BitVec.and_or_distrib_left

theorem fieldOp_and_mapRow_mask (w : Word) (op : Op) : fieldOp (w &&& (mapRow op).2.2) = fieldOp w := by
  rw [and_mapRow_mask]
  calc fieldOp (wordN (fieldOp w) ||| (w &&& op.format.reservedMask))
      = fieldOp (wordN (fieldOp w)) ||| fieldOp (w &&& op.format.reservedMask) := BitVec.extractLsb'_or ..
    _ = fieldOp w := by rw [wordN_op, fieldOp_and_reservedMask]; exact BitVec.or_zero

/-- A word matches the row of an opcode exactly when it has the opcode and no reserved bit of its format. -/
theorem matches_mapRow_iff (w : Word) (op : Op) :
    w &&& (mapRow op).2.2 = (mapRow op).2.1 ↔ opOf (fieldOp w).toNat = some op ∧ w &&& op.format.reservedMask = 0 := by
  rw [opOf_eq_some_iff]
  constructor
  · intro h
    have hmask : (mapRow op).2.2 &&& op.format.reservedMask = op.format.reservedMask := by cases op <;> rfl
    refine ⟨?_, ?_⟩
    · rw [← fieldOp_and_mapRow_mask w op, h]
      exact wordN_op _
    · rw [← hmask, ← BitVec.and_assoc, h]
      exact wordN_and_reservedMask _ _
  · rintro ⟨hop, hres⟩
    rw [and_mapRow_mask, hres, hop]
    exact BitVec.or_zero

/-- Settles O3. -/
theorem opcodeMapRowsDecideTheInstruction : Obligations.OpcodeMapRowsDecideTheInstruction := by
  refine ⟨fun row hrow w hmatch => ?_, fun w hnone => ?_⟩
  · rw [opcodeRows_eq row hrow] at hmatch
    obtain ⟨hop, hres⟩ := (matches_mapRow_iff w row.1).1 hmatch
    exact decode_of_assigned hop hres
  · rcases decode_cases w with ⟨-, hdec⟩ | ⟨op, hop, ⟨-, hdec⟩ | ⟨hres, -⟩⟩
    · exact .inl hdec
    · exact .inr hdec
    · exact absurd ((matches_mapRow_iff w op).2 ⟨hop, hres⟩) (hnone _ (mapRow_mem op))

/-- Settles O7: each word is the encoding of its instruction. -/
theorem sampleWordsDecode : Obligations.SampleWordsDecode :=
  ⟨decode_encode .nop, decode_encode (.loop 8 30), decode_encode (.rds 24 .time), decode_encode (.flih 7 0x3F33),
    decode_encode (.fadd 4 4 2), decode_encode (.swz4 9 10), decode_encode (.fsin 0 0), decode_encode (.stq 17 .green),
    decode_encode (.dot2 0 31 0)⟩

end Sys2Proof.Proofs
end

