-- ==== Sys2Proof/Proofs/RegisterGroups.lean ====
section
/-! SUPPORT. The instructions over register groups (spec/30_encoding.md R75, R76): DOT2, DOT4, SWZ4 and SWAP2 read their whole groups
before any write, and a group that runs past v31 is REG_RANGE (R78 check 3; notes/assumptions/10.md). -/

namespace Sys2Proof.Proofs

open Sys2Proof.Machine Sys2Proof.Laws

/-! ### Groups that fit -/

section

variable {r q : VReg}

/-- The register a number names is the group's component. -/
theorem groupReg_eq {k : ℕ} (h : q.val = r.val + k) : groupReg r k = q :=
  Fin.ext ((groupReg_val r k (by omega)).trans h.symm)

theorem pairFits_of_next (h : q.val = r.val + 1) : pairFits r = true :=
  pairFits_iff.2 (by omega)

theorem quadFits_of_third (h : q.val = r.val + 3) : quadFits r = true :=
  quadFits_iff.2 (by omega)

theorem pairFits_eq_false (h : 30 < r.val) : pairFits r = false :=
  decide_eq_false (by omega)

theorem quadFits_eq_false (h : 28 < r.val) : quadFits r = false :=
  decide_eq_false (by omega)

end

/-! ### Groups past v31 -/

/-- An instruction with a group that runs past v31 records REG_RANGE. -/
theorem exec_of_not_wellFormed {i : Instr} (h : i.wellFormed = false) (s : State) :
    exec i s = .next (raiseFault .regRange s) := by
  have hfits : ¬ i.wellFormed = true := by simp [h]
  cases i with
  | dot2 | dot4 | swz4 | swap2 => exact if_neg hfits
  | _ => cases h

theorem exec_records_regRange {i : Instr} (h : i.wellFormed = false) (s : State) :
    ∃ t, exec i s = .next t ∧ RecordsFault s t .regRange (progWord s s.me.pc) :=
  ⟨_, exec_of_not_wellFormed h s, raiseFault_records s .regRange (by decide)⟩

/-! ### Dot products -/

/-- A lane-by-lane register write followed by the advance. -/
theorem perLane_advance_writes (s : State) (rd : VReg) (f : ℕ → Word) (h : s.turn < s.workers.length) :
    WritesRegs s (advance (setReg s rd (perLane s f))) [(rd, f)] := by
  obtain ⟨honly, hbytes, hadv, hlanes, hregs⟩ := setReg_advance_writes s rd (perLane s f) h
  refine ⟨honly, hbytes, hadv, fun p hp j hj => ?_, fun r hr => hregs r ?_⟩
  · obtain rfl := List.mem_singleton.1 hp
    exact (hlanes _ (List.mem_singleton.2 rfl) j hj).trans (lane_perLane s f hj)
  · simpa using hr

/-- Settles O23. -/
theorem dotProductOfPairs : Obligations.DotProductOfPairs := by
  intro s rd ra rb hturn
  constructor
  · intro ra1 rb1 ha hb
    have hfits : (pairFits ra && pairFits rb) = true := Bool.and_eq_true_iff.2 ⟨pairFits_of_next ha, pairFits_of_next hb⟩
    have hlane : dot2Lane s ra rb = fun j =>
        add32 (mul32 (regLane s ra j) (regLane s rb j)) (mul32 (regLane s ra1 j) (regLane s rb1 j)) := by
      funext j
      simp only [dot2Lane, dotTerm, groupReg_zero, groupReg_eq ha, groupReg_eq hb]
    exact ⟨_, if_pos hfits, hlane ▸ perLane_advance_writes s rd _ hturn⟩
  · intro hpast
    exact exec_records_regRange (i := .dot2 rd ra rb)
      (Bool.and_eq_false_iff.2 (hpast.imp pairFits_eq_false pairFits_eq_false)) s

/-- Settles O24. -/
theorem dotProductOfQuads : Obligations.DotProductOfQuads := by
  intro s rd ra rb hturn
  constructor
  · intro ra1 ra2 ra3 rb1 rb2 rb3 ha1 ha2 ha3 hb1 hb2 hb3
    have hfits : (quadFits ra && quadFits rb) = true :=
      Bool.and_eq_true_iff.2 ⟨quadFits_of_third ha3, quadFits_of_third hb3⟩
    have hlane : dot4Lane s ra rb = fun j =>
        add32
          (add32 (mul32 (regLane s ra j) (regLane s rb j)) (mul32 (regLane s ra1 j) (regLane s rb1 j)))
          (add32 (mul32 (regLane s ra2 j) (regLane s rb2 j)) (mul32 (regLane s ra3 j) (regLane s rb3 j))) := by
      funext j
      simp only [dot4Lane, dotTerm, groupReg_zero, groupReg_eq ha1, groupReg_eq ha2, groupReg_eq ha3, groupReg_eq hb1,
        groupReg_eq hb2, groupReg_eq hb3]
    exact ⟨_, if_pos hfits, hlane ▸ perLane_advance_writes s rd _ hturn⟩
  · intro hpast
    exact exec_records_regRange (i := .dot4 rd ra rb)
      (Bool.and_eq_false_iff.2 (hpast.imp quadFits_eq_false quadFits_eq_false)) s

/-! ### Several register writes -/

/-- Only the executing worker's vector registers differ. -/
def OnlyVectors (s t : State) : Prop := t = s.setMe { s.me with v := t.me.v }

section

variable {s t : State} (h : s.turn < s.workers.length)

include h

theorem onlyVectors_refl : OnlyVectors s s := (setMe_me s h).symm

theorem OnlyVectors.setReg (ht : OnlyVectors s t) (r : VReg) (x : Lanes) : OnlyVectors s (setReg t r x) := by
  have hset : Machine.setReg t r x = s.setMe { s.me with v := t.me.v.set r x } := by
    conv_lhs => rw [ht]
    exact setReg_setMe s _ r x h
  rw [OnlyVectors, hset, me_setMe s _ h]

/-- Register writes followed by the advance: the executing worker has the registers written, and nothing else changes but the
advance. -/
theorem OnlyVectors.advance_writes (ht : OnlyVectors s t) {ws : List (VReg × (ℕ → Word))}
    (hlanes : ∀ p ∈ ws, ∀ j < s.params.laneWidth, regLane t p.1 j = p.2 j)
    (hregs : ∀ r : VReg, (∀ p ∈ ws, r ≠ p.1) → reg t r = reg s r) : WritesRegs s (advance t) ws := by
  have hadv : advance t = s.setMe { s.me with v := t.me.v }.advance := by
    conv_lhs => rw [ht]
    exact advance_setMe s _ h
  have hme : (advance t).me = { s.me with v := t.me.v }.advance := by rw [hadv, me_setMe s _ h]
  have hreg : ∀ r, reg (advance t) r = reg t r := fun r => by rw [reg, hme, Worker.advance_v]; rfl
  refine ⟨⟨?_, ?_, fun w hw => ?_⟩, ?_, ?_, fun p hp j hj => ?_, fun r hr => (hreg r).trans (hregs r hr)⟩
  · rw [hadv]; rfl
  · rw [hadv]; simp
  · rw [hadv]; exact worker_setWorker_of_ne s _ hw
  · rw [hadv]; exact fun _ => rfl
  · rw [hme]; exact Worker.advance_spec { s.me with v := t.me.v }
  · rw [regLane, hreg]; exact hlanes p hp j hj

end

/-- Register writes, in order. -/
def setRegs (s : State) (ws : List (VReg × Lanes)) : State := ws.foldl (fun t p => setReg t p.1 p.2) s

theorem setRegs_cons (s : State) (p : VReg × Lanes) (ws : List (VReg × Lanes)) :
    setRegs s (p :: ws) = setRegs (setReg s p.1 p.2) ws := rfl

theorem setSwizzle_eq_setRegs (s : State) (rd : VReg) (x y : Lanes) :
    setSwizzle s rd x y = setRegs s [(rd, x), (groupReg rd 1, y), (groupReg rd 2, y), (groupReg rd 3, x)] := rfl

theorem setSwap_eq_setRegs (s : State) (rd : VReg) (x y : Lanes) :
    setSwap s rd x y = setRegs s [(rd, y), (groupReg rd 1, x)] := rfl

section

variable {s : State} {ws : List (VReg × Lanes)}

theorem OnlyVectors.setRegs {t : State} (h : s.turn < s.workers.length) (ht : OnlyVectors s t) :
    OnlyVectors s (setRegs t ws) := by
  induction ws generalizing t with
  | nil => exact ht
  | cons p ws ih => exact ih (ht.setReg h p.1 p.2)

theorem reg_setRegs_of_not_mem (h : s.turn < s.workers.length) {r : VReg} (hr : ∀ p ∈ ws, r ≠ p.1) :
    reg (setRegs s ws) r = reg s r := by
  induction ws generalizing s with
  | nil => rfl
  | cons p ws ih =>
    obtain ⟨hp, hws⟩ := List.forall_mem_cons.1 hr
    rw [setRegs_cons, ih (by simpa using h) hws, reg_setReg_of_ne s p.2 h hp]

/-- A register written once holds what was written. -/
theorem reg_setRegs_of_mem (h : s.turn < s.workers.length) (hws : (ws.map Prod.fst).Nodup) {p : VReg × Lanes} (hp : p ∈ ws) :
    reg (setRegs s ws) p.1 = p.2 := by
  induction ws generalizing s with
  | nil => exact absurd hp List.not_mem_nil
  | cons q ws ih =>
    obtain ⟨hq, hws⟩ := List.nodup_cons.1 hws
    have h' : (setReg s q.1 q.2).turn < (setReg s q.1 q.2).workers.length := by simpa using h
    rw [setRegs_cons]
    rcases List.mem_cons.1 hp with rfl | hp
    · have hlater : ∀ q ∈ ws, p.1 ≠ q.1 := fun q hmem e => hq (List.mem_map.2 ⟨q, hmem, e.symm⟩)
      rw [reg_setRegs_of_not_mem h' hlater, reg_setReg_self s p.1 p.2 h]
    · exact ih h' hws hp

/-- Writes to distinct registers followed by the advance. -/
theorem setRegs_advance_writes (h : s.turn < s.workers.length) (hws : (ws.map Prod.fst).Nodup) :
    WritesRegs s (advance (setRegs s ws)) (ws.map fun p => (p.1, lane p.2)) := by
  refine ((onlyVectors_refl h).setRegs h).advance_writes h (fun q hq j _ => ?_) fun r hr => ?_
  · obtain ⟨p, hp, rfl⟩ := List.mem_map.1 hq
    rw [regLane, reg_setRegs_of_mem h hws hp]
  · exact reg_setRegs_of_not_mem h fun p hp => hr _ (List.mem_map.2 ⟨p, hp, rfl⟩)

end

/-! ### SWZ4 and SWAP2 -/

/-- Settles O26. -/
theorem swizzleBuildsTheQuad : Obligations.SwizzleBuildsTheQuad := by
  intro s rd ra hturn
  constructor
  · intro rd1 rd2 rd3 ra1 hd1 hd2 hd3 ha
    have hfits : (quadFits rd && pairFits ra) = true := Bool.and_eq_true_iff.2 ⟨quadFits_of_third hd3, pairFits_of_next ha⟩
    have hdistinct : [rd, rd1, rd2, rd3].Nodup := by simp [Fin.ext_iff, hd1, hd2, hd3]
    refine ⟨_, if_pos hfits, ?_⟩
    rw [setSwizzle_eq_setRegs, groupReg_eq hd1, groupReg_eq hd2, groupReg_eq hd3, groupReg_eq ha]
    exact setRegs_advance_writes hturn hdistinct
  · intro hpast
    exact exec_records_regRange (i := .swz4 rd ra)
      (Bool.and_eq_false_iff.2 (hpast.imp quadFits_eq_false pairFits_eq_false)) s

/-- Settles O27. -/
theorem axisSwapExchangesThePair : Obligations.AxisSwapExchangesThePair := by
  intro s rd ra hturn
  constructor
  · intro rd1 ra1 hd ha
    have hfits : (pairFits rd && pairFits ra) = true := Bool.and_eq_true_iff.2 ⟨pairFits_of_next hd, pairFits_of_next ha⟩
    have hdistinct : [rd, rd1].Nodup := by simp [Fin.ext_iff, hd]
    refine ⟨_, if_pos hfits, ?_⟩
    rw [setSwap_eq_setRegs, groupReg_eq hd, groupReg_eq ha]
    exact setRegs_advance_writes hturn hdistinct
  · intro hpast
    exact exec_records_regRange (i := .swap2 rd ra)
      (Bool.and_eq_false_iff.2 (hpast.imp pairFits_eq_false pairFits_eq_false)) s

end Sys2Proof.Proofs
end

