-- ==== Sys2Proof/Proofs/Binary32Operations.lean ====
section
/-! SUPPORT. The binary32 operations (spec/40_fp_arith.md R100 to R103), said once per class of operands: a NaN, an infinity, or two
finite patterns, whose result is the one rounding of an exact rational. -/

namespace Sys2Proof.Proofs

open Sys2Proof.Machine Sys2Proof.Laws

/-! ### Classes, signs and values -/

section

variable {a b : Word}

theorem isNaN_of_isFinite (h : isFinite a = true) : isNaN a = false := by
  rw [← Bool.not_eq_true, isNaN_iff]
  exact ((isFinite_iff a).1 h).not_gt

theorem isInf_of_isFinite (h : isFinite a = true) : isInf a = false := by
  rw [← Bool.not_eq_true, isInf_iff]
  exact ((isFinite_iff a).1 h).ne

theorem isNaN_of_isInf (h : isInf a = true) : isNaN a = false := by
  rw [← Bool.not_eq_true, isNaN_iff]
  exact ((isInf_iff a).1 h).not_gt

/-- Every pattern is a NaN, an infinity or a number. -/
theorem pattern_class (a : Word) : isNaN a = true ∨ isInf a = true ∨ isFinite a = true := by
  rw [isNaN_iff, isInf_iff, isFinite_iff]
  omega

/-- The two infinities differ in their signs. -/
theorem eq_of_isInf (ha : isInf a = true) (hb : isInf b = true) (hs : sign a = sign b) : a = b := by
  rw [isInf_iff] at ha hb
  rw [sign_eq, sign_eq, decide_eq_decide] at hs
  exact BitVec.eq_of_toNat_eq (by omega)

theorem units_eq_zero_iff : units a = 0 ↔ magUnits a = 0 := by
  rw [units]
  split <;> simp

theorem val32_eq_zero_iff : val32 a = 0 ↔ units a = 0 := by
  simp [val32]

/-- An infinity counts as a magnitude above every finite one, so as none of the zeros. -/
theorem units_ne_zero_of_isInf (h : isInf a = true) : units a ≠ 0 := by
  rw [Ne, units_eq_zero_iff, magUnits_eq, (isInf_iff a).1 h, patternUnits_overflow.2]
  positivity

/-- A value is its sign and its magnitude. -/
theorem val32_eq_sign_mul (a : Word) : val32 a = (if sign a then -1 else 1) * (magUnits a : ℚ) / 2 ^ 149 := by
  rw [val32, units]
  split <;> simp

end

/-- The sign of a product. -/
theorem sign_factor_xor (p q : Bool) :
    (if p ^^ q then -1 else 1 : ℚ) = (if p then -1 else 1) * (if q then -1 else 1) := by
  cases p <;> cases q <;> norm_num

/-- The sign of a quotient. -/
theorem sign_factor_xor_eq_div (p q : Bool) :
    (if p ^^ q then -1 else 1 : ℚ) = (if p then -1 else 1) / (if q then -1 else 1) := by
  rw [sign_factor_xor]
  cases q <;> simp [div_neg]

theorem withSign_xor_posInf (p q : Bool) : withSign (p ^^ q) posInf = if p = q then 0x7F800000 else 0xFF800000 := by
  cases p <;> cases q <;> decide

theorem withSign_xor_zero (p q : Bool) : withSign (p ^^ q) 0x00000000 = if p = q then 0x00000000 else 0x80000000 := by
  cases p <;> cases q <;> decide

/-! ### The flipped sign bit (R101) -/

section

variable (b : Word)

/-- Flipping bit 31 adds or takes away 2^31. -/
theorem flip_toNat_mod : (b ^^^ 0x80000000).toNat % 2 ^ 31 = b.toNat % 2 ^ 31 := by
  rw [BitVec.toNat_xor, Nat.xor_mod_two_pow]
  simp

theorem sign_flip : sign (b ^^^ 0x80000000) = !sign b := by
  rw [sign, BitVec.msb_xor, show BitVec.msb (0x80000000 : Word) = true by decide, Bool.xor_true, sign]

theorem isNaN_flip : isNaN (b ^^^ 0x80000000) = isNaN b := by
  rw [Bool.eq_iff_iff, isNaN_iff, isNaN_iff, flip_toNat_mod]

theorem isFinite_flip : isFinite (b ^^^ 0x80000000) = isFinite b := by
  rw [Bool.eq_iff_iff, isFinite_iff, isFinite_iff, flip_toNat_mod]

theorem val32_flip : val32 (b ^^^ 0x80000000) = -val32 b := by
  rw [val32_eq_sign_mul, val32_eq_sign_mul, sign_flip, magUnits_eq, flip_toNat_mod, ← magUnits_eq]
  cases sign b <;> simp [neg_div]

end

/-! ### Rounding an exact result -/

/-- The rounding of the sign and the magnitude of a nonzero number is the rounding of that number. -/
theorem isRNE_rne {x : ℚ} (hx : x ≠ 0) {neg : Bool} {n d : ℕ}
    (h : x = (if neg then -1 else 1) * ((n : ℚ) / d) / 2 ^ 149) : IsRNE x (rne neg n d) := by
  have hnd : (n : ℚ) / d ≠ 0 := fun h0 => hx (by rw [h, h0]; simp)
  obtain ⟨hn, hd⟩ := div_ne_zero_iff.1 hnd
  rw [h]
  exact roundingIsNearestTiesToEven neg n d (Nat.pos_of_ne_zero (by exact_mod_cast hn))
    (Nat.pos_of_ne_zero (by exact_mod_cast hd))

/-- An integer is its sign and its magnitude. -/
theorem int_eq_sign_mul_natAbs (z : ℤ) : (z : ℚ) = (if decide (z < 0) then -1 else 1) * (z.natAbs : ℚ) := by
  rcases lt_or_ge z 0 with h | h
  · simp [h, abs_of_neg]
  · simp [h.not_gt, abs_of_nonneg h]

/-! ### Addition and subtraction (R100, R101) -/

section

variable {a b : Word}

theorem add32_of_isNaN (h : isNaN a = true ∨ isNaN b = true) : add32 a b = cnan :=
  if_pos (Bool.or_eq_true_iff.2 h)

theorem add32_of_opposite_infinities (ha : isInf a = true) (hb : isInf b = true) (hs : sign a ≠ sign b) :
    add32 a b = cnan := by
  simp [add32, ha, hb, hs]

theorem add32_of_isInf_left (ha : isInf a = true) (hb : isNaN b = false) (hs : isInf b = true → sign a = sign b) :
    add32 a b = a := by
  rw [add32, if_neg (by simp [isNaN_of_isInf ha, hb]), if_neg (by simpa [ha] using hs), if_pos ha]

theorem add32_of_isInf_right (hb : isInf b = true) (ha : isFinite a = true) : add32 a b = b := by
  simp [add32, isNaN_of_isFinite ha, isNaN_of_isInf hb, isInf_of_isFinite ha, hb]

theorem add32_of_isInf_of_isFinite (ha : isInf a = true) (hb : isFinite b = true) : add32 a b = a :=
  add32_of_isInf_left ha (isNaN_of_isFinite hb) fun h => by simp [isInf_of_isFinite hb] at h

theorem add32_of_isFinite (ha : isFinite a = true) (hb : isFinite b = true) :
    add32 a b =
      if units a + units b ≠ 0 then rne (decide (units a + units b < 0)) (units a + units b).natAbs 1
      else if a = 0x80000000 ∧ b = 0x80000000 then 0x80000000 else 0x00000000 := by
  simp [add32, isNaN_of_isFinite ha, isNaN_of_isFinite hb, isInf_of_isFinite ha, isInf_of_isFinite hb]

/-- The exact sum, in units. -/
theorem val32_add_eq : val32 a + val32 b = (units a + units b : ℤ) / 2 ^ 149 := by
  rw [val32, val32, ← add_div, Int.cast_add]

theorem val32_add_eq_zero_iff : val32 a + val32 b = 0 ↔ units a + units b = 0 := by
  rw [val32_add_eq, div_eq_zero_iff, or_iff_left (by positivity), Int.cast_eq_zero]

theorem isRNE_add32 (ha : isFinite a = true) (hb : isFinite b = true) (h : val32 a + val32 b ≠ 0) :
    IsRNE (val32 a + val32 b) (add32 a b) := by
  rw [add32_of_isFinite ha hb, if_pos (mt val32_add_eq_zero_iff.2 h)]
  refine isRNE_rne h ?_
  rw [val32_add_eq, int_eq_sign_mul_natAbs, Nat.cast_one, div_one]

theorem add32_of_sum_zero (ha : isFinite a = true) (hb : isFinite b = true) (h : val32 a + val32 b = 0) :
    add32 a b = if a = 0x80000000 ∧ b = 0x80000000 then 0x80000000 else 0x00000000 := by
  rw [add32_of_isFinite ha hb, if_neg (not_not.2 (val32_add_eq_zero_iff.1 h))]

theorem isRNE_sub32 (ha : isFinite a = true) (hb : isFinite b = true) (h : val32 a - val32 b ≠ 0) :
    IsRNE (val32 a - val32 b) (sub32 a b) := by
  rw [sub_eq_add_neg, ← val32_flip] at h ⊢
  exact isRNE_add32 ha ((isFinite_flip b).trans hb) h

/-- The sum does not depend on the order of its operands. -/
theorem add32_comm (a b : Word) : add32 a b = add32 b a := by
  rcases pattern_class a with ha | ha | ha
  · rw [add32_of_isNaN (.inl ha), add32_of_isNaN (.inr ha)]
  · rcases pattern_class b with hb | hb | hb
    · rw [add32_of_isNaN (.inr hb), add32_of_isNaN (.inl hb)]
    · by_cases hs : sign a = sign b
      · rw [eq_of_isInf ha hb hs]
      · rw [add32_of_opposite_infinities ha hb hs, add32_of_opposite_infinities hb ha (Ne.symm hs)]
    · rw [add32_of_isInf_of_isFinite ha hb, add32_of_isInf_right ha hb]
  · rcases pattern_class b with hb | hb | hb
    · rw [add32_of_isNaN (.inr hb), add32_of_isNaN (.inl hb)]
    · rw [add32_of_isInf_right hb ha, add32_of_isInf_of_isFinite hb ha]
    · rw [add32_of_isFinite ha hb, add32_of_isFinite hb ha, add_comm (units a)]
      simp only [and_comm (a := a = _)]

end

/-- Settles O9: the cases of `add32`, and subtraction as addition of the flipped operand. -/
theorem additionAndSubtractionFollowIEEE : Obligations.AdditionAndSubtractionFollowIEEE := by
  intro a b
  refine ⟨fun h => ⟨add32_of_isNaN h, ?_⟩, add32_of_opposite_infinities, add32_of_isInf_left, add32_of_isInf_right,
    isRNE_add32, add32_of_sum_zero, rfl, isRNE_sub32⟩
  exact add32_of_isNaN (h.imp_right (isNaN_flip b).trans)

/-! ### Multiplication (R102) -/

section

variable {a b : Word}

theorem mul32_of_isNaN (h : isNaN a = true ∨ isNaN b = true) : mul32 a b = cnan :=
  if_pos (Bool.or_eq_true_iff.2 h)

/-- Every case of the product treats its two factors alike. -/
theorem mul32_comm (a b : Word) : mul32 a b = mul32 b a := by
  simp only [mul32, Bool.or_comm (isNaN a), Bool.or_comm (isInf a), Bool.or_comm (isInf a && _), Bool.xor_comm (sign a),
    Nat.mul_comm (magUnits a)]

theorem mul32_of_isInf_zero (ha : isInf a = true) (hb : isFinite b = true) (h : val32 b = 0) : mul32 a b = cnan := by
  simp [mul32, isNaN_of_isInf ha, isNaN_of_isFinite hb, ha, val32_eq_zero_iff.1 h]

/-- An infinity times an infinity or a nonzero number: what counts is that neither factor is a NaN or a zero. -/
theorem mul32_of_isInf (ha : isInf a = true) (hb : isInf b = true ∨ isFinite b = true ∧ val32 b ≠ 0) :
    mul32 a b = if sign a = sign b then 0x7F800000 else 0xFF800000 := by
  have hnan : isNaN b = false := hb.elim isNaN_of_isInf fun h => isNaN_of_isFinite h.1
  have hzero : units b ≠ 0 := hb.elim units_ne_zero_of_isInf fun h => mt val32_eq_zero_iff.2 h.2
  rw [← withSign_xor_posInf]
  simp [mul32, isNaN_of_isInf ha, hnan, ha, hzero, units_ne_zero_of_isInf ha]

theorem mul32_of_isFinite (ha : isFinite a = true) (hb : isFinite b = true) :
    mul32 a b =
      if magUnits a * magUnits b ≠ 0 then rne (sign a ^^ sign b) (magUnits a * magUnits b) (2 ^ 149)
      else withSign (sign a ^^ sign b) 0x00000000 := by
  simp [mul32, isNaN_of_isFinite ha, isNaN_of_isFinite hb, isInf_of_isFinite ha, isInf_of_isFinite hb]

theorem val32_mul_eq_zero_iff : val32 a * val32 b = 0 ↔ magUnits a * magUnits b = 0 := by
  simp only [mul_eq_zero, val32_eq_zero_iff, units_eq_zero_iff]

theorem isRNE_mul32 (ha : isFinite a = true) (hb : isFinite b = true) (h : val32 a * val32 b ≠ 0) :
    IsRNE (val32 a * val32 b) (mul32 a b) := by
  rw [mul32_of_isFinite ha hb, if_pos (mt val32_mul_eq_zero_iff.2 h)]
  refine isRNE_rne h ?_
  rw [val32_eq_sign_mul, val32_eq_sign_mul, sign_factor_xor]
  push_cast
  ring

theorem mul32_of_product_zero (ha : isFinite a = true) (hb : isFinite b = true) (h : val32 a * val32 b = 0) :
    mul32 a b = if sign a = sign b then 0x00000000 else 0x80000000 := by
  rw [mul32_of_isFinite ha hb, if_neg (not_not.2 (val32_mul_eq_zero_iff.1 h)), withSign_xor_zero]

end

/-- Settles O10: the cases of `mul32`, those of an infinite right factor by the symmetry of the product. -/
theorem multiplicationFollowsIEEE : Obligations.MultiplicationFollowsIEEE := by
  intro a b
  refine ⟨mul32_of_isNaN, ?_, ?_, isRNE_mul32, mul32_of_product_zero⟩
  · rintro (⟨ha, hb, hzero⟩ | ⟨hb, ha, hzero⟩)
    · exact mul32_of_isInf_zero ha hb hzero
    · exact (mul32_comm a b).trans (mul32_of_isInf_zero hb ha hzero)
  · rintro (⟨ha, hb⟩ | ⟨hb, ha⟩)
    · exact mul32_of_isInf ha hb
    · rw [mul32_comm, mul32_of_isInf hb ha]
      exact if_congr eq_comm rfl rfl

/-! ### Division (R103) -/

section

variable {a b : Word}

theorem div32_of_isNaN (h : isNaN a = true ∨ isNaN b = true) : div32 a b = cnan :=
  if_pos (Bool.or_eq_true_iff.2 h)

theorem div32_of_infinities (ha : isInf a = true) (hb : isInf b = true) : div32 a b = cnan := by
  simp [div32, ha, hb]

theorem div32_of_isInf_left (ha : isInf a = true) (hb : isFinite b = true) :
    div32 a b = if sign a = sign b then 0x7F800000 else 0xFF800000 := by
  rw [← withSign_xor_posInf]
  simp [div32, isNaN_of_isInf ha, isNaN_of_isFinite hb, isInf_of_isFinite hb, ha, units_ne_zero_of_isInf ha]

theorem div32_of_isInf_right (ha : isFinite a = true) (hb : isInf b = true) :
    div32 a b = if sign a = sign b then 0x00000000 else 0x80000000 := by
  rw [← withSign_xor_zero]
  simp [div32, isNaN_of_isFinite ha, isNaN_of_isInf hb, isInf_of_isFinite ha, hb, units_ne_zero_of_isInf hb]

theorem div32_of_isFinite (ha : isFinite a = true) (hb : isFinite b = true) :
    div32 a b =
      if units a = 0 ∧ units b = 0 then cnan
      else if units b = 0 then withSign (sign a ^^ sign b) posInf
      else if units a ≠ 0 then rne (sign a ^^ sign b) (magUnits a * 2 ^ 149) (magUnits b)
      else withSign (sign a ^^ sign b) 0x00000000 := by
  simp [div32, isNaN_of_isFinite ha, isNaN_of_isFinite hb, isInf_of_isFinite ha, isInf_of_isFinite hb]

theorem div32_of_zeros (ha : isFinite a = true) (hb : isFinite b = true) (hza : val32 a = 0) (hzb : val32 b = 0) :
    div32 a b = cnan := by
  rw [div32_of_isFinite ha hb, if_pos ⟨val32_eq_zero_iff.1 hza, val32_eq_zero_iff.1 hzb⟩]

theorem div32_by_zero (ha : isFinite a = true) (hb : isFinite b = true) (hna : val32 a ≠ 0) (hzb : val32 b = 0) :
    div32 a b = if sign a = sign b then 0x7F800000 else 0xFF800000 := by
  rw [Ne, val32_eq_zero_iff] at hna
  rw [div32_of_isFinite ha hb, if_neg (fun h => hna h.1), if_pos (val32_eq_zero_iff.1 hzb), withSign_xor_posInf]

theorem div32_of_zero_left (ha : isFinite a = true) (hb : isFinite b = true) (hza : val32 a = 0) (hnb : val32 b ≠ 0) :
    div32 a b = if sign a = sign b then 0x00000000 else 0x80000000 := by
  rw [Ne, val32_eq_zero_iff] at hnb
  rw [div32_of_isFinite ha hb, if_neg (fun h => hnb h.2), if_neg hnb, if_neg (not_not.2 (val32_eq_zero_iff.1 hza)),
    withSign_xor_zero]

theorem isRNE_div32 (ha : isFinite a = true) (hb : isFinite b = true) (h : val32 a / val32 b ≠ 0) :
    IsRNE (val32 a / val32 b) (div32 a b) := by
  obtain ⟨hna, hnb⟩ := div_ne_zero_iff.1 h
  rw [Ne, val32_eq_zero_iff] at hna hnb
  rw [div32_of_isFinite ha hb, if_neg (fun h => hnb h.2), if_neg hnb, if_pos hna]
  refine isRNE_rne h ?_
  rw [val32_eq_sign_mul, val32_eq_sign_mul, sign_factor_xor_eq_div, Nat.cast_mul, Nat.cast_pow, Nat.cast_ofNat]
  field_simp

end

/-- Settles O11: the cases of `div32`. -/
theorem divisionFollowsIEEE : Obligations.DivisionFollowsIEEE := fun _ _ =>
  ⟨div32_of_isNaN, div32_of_infinities, div32_of_zeros, div32_of_isInf_left, div32_of_isInf_right, div32_by_zero,
    isRNE_div32, div32_of_zero_left⟩

end Sys2Proof.Proofs
end

