-- ==== Sys2Proof/Proofs/LaneArithmetic.lean ====
section
/-! SUPPORT. The lane-parallel arithmetic instructions (spec/40_fp_arith.md R110 to R116): each lane through its binary32 operation,
and the dot product of a swapped pair (spec/95_test_vectors.md S7). -/

namespace Sys2Proof.Proofs

open Sys2Proof.Machine Sys2Proof.Laws

/-! ### FADD to FNEG -/

/-- A sign bit before the magnitude bits of a pattern. -/
theorem toNat_append_magnitude (c : BitVec 1) (x : Word) :
    (c ++ x.extractLsb' 0 31 : Word).toNat = c.toNat * 2 ^ 31 + x.toNat % 2 ^ 31 := by
  have hlow : x.toNat % 2 ^ 31 < 2 ^ 31 := Nat.mod_lt _ (by positivity)
  refine (BitVec.toNat_append c (x.extractLsb' 0 31)).trans ?_
  rw [BitVec.extractLsb'_toNat, Nat.shiftRight_zero, Nat.shiftLeft_eq, Nat.mul_comm,
    ← Nat.two_pow_add_eq_or_of_lt hlow]

/-- The sign bit cleared, every other bit kept (R114). -/
theorem abs32_eq_append (x : Word) : abs32 x = (0 : BitVec 1) ++ x.extractLsb' 0 31 := by
  apply BitVec.eq_of_toNat_eq
  rw [toNat_append_magnitude, abs32, BitVec.toNat_and, show BitVec.toNat (0x7FFFFFFF : Word) = 2 ^ 31 - 1 by decide,
    Nat.and_two_pow_sub_one_eq_mod]
  simp

/-- The sign bit flipped, every other bit kept (R115). -/
theorem neg32_eq_append (x : Word) : neg32 x = (if x.msb then (0 : BitVec 1) else 1) ++ x.extractLsb' 0 31 := by
  have hmod := flip_toNat_mod x
  have hsign := sign_flip x
  have hlt := (x ^^^ 0x80000000).isLt
  apply BitVec.eq_of_toNat_eq
  rw [toNat_append_magnitude, neg32, ← hmod]
  rw [sign_eq, sign] at hsign
  cases hmsb : x.msb
  · rw [hmsb, Bool.not_false, decide_eq_true_eq] at hsign
    simp only [Bool.false_eq_true, if_false, show BitVec.toNat (1 : BitVec 1) = 1 by decide]
    omega
  · rw [hmsb, Bool.not_true, decide_eq_false_iff_not] at hsign
    simp only [if_true, show BitVec.toNat (0 : BitVec 1) = 0 by decide]
    omega

/-- Settles O22: each instruction writes its lanes with its own operation. -/
theorem arithmeticWritesEachLane : Obligations.ArithmeticWritesEachLane := by
  intro s rd ra rb hturn
  have hwrites : ∀ f : ℕ → Word, WritesRegs s (advance (setReg s rd (perLane s f))) [(rd, f)] :=
    fun f => perLane_advance_writes s rd f hturn
  refine ⟨⟨_, rfl, hwrites _⟩, ⟨_, rfl, hwrites _⟩, ⟨_, rfl, hwrites _⟩, ⟨_, rfl, hwrites _⟩, ⟨_, rfl, ?_⟩, ⟨_, rfl, ?_⟩⟩
  · simp only [← abs32_eq_append]
    exact hwrites _
  · simp only [← neg32_eq_append]
    exact hwrites _

/-! ### DOT2 of a swapped pair -/

/-- A step of the executing worker leaves the parameters. -/
theorem params_of_onlyMe {s t : State} (h : OnlyMe s t) : t.params = s.params := by
  obtain ⟨hrest, -⟩ := h
  rw [← hrest]

/-- A step of the executing worker leaves it in the list of workers. -/
theorem turn_lt_of_onlyMe {s t : State} (h : OnlyMe s t) (hturn : s.turn < s.workers.length) :
    t.turn < t.workers.length := by
  obtain ⟨hrest, hlength, -⟩ := h
  have ht : t.turn = s.turn := by rw [← hrest]
  omega

/-- DOT2 of a pair with itself: the sum of the squares of its two registers in each lane. -/
theorem exec_dot2_self {s : State} {rd ra ra1 : VReg} (hturn : s.turn < s.workers.length) (hra : ra1.val = ra.val + 1) :
    ∃ t, exec (.dot2 rd ra ra) s = .next t ∧ ∀ j < s.params.laneWidth,
      regLane t rd j = add32 (mul32 (regLane s ra j) (regLane s ra j)) (mul32 (regLane s ra1 j) (regLane s ra1 j)) := by
  obtain ⟨hfits, -⟩ := dotProductOfPairs s rd ra ra hturn
  obtain ⟨t, ht, -, -, -, hlanes, -⟩ := hfits ra1 ra1 hra hra
  exact ⟨t, ht, hlanes _ (List.mem_singleton.2 rfl)⟩

/-- Settles O13: SWAP2 exchanges the two squares that DOT2 adds. -/
theorem dotProductOfASwappedPairIsTheSame : Obligations.DotProductOfASwappedPairIsTheSame := by
  refine ⟨fun s rd ra rq hturn hra hrq => ?_, fun x y => add32_comm _ _⟩
  have hra1 : (groupReg ra 1).val = ra.val + 1 := groupReg_val ra 1 (by omega)
  have hrq1 : (groupReg rq 1).val = rq.val + 1 := groupReg_val rq 1 (by omega)
  obtain ⟨hswap, -⟩ := axisSwapExchangesThePair s rq ra hturn
  obtain ⟨a, ha, hlaneA⟩ := exec_dot2_self (rd := rd) hturn hra1
  obtain ⟨b, hb, honly, -, -, hlaneB, -⟩ := hswap _ _ hrq1 hra1
  obtain ⟨c, hc, hlaneC⟩ := exec_dot2_self (rd := rd) (turn_lt_of_onlyMe honly hturn) hrq1
  refine ⟨a, b, c, ha, hb, hc, fun j hj => ?_⟩
  have hfirst : regLane b rq j = regLane s (groupReg ra 1) j := hlaneB _ (.head _) j hj
  have hsecond : regLane b (groupReg rq 1) j = regLane s ra j := hlaneB _ (.tail _ (.head _)) j hj
  rw [hlaneC j (by rwa [params_of_onlyMe honly]), hlaneA j hj, hfirst, hsecond, add32_comm]

end Sys2Proof.Proofs
end

