-- ==== Sys2Proof/Proofs/RoundedResults.lean ====
section
/-! SUPPORT. Rounded results (spec/00_scope.md R10) as later proofs use them: the nearest pattern is unique, a number close to a pattern
is rounded to it, a number is doubled exactly, and a finite result lies on the same side of every pattern as the exact one. -/

namespace Sys2Proof.Proofs

open Sys2Proof.Machine Sys2Proof.Laws

/-! ### Values and patterns -/

section

variable {a b : Word}

theorem val32_le_iff_units : val32 a ≤ val32 b ↔ units a ≤ units b := by
  rw [val32, val32, div_le_div_iff_of_pos_right (by positivity), Int.cast_le]

theorem val32_of_units {c : ℤ} (h : units a = c * 2 ^ 129) : val32 a = c / 2 ^ 20 := by
  rw [val32, h]
  push_cast
  ring

/-- A pattern of sign 0 is told by the number it denotes. -/
theorem eq_of_val32_eq (ha : sign a = false) (hb : sign b = false) (h : val32 a = val32 b) : a = b :=
  BitVec.eq_of_toNat_eq (le_antisymm ((val32_le_iff ha hb).1 h.le) ((val32_le_iff hb ha).1 h.ge))

/-- A pattern is its sign and its magnitude. -/
theorem withSign_magnitude (x : Word) : withSign (sign x) (BitVec.ofNat 32 (x.toNat % 2 ^ 31)) = x := by
  apply BitVec.eq_of_toNat_eq
  rw [withSign_toNat _ (Nat.mod_lt _ (by positivity)), sign_eq]
  have := x.isLt
  simp only [decide_eq_true_eq]
  split <;> omega

theorem magnitude_of_pos (h : sign a = false) : a.toNat % 2 ^ 31 = a.toNat :=
  Nat.mod_eq_of_lt (by simpa [sign_eq] using h)

theorem units_of_pos (h : sign a = false) : units a = patternUnits a.toNat := by
  rw [units_eq, h, magnitude_of_pos h]
  simp

/-- The numbers the proofs compare results with, in the model's patterns. -/
theorem val32_references :
    val32 0x3F7FC000 = 1 - 1 / 2 ^ 10 ∧ val32 0x35800000 = 1 / 2 ^ 20 ∧ val32 0x3F800008 = 1 + 1 / 2 ^ 20 ∧
      val32 0x437F0000 = 255 ∧ val32 0x437E8000 = 255 - 1 / 2 ∧ val32 0x3E800000 = 1 / 4 ∧ val32 0x00000000 = 0 := by
  refine ⟨?_, ?_, ?_, ?_, ?_, ?_, ?_⟩
  · rw [val32_of_units (c := 2 ^ 20 - 2 ^ 10) (by decide +kernel)]; norm_num
  · rw [val32_of_units (c := 1) (by decide +kernel)]; norm_num
  · rw [val32_of_units (c := 2 ^ 20 + 1) (by decide +kernel)]; norm_num
  · rw [val32_of_units (c := 255 * 2 ^ 20) (by decide +kernel)]; norm_num
  · rw [val32_of_units (c := 255 * 2 ^ 20 - 2 ^ 19) (by decide +kernel)]; norm_num
  · rw [val32_of_units (c := 2 ^ 18) (by decide +kernel)]; norm_num
  · rw [val32_of_units (c := 0) (by decide +kernel)]; norm_num

end

/-! ### The nearest pattern -/

theorem nearestEven_self (m : ℕ) : NearestEven (patternUnits m) m := by
  intro k
  rw [sub_self, abs_zero]
  refine ⟨abs_nonneg _, fun heq hne => absurd (patternUnits_strictMono.injective ?_) hne⟩
  exact_mod_cast sub_eq_zero.1 (abs_eq_zero.1 heq.symm)

/-- Of two nearest patterns both would be even, so that a pattern between them would be nearer. -/
theorem NearestEven.unique {q : ℚ} {m k : ℕ} (hm : NearestEven q m) (hk : NearestEven q k) : m = k := by
  by_contra hne
  wlog hlt : m < k generalizing m k
  · exact this hk hm (Ne.symm hne) (by omega)
  have heq : |(patternUnits m : ℚ) - q| = |(patternUnits k : ℚ) - q| := le_antisymm (hm k).1 (hk m).1
  have hmeven : m % 2 = 0 := (hm k).2 heq (Ne.symm hne)
  have hkeven : k % 2 = 0 := (hk m).2 heq.symm hne
  have hbelow : (patternUnits m : ℚ) < patternUnits (m + 1) := by exact_mod_cast patternUnits_strictMono (Nat.lt_succ_self m)
  have habove : (patternUnits (m + 1) : ℚ) < patternUnits k := by
    exact_mod_cast patternUnits_strictMono (show m + 1 < k by omega)
  have hmid : (patternUnits m : ℚ) - q = -((patternUnits k : ℚ) - q) :=
    (abs_eq_abs.1 heq).resolve_left fun h => by linarith
  have hnearer : |(patternUnits (m + 1) : ℚ) - q| < |(patternUnits m : ℚ) - q| := by
    rw [abs_of_nonpos (a := (patternUnits m : ℚ) - q) (by linarith), abs_lt]
    constructor <;> linarith
  exact absurd (hm (m + 1)).1 (not_le.2 hnearer)

/-- Less than half a gap above a pattern. -/
theorem nearestEven_above {m : ℕ} {t : ℚ} (h0 : 0 ≤ t) (h : 2 * t < patternUnits (m + 1) - patternUnits m) :
    NearestEven (patternUnits m + t) m :=
  nearestEven_of_between (lo := m) (by linarith) (by linarith) (.inl ⟨rfl, .inl (by linarith)⟩)

/-- Less than half a gap below a pattern, or half a gap below an even one. -/
theorem nearestEven_below {m : ℕ} {t : ℚ} (h0 : 0 ≤ t)
    (h : 2 * t < patternUnits (m + 1) - patternUnits m ∨
      2 * t = patternUnits (m + 1) - patternUnits m ∧ (m + 1) % 2 = 0) :
    NearestEven (patternUnits (m + 1) - t) (m + 1) := by
  refine nearestEven_of_between (lo := m) ?_ (by linarith) (.inr ⟨rfl, ?_⟩)
  · rcases h with h | ⟨h, -⟩ <;> linarith
  · exact h.imp (fun h => by linarith) fun ⟨h, heven⟩ => ⟨by linarith, heven⟩

theorem rne_of_nearestEven (neg : Bool) {n d m : ℕ} (hd : 0 < d) (h : NearestEven ((n : ℚ) / d) m) :
    rne neg n d = withSign neg (BitVec.ofNat 32 (min m 0x7F800000)) := by
  obtain ⟨k, hk, hrne⟩ := rneMag_spec n hd
  rw [rne, hrne, hk.unique h]

/-- A sum is the nearest pattern of its magnitude, under its sign. -/
theorem add32_of_nearestEven {a b : Word} (ha : isFinite a = true) (hb : isFinite b = true) {neg : Bool} {n m : ℕ}
    (hn : 0 < n) (hsum : units a + units b = (if neg then -1 else 1) * n) (h : NearestEven n m) :
    add32 a b = withSign neg (BitVec.ofNat 32 (min m 0x7F800000)) := by
  have hsign : decide (units a + units b < 0) = neg := by
    rw [hsum]
    cases neg <;> simp [hn]
  have hmag : (units a + units b).natAbs = n := by
    rw [hsum]
    cases neg <;> simp
  have hne : units a + units b ≠ 0 := fun h0 => by
    rw [h0] at hmag
    omega
  rw [add32_of_isFinite ha hb, if_pos hne, hsign, hmag]
  exact rne_of_nearestEven neg one_pos (by simpa using h)

/-! ### Doubling -/

/-- The magnitude pattern of the doubled number, exponents not bounded. -/
def doubledPattern (m : ℕ) : ℕ := if m < 2 ^ 23 then 2 * m else m + 2 ^ 23

theorem patternUnits_doubledPattern (m : ℕ) : patternUnits (doubledPattern m) = 2 * patternUnits m := by
  rw [doubledPattern]
  split
  · rename_i h
    have hdouble := patternUnits_binade (e := 0) (k := 2 * m) (by omega) (.inl rfl)
    have hself := patternUnits_binade (e := 0) (k := m) (by omega) (.inl rfl)
    rw [Nat.zero_mul, Nat.zero_add, pow_zero, mul_one] at hdouble hself
    rw [hdouble, hself]
  · have hself := patternUnits_binade (e := m / 2 ^ 23 - 1) (k := 2 ^ 23 + m % 2 ^ 23) (by omega) (.inr (by omega))
    have hdouble := patternUnits_binade (e := m / 2 ^ 23) (k := 2 ^ 23 + m % 2 ^ 23) (by omega) (.inr (by omega))
    rw [show (m / 2 ^ 23 - 1) * 2 ^ 23 + (2 ^ 23 + m % 2 ^ 23) = m by omega] at hself
    rw [show m / 2 ^ 23 * 2 ^ 23 + (2 ^ 23 + m % 2 ^ 23) = m + 2 ^ 23 by omega] at hdouble
    rw [hdouble, hself, mul_left_comm, ← pow_succ', Nat.sub_add_cancel (by omega)]

/-- Doubling is exact up to overflow (R100). -/
theorem add32_self {x : Word} (h : isNaN x = false) :
    add32 x x = withSign (sign x) (BitVec.ofNat 32 (min (doubledPattern (x.toNat % 2 ^ 31)) 0x7F800000)) := by
  rcases (pattern_class x).resolve_left (by simp [h]) with hinf | hfin
  · rw [add32_of_isInf_left hinf h fun _ => rfl, (isInf_iff x).1 hinf]
    conv_lhs => rw [← withSign_magnitude x, (isInf_iff x).1 hinf]
    rfl
  · by_cases h0 : patternUnits (x.toNat % 2 ^ 31) = 0
    · have hm : x.toNat % 2 ^ 31 = 0 := patternUnits_strictMono.injective h0
      rw [← withSign_magnitude x, hm]
      cases sign x <;> decide
    · refine add32_of_nearestEven hfin hfin (n := 2 * patternUnits (x.toNat % 2 ^ 31)) (by omega) ?_ ?_
      · rw [units_eq]
        push_cast
        ring
      · rw [← patternUnits_doubledPattern]
        exact nearestEven_self _

/-- What the doubled number is compared with: its sign, and a lower bound of its magnitude's pattern. -/
theorem add32_self_bounds {x : Word} (h : isNaN x = false) :
    isNaN (add32 x x) = false ∧ sign (add32 x x) = sign x ∧
      ∀ m, 2 ^ 23 ≤ m → m ≤ 0x7F000000 → m ≤ x.toNat % 2 ^ 31 → m + 2 ^ 23 ≤ (add32 x x).toNat % 2 ^ 31 := by
  have hlt : min (doubledPattern (x.toNat % 2 ^ 31)) 0x7F800000 < 2 ^ 31 := (min_le_right _ _).trans_lt (by norm_num)
  have hmag : (add32 x x).toNat % 2 ^ 31 = min (doubledPattern (x.toNat % 2 ^ 31)) 0x7F800000 := by
    rw [add32_self h, withSign_toNat _ hlt]
    split <;> omega
  refine ⟨?_, by rw [add32_self h, sign_withSign _ hlt], fun m hnormal hmax hm => ?_⟩
  · rw [← Bool.not_eq_true, isNaN_iff, hmag]
    omega
  · rw [hmag, doubledPattern, if_neg (by omega)]
    omega

/-! ### Finite results -/

/-- No finite pattern is nearer to `x` than the finite pattern `r`. -/
def Nearest (x : ℚ) (r : Word) : Prop :=
  isFinite r = true ∧ ∀ y : Word, isFinite y = true → |val32 r - x| ≤ |val32 y - x|

section

variable {x : ℚ} {a b r y : Word}

theorem nearest_of_isRNE (h : IsRNE x r) (hx : |x| < 2 ^ 128 - 2 ^ 103) : Nearest x r := by
  obtain ⟨-, -, hnear⟩ := h
  obtain ⟨hr, hnear⟩ := hnear hx
  exact ⟨hr, fun y hy => (hnear y hy).1⟩

theorem nearest_of_zero (h : r = 0x00000000 ∨ r = 0x80000000) : Nearest 0 r := by
  obtain ⟨hfin, hval⟩ := zero_patterns h
  exact ⟨hfin, fun y _ => by simp [hval]⟩

/-- Rounding keeps the order to every pattern. -/
theorem Nearest.le_of_le (h : Nearest x r) (hy : isFinite y = true) (hle : val32 y ≤ x) : val32 y ≤ val32 r := by
  have hnear := h.2 y hy
  rw [abs_sub_comm (val32 y), abs_of_nonneg (sub_nonneg.2 hle)] at hnear
  linarith [(abs_le.1 hnear).1]

/-- Rounding keeps the order to every pattern. -/
theorem Nearest.ge_of_ge (h : Nearest x r) (hy : isFinite y = true) (hge : x ≤ val32 y) : val32 r ≤ val32 y := by
  have hnear := h.2 y hy
  rw [abs_of_nonneg (sub_nonneg.2 hge)] at hnear
  linarith [(abs_le.1 hnear).2]

theorem nearest_add32 (ha : isFinite a = true) (hb : isFinite b = true) (h : |val32 a + val32 b| < 2 ^ 128 - 2 ^ 103) :
    Nearest (val32 a + val32 b) (add32 a b) := by
  by_cases h0 : val32 a + val32 b = 0
  · rw [h0, add32_of_sum_zero ha hb h0]
    exact nearest_of_zero (by split <;> simp)
  · exact nearest_of_isRNE (isRNE_add32 ha hb h0) h

theorem nearest_sub32 (ha : isFinite a = true) (hb : isFinite b = true) (h : |val32 a - val32 b| < 2 ^ 128 - 2 ^ 103) :
    Nearest (val32 a - val32 b) (sub32 a b) := by
  rw [sub_eq_add_neg, ← val32_flip] at h ⊢
  exact nearest_add32 ha ((isFinite_flip b).trans hb) h

theorem nearest_mul32 (ha : isFinite a = true) (hb : isFinite b = true) (h : |val32 a * val32 b| < 2 ^ 128 - 2 ^ 103) :
    Nearest (val32 a * val32 b) (mul32 a b) := by
  by_cases h0 : val32 a * val32 b = 0
  · rw [h0, mul32_of_product_zero ha hb h0]
    exact nearest_of_zero (by split <;> simp)
  · exact nearest_of_isRNE (isRNE_mul32 ha hb h0) h

theorem nearest_div32 (ha : isFinite a = true) (hb : isFinite b = true) (hne : val32 b ≠ 0)
    (h : |val32 a / val32 b| < 2 ^ 128 - 2 ^ 103) : Nearest (val32 a / val32 b) (div32 a b) := by
  by_cases h0 : val32 a = 0
  · rw [h0, zero_div, div32_of_zero_left ha hb h0 hne]
    exact nearest_of_zero (by split <;> simp)
  · exact nearest_of_isRNE (isRNE_div32 ha hb (div_ne_zero h0 hne)) h

end

end Sys2Proof.Proofs
end

