-- ==== Sys2Proof/Proofs/Transcendentals.lean ====
section
/-! SUPPORT. The transcendental instructions (spec/41_transcendental.md R140 to R143): admissible units pass the model's limits, each
lane goes through its unit, and the hyperbolic tangent in its corner cases. -/

namespace Sys2Proof.Proofs

open Sys2Proof.Machine Sys2Proof.Laws

/-- Settles O16: an admissible result lies within every limit. -/
theorem admissibleUnitsPassUnchanged : Obligations.AdmissibleUnitsPassUnchanged := by
  intro sine cosine exponential ⟨hsin, hcos, hexp⟩ x
  exact ⟨congrFun (boundTrig_eq_self hsin) x, congrFun (boundTrig_eq_self hcos) x, congrFun (boundExp_eq_self hexp) x⟩

/-- Settles O28: each instruction writes its lanes with its own unit. -/
theorem transcendentalsWriteEachLane : Obligations.TranscendentalsWriteEachLane := by
  intro s rd ra hturn
  have hwrites : ∀ f : ℕ → Word, WritesRegs s (advance (setReg s rd (perLane s f))) [(rd, f)] :=
    fun f => perLane_advance_writes s rd f hturn
  exact ⟨⟨_, rfl, hwrites _⟩, ⟨_, rfl, hwrites _⟩, ⟨_, rfl, hwrites _⟩, ⟨_, rfl, hwrites _⟩⟩

/-! ### The exponential's results in bits -/

section

variable {f : Word → Word} (hf : ExpContract f) {y : Word}

include hf

/-- The limits hold at the infinities too (R132 E2). -/
theorem between_of_not_isNaN (hy : isNaN y = false) : expLow y ≤ (f y).toNat ∧ (f y).toNat ≤ expHigh y := by
  rcases (pattern_class y).resolve_left (by simp [hy]) with hinf | hfin
  · obtain ⟨-, hpos, hneg, -⟩ := hf
    cases hs : sign y
    · rw [eq_of_isInf (b := posInf) hinf (by decide) hs, hpos]
      decide
    · rw [eq_of_isInf (b := negInf) hinf (by decide) hs, hneg]
      decide
  · exact between_of_contract hf hfin

/-- No result has the sign bit, CNAN included. -/
theorem sign_exponential (y : Word) : sign (f y) = false := by
  cases hy : isNaN y
  · have hle := (between_of_not_isNaN hf hy).2.trans (expHigh_finite y).1
    exact ((le_posInf_iff (f y)).1 hle).2
  · rw [hf.1 y hy]
    rfl

/-- From 128 ln 2 up (E5). -/
theorem exponential_overflow (hy : isNaN y = false) (hs : sign y = false) (h : 0x42B17218 ≤ y.toNat) : f y = posInf := by
  obtain ⟨hlo, hhi⟩ := between_of_not_isNaN hf hy
  rw [expLow, hs, if_neg (by simp), if_pos h] at hlo
  exact BitVec.eq_of_toNat_eq (le_antisymm (hhi.trans (expHigh_finite y).1) hlo)

/-- The result of a negative argument is at most just above 1 (E4), and at most 2^-126 below -126 ln 2 (E6). -/
theorem exponential_of_sign (hy : isNaN y = false) (hs : sign y = true) :
    (f y).toNat ≤ 0x3F800008 ∧ (0xC2AEAC50 ≤ y.toNat → (f y).toNat ≤ 0x00800000) := by
  have hhi := (between_of_not_isNaN hf hy).2
  rw [expHigh, if_pos hs] at hhi
  constructor
  · split at hhi <;> omega
  · intro h
    rwa [if_neg (by omega)] at hhi

/-- The result of an argument from 10 up is at least 2^12: exp 10 is above 2^14, and the unit is close to it (E4, E5). -/
theorem exponential_large (hy : isNaN y = false) (hs : sign y = false) (h : 0x41200000 ≤ y.toNat) :
    f y = posInf ∨ isFinite (f y) = true ∧ 2 ^ 12 ≤ val32 (f y) := by
  obtain ⟨-, hpos, -, -, -, hnormal, hover, hedge, -⟩ := hf
  rcases (pattern_class y).resolve_left (by simp [hy]) with hinf | hfin
  · rw [eq_of_isInf (b := posInf) hinf (by decide) hs]
    exact .inl hpos
  have hexp : 2 ^ 14 < Real.exp ((val32 y : ℚ) : ℝ) := by
    rw [val32_cast, hs, magnitude_of_pos hs, if_neg (by simp), one_mul]
    exact two_pow_lt_exp_pattern (by norm_num) h (c := 10 * 2 ^ 17) (by decide +kernel) (by norm_num)
  have hlarge : |((val32 (f y) : ℚ) : ℝ) - Real.exp ((val32 y : ℚ) : ℝ)| ≤ (transTol : ℚ) * Real.exp ((val32 y : ℚ) : ℝ) →
      2 ^ 12 ≤ val32 (f y) := by
    intro hnear
    rw [← Rat.cast_le (K := ℝ)]
    norm_num [transTol] at hnear hexp ⊢
    linarith [(abs_le.1 hnear).1]
  rcases le_or_gt (Real.exp ((val32 y : ℚ) : ℝ)) (2 ^ 127) with h127 | h127
  · obtain ⟨hfin', hnear⟩ := hnormal y hfin (le_trans (by norm_num) hexp.le) h127
    exact .inr ⟨hfin', hlarge hnear⟩
  · rcases le_or_gt (2 ^ 128) (Real.exp ((val32 y : ℚ) : ℝ)) with h128 | h128
    · exact .inl (hover y hfin h128)
    · exact (hedge y hfin h127 h128).imp_right fun ⟨hfin', hnear⟩ => ⟨hfin', hlarge hnear⟩

end

/-! ### The quotient (E - 1) / (E + 1) -/

/-- The FTANH lane function after its exponential (R143). -/
def tanhQuotient (e : Word) : Word := div32 (sub32 e one32) (add32 e one32)

theorem tanhOf_eq (f : Word → Word) (x : Word) : tanhOf f x = tanhQuotient (f (add32 x x)) := rfl

theorem tanhQuotient_cnan : tanhQuotient cnan = cnan := by decide

/-- An infinite exponential gives infinity by infinity. -/
theorem tanhQuotient_posInf : tanhQuotient posInf = cnan := by decide

theorem tanhQuotient_one : tanhQuotient one32 = 0x00000000 := by decide +kernel

theorem units_one : units one32 = 2 ^ 149 ∧ units (one32 ^^^ 0x80000000) = -2 ^ 149 := by decide +kernel

/-- The gap between neighbouring normal patterns. -/
theorem patternUnits_succ {m : ℕ} (h : 2 ^ 23 ≤ m) : patternUnits (m + 1) = patternUnits m + 2 ^ (m / 2 ^ 23 - 1) := by
  have hm := patternUnits_binade (e := m / 2 ^ 23 - 1) (k := 2 ^ 23 + m % 2 ^ 23) (by omega) (.inr (by omega))
  have hsucc := patternUnits_binade (e := m / 2 ^ 23 - 1) (k := 2 ^ 23 + m % 2 ^ 23 + 1) (by omega) (.inr (by omega))
  rw [show (m / 2 ^ 23 - 1) * 2 ^ 23 + (2 ^ 23 + m % 2 ^ 23) = m by omega] at hm
  rw [show (m / 2 ^ 23 - 1) * 2 ^ 23 + (2 ^ 23 + m % 2 ^ 23 + 1) = m + 1 by omega] at hsucc
  rw [hsucc, hm]
  ring

/-- From 2^25 up neighbouring patterns are at least 4 apart. -/
theorem patternUnits_gap_large {m : ℕ} (h : 0x4C000000 ≤ m) : patternUnits m + 2 ^ 151 ≤ patternUnits (m + 1) := by
  rw [patternUnits_succ (by omega)]
  have : 2 ^ 151 ≤ 2 ^ (m / 2 ^ 23 - 1) := Nat.pow_le_pow_right (by norm_num) (by omega)
  omega

section

variable {e : Word}

theorem val32_of_pos (hs : sign e = false) : val32 e = patternUnits e.toNat / 2 ^ 149 := by
  rw [val32, units_of_pos hs, Int.cast_natCast]

/-- The pattern a positive sum is rounded to. -/
theorem withSign_of_pos (hfin : isFinite e = true) (hs : sign e = false) :
    withSign false (BitVec.ofNat 32 (min e.toNat 0x7F800000)) = e := by
  rw [min_eq_left ((lt_posInf_iff e).2 ⟨hfin, hs⟩).le, ← magnitude_of_pos hs, ← hs]
  exact withSign_magnitude e

/-- From 2^25 up a 1 more is less than half the gap to the next number. -/
theorem add32_one_of_large (hfin : isFinite e = true) (hs : sign e = false) (h : 0x4C000000 ≤ e.toNat) :
    add32 e one32 = e := by
  have hgap : (patternUnits e.toNat : ℚ) + 2 ^ 151 ≤ patternUnits (e.toNat + 1) := by
    exact_mod_cast patternUnits_gap_large h
  have hnear : NearestEven ((patternUnits e.toNat + 2 ^ 149 : ℕ) : ℚ) e.toNat := by
    push_cast
    exact nearestEven_above (by positivity) (by norm_num at hgap ⊢; linarith)
  rw [add32_of_nearestEven (neg := false) hfin (by decide) (by positivity) ?_ hnear, withSign_of_pos hfin hs]
  rw [units_of_pos hs, units_one.1]
  simp

/-- From 2^25 up a 1 less is at most half the gap to the number before, and half of it at 2^25 alone, whose pattern is even. -/
theorem sub32_one_of_large (hfin : isFinite e = true) (hs : sign e = false) (h : 0x4C000000 ≤ e.toNat) :
    sub32 e one32 = e := by
  obtain ⟨m, hm⟩ : ∃ m, e.toNat = m + 1 := ⟨e.toNat - 1, by omega⟩
  have hgap : (2 * 2 ^ 149 : ℚ) < patternUnits (m + 1) - patternUnits m ∨
      (2 * 2 ^ 149 : ℚ) = patternUnits (m + 1) - patternUnits m ∧ (m + 1) % 2 = 0 := by
    rcases Nat.lt_or_ge m 0x4C000000 with hlt | hge
    · obtain rfl : m = 0x4BFFFFFF := by omega
      refine .inr ⟨?_, by norm_num⟩
      rw [show patternUnits (0x4BFFFFFF + 1) = 2 ^ 174 by decide +kernel,
        show patternUnits 0x4BFFFFFF = 2 ^ 174 - 2 ^ 150 by decide +kernel]
      norm_num
    · have hcast : (patternUnits m : ℚ) + 2 ^ 151 ≤ patternUnits (m + 1) := by exact_mod_cast patternUnits_gap_large hge
      exact .inl (by norm_num at hcast ⊢; linarith)
  have hone : 2 ^ 149 < patternUnits (m + 1) :=
    calc 2 ^ 149 = patternUnits 0x3F800000 := by decide +kernel
      _ < patternUnits (m + 1) := patternUnits_strictMono (by omega)
  have hnear : NearestEven ((patternUnits (m + 1) - 2 ^ 149 : ℕ) : ℚ) (m + 1) := by
    rw [Nat.cast_sub hone.le]
    push_cast
    exact nearestEven_below (by positivity) hgap
  rw [← hm] at hnear hone
  rw [sub32, add32_of_nearestEven (neg := false) hfin (by decide) (by omega) ?_ hnear, withSign_of_pos hfin hs]
  rw [units_of_pos hs, units_one.2, Nat.cast_sub hone.le]
  simp [sub_eq_add_neg]

/-- A number divided by itself. -/
theorem div32_self (hfin : isFinite e = true) (hne : val32 e ≠ 0) : div32 e e = one32 := by
  have hrne := isRNE_div32 hfin hfin (by rw [div_self hne]; exact one_ne_zero)
  rw [div_self hne] at hrne
  obtain ⟨-, hval⟩ := val32_eq_of_isRNE hrne (y := one32) (by decide) val32_one (by norm_num)
  exact eq_of_val32_eq (by rw [hrne.1]; simp) (by decide) (hval.trans val32_one.symm)

/-- From 2^25 up neither the sum nor the difference is told from E. -/
theorem tanhQuotient_of_large (hfin : isFinite e = true) (h : 2 ^ 25 ≤ val32 e) : tanhQuotient e = one32 := by
  have hpos : 0 < val32 e := lt_of_lt_of_le (by positivity) h
  have hs := sign_of_pos hpos
  have hn : 0x4C000000 ≤ e.toNat := by
    rw [val32_of_pos hs, le_div_iff₀ (by positivity), ← pow_add] at h
    refine (patternUnits_strictMono.le_iff_le (a := 0x4C000000)).1 ?_
    rw [show patternUnits 0x4C000000 = 2 ^ 174 by decide +kernel]
    exact_mod_cast h
  rw [tanhQuotient, sub32_one_of_large hfin hs hn, add32_one_of_large hfin hs hn, div32_self hfin hpos.ne']

theorem patternUnits_lt_of_small (hs : sign e = false) (h : val32 e < 1 / 2 ^ 25) : patternUnits e.toNat < 2 ^ 124 := by
  rw [val32_of_pos hs, div_lt_iff₀ (by positivity)] at h
  norm_num at h
  exact_mod_cast h

/-- Below 2^-25 it is less than half the gap from 1 to the next number. -/
theorem add32_one_of_small (hfin : isFinite e = true) (hs : sign e = false) (h : val32 e < 1 / 2 ^ 25) :
    add32 e one32 = one32 := by
  have hlt : (patternUnits e.toNat : ℚ) < 2 ^ 124 := by exact_mod_cast patternUnits_lt_of_small hs h
  have hone : patternUnits 0x3F800000 = 2 ^ 149 ∧ patternUnits (0x3F800000 + 1) = 2 ^ 149 + 2 ^ 126 := by decide +kernel
  have hnear := nearestEven_above (m := 0x3F800000) (t := patternUnits e.toNat) (by positivity)
    (by rw [hone.1, hone.2]; push_cast; linarith)
  rw [hone.1] at hnear
  rw [add32_of_nearestEven (neg := false) (n := 2 ^ 149 + patternUnits e.toNat) hfin (by decide) (by positivity) ?_
    (by exact_mod_cast hnear)]
  · decide
  · rw [units_of_pos hs, units_one.1]
    simp [add_comm]

/-- Below 2^-25 it is less than half the gap from the number before 1 to 1. -/
theorem sub32_one_of_small (hfin : isFinite e = true) (hs : sign e = false) (h : val32 e < 1 / 2 ^ 25) :
    sub32 e one32 = 0xBF800000 := by
  have hlt := patternUnits_lt_of_small hs h
  have hcast : (patternUnits e.toNat : ℚ) < 2 ^ 124 := by exact_mod_cast hlt
  have hle : patternUnits e.toNat ≤ 2 ^ 149 := hlt.le.trans (by norm_num)
  have hone : patternUnits (0x3F7FFFFF + 1) = 2 ^ 149 ∧ patternUnits 0x3F7FFFFF = 2 ^ 149 - 2 ^ 125 := by decide +kernel
  have hgap : (patternUnits (0x3F7FFFFF + 1) : ℚ) - patternUnits 0x3F7FFFFF = 2 ^ 125 := by
    rw [hone.1, hone.2]
    norm_num
  have hnear := nearestEven_below (m := 0x3F7FFFFF) (t := patternUnits e.toNat) (by positivity)
    (.inl (by rw [hgap]; linarith))
  rw [hone.1] at hnear
  rw [sub32, add32_of_nearestEven (neg := true) (n := 2 ^ 149 - patternUnits e.toNat) hfin (by decide) (by omega) ?_
    (by rw [Nat.cast_sub hle]; exact_mod_cast hnear)]
  · decide
  · rw [units_of_pos hs, units_one.2, Nat.cast_sub hle]
    push_cast
    simp only [if_true]
    ring

/-- Below 2^-25 the quotient is -1 by 1. -/
theorem tanhQuotient_of_small (hfin : isFinite e = true) (hs : sign e = false) (h : val32 e < 1 / 2 ^ 25) :
    tanhQuotient e = 0xBF800000 := by
  rw [tanhQuotient, sub32_one_of_small hfin hs h, add32_one_of_small hfin hs h]
  decide +kernel

end

/-- Settles O29: the doubled argument's sign and magnitude decide the exponential, and the exponential decides the quotient. -/
theorem tanhCornerCases : Obligations.TanhCornerCases := by
  obtain ⟨hexp, -⟩ := exponentialUnitKeepsItsRange
  have hsmall : ∀ x, isFinite (expA (add32 x x)) = true → val32 (expA (add32 x x)) < 1 / 2 ^ 25 →
      tanhOf expA x = 0xBF800000 := fun x hfin h => tanhQuotient_of_small hfin (sign_exponential hexp _) h
  have hzero : expA 0x00000000 = one32 := boundExp_zero _ (.inl rfl)
  have hzero' : expA 0x80000000 = one32 := boundExp_zero _ (.inr rfl)
  refine fun x => ⟨fun hnan => ?_, fun hnan hs hx => ?_, fun hnan hs hx => ?_, ?_, ?_,
    fun hfin h => tanhQuotient_of_large hfin h, hsmall x⟩
  · rw [tanhOf_eq, add32_of_isNaN (.inl hnan), hexp.1 cnan (by decide)]
    exact tanhQuotient_cnan
  · obtain ⟨hnan', hs', hdouble⟩ := add32_self_bounds hnan
    rw [hs] at hs'
    have hy := hdouble 0x42317218 (by norm_num) (by norm_num) ((magnitude_of_pos hs).symm ▸ hx)
    rw [magnitude_of_pos hs'] at hy
    rw [tanhOf_eq, exponential_overflow hexp hnan' hs' hy]
    exact tanhQuotient_posInf
  · obtain ⟨hnan', hs', hdouble⟩ := add32_self_bounds hnan
    have hy := hdouble 0x422EAC50 (by norm_num) (by norm_num) (by have := x.isLt; omega)
    have hneg : 2 ^ 31 ≤ (add32 x x).toNat := by simpa [hs, sign_eq] using hs'
    have hle := (exponential_of_sign hexp hnan' (hs'.trans hs)).2 (by omega)
    obtain ⟨hfin, hse⟩ := (lt_posInf_iff _).1 (hle.trans_lt (by norm_num))
    exact hsmall x hfin (((val32_le_min_normal_iff hse).2 hle).trans_lt (by norm_num))
  · rw [tanhOf_eq, show add32 0x00000000 0x00000000 = 0x00000000 by decide, hzero]
    exact tanhQuotient_one
  · rw [tanhOf_eq, show add32 0x80000000 0x80000000 = 0x80000000 by decide, hzero']
    exact tanhQuotient_one

end Sys2Proof.Proofs
end

