-- ==== Sys2Proof/Proofs/ExactQuantizer.lean ====
section
/-! SUPPORT. The exact quantization strategy outside (0, 5) (spec/44_quantizer_store.md R203, R212). No error is counted: each rounded
operation keeps the order of its exact result to a few patterns, which leaves the byte no choice. -/

namespace Sys2Proof.Proofs

open Sys2Proof.Machine Sys2Proof.Laws

/-! ### The quotient near 1 and near 0 -/

section

variable {e : Word}

/-- The greatest finite number. -/
theorem val32_abs_le_max (h : isFinite e = true) : |val32 e| ≤ 2 ^ 128 - 2 ^ 104 := by
  have hmax : magUnits e ≤ (2 ^ 25 - 2) * 2 ^ 252 := by
    rw [magUnits_eq, ← patternUnits_overflow.1]
    exact patternUnits_strictMono.monotone (Nat.le_of_lt_succ ((isFinite_iff e).1 h))
  have hcast : (magUnits e : ℚ) ≤ (2 ^ 25 - 2) * 2 ^ 252 := by
    refine (Nat.cast_le.2 hmax).trans_eq ?_
    norm_num
  rw [val32_abs, div_le_iff₀ (by positivity)]
  exact hcast.trans_eq (by ring)

/-- A 1 less and a 1 more than a finite number that is not negative do not overflow. -/
theorem tanh_operands (hfin : isFinite e = true) (h : 0 ≤ val32 e) :
    Nearest (val32 e - 1) (sub32 e one32) ∧ Nearest (val32 e + 1) (add32 e one32) := by
  have hmax := (abs_le.1 (val32_abs_le_max hfin)).2
  have hone : isFinite one32 = true := by decide
  have hdiff := nearest_sub32 hfin hone (by rw [val32_one, abs_lt]; constructor <;> linarith)
  have hsum := nearest_add32 hfin hone (by rw [val32_one, abs_lt]; constructor <;> linarith)
  rw [val32_one] at hdiff hsum
  exact ⟨hdiff, hsum⟩

/-- From 2^12 up the difference and the sum are 2 from E at most. -/
theorem tanhQuotient_near_one (hfin : isFinite e = true) (h : 2 ^ 12 ≤ val32 e) :
    isFinite (tanhQuotient e) = true ∧ 1 - 1 / 2 ^ 10 ≤ val32 (tanhQuotient e) ∧ val32 (tanhQuotient e) ≤ 1 := by
  obtain ⟨hdiff, hsum⟩ := tanh_operands hfin (by linarith)
  have hdiffLe : val32 (sub32 e one32) ≤ val32 e := hdiff.ge_of_ge hfin (by linarith)
  have hsumGe : val32 e ≤ val32 (add32 e one32) := hsum.le_of_le hfin (by linarith)
  have hdiffGe : val32 e - 2 ≤ val32 (sub32 e one32) := by
    have hnear := hdiff.2 e hfin
    rw [show val32 e - (val32 e - 1) = 1 by ring, abs_one] at hnear
    linarith [(abs_le.1 hnear).1]
  have hsumLe : val32 (add32 e one32) ≤ val32 e + 2 := by
    have hnear := hsum.2 e hfin
    rw [show val32 e - (val32 e + 1) = -1 by ring, abs_neg, abs_one] at hnear
    linarith [(abs_le.1 hnear).2]
  have hpos : 0 < val32 (add32 e one32) := by linarith
  have hquotLe : val32 (sub32 e one32) / val32 (add32 e one32) ≤ 1 := (div_le_one hpos).2 (hdiffLe.trans hsumGe)
  have hquotGe : 1 - 1 / 2 ^ 10 ≤ val32 (sub32 e one32) / val32 (add32 e one32) := by
    rw [le_div_iff₀ hpos]
    linarith
  have hquot := nearest_div32 hdiff.1 hsum.1 hpos.ne' (by rw [abs_lt]; constructor <;> linarith)
  obtain ⟨hbelow, -⟩ := val32_references
  refine ⟨hquot.1, ?_, ?_⟩
  · rw [← hbelow] at hquotGe ⊢
    exact hquot.le_of_le (by decide) hquotGe
  · rw [← val32_one] at hquotLe ⊢
    exact hquot.ge_of_ge (by decide) hquotLe

/-- Up to just above 1 the difference is at most just above 0, and the sum is at least 1. -/
theorem tanhQuotient_near_zero (hfin : isFinite e = true) (hs : sign e = false) (h : val32 e ≤ 1 + 1 / 2 ^ 20) :
    isFinite (tanhQuotient e) = true ∧ val32 (tanhQuotient e) ≤ 1 / 2 ^ 20 := by
  have hnonneg := val32_nonneg hs
  have hminus : isFinite (one32 ^^^ 0x80000000) = true ∧ val32 (one32 ^^^ 0x80000000) = -1 := by
    rw [val32_flip, val32_one]
    exact ⟨by decide, rfl⟩
  obtain ⟨-, hsmall, -⟩ := val32_references
  obtain ⟨hdiff, hsum⟩ := tanh_operands hfin hnonneg
  have hsumGe : 1 ≤ val32 (add32 e one32) := by
    have hle := hsum.le_of_le (y := one32) (by decide) (by rw [val32_one]; linarith)
    rwa [val32_one] at hle
  have hdiffLe : val32 (sub32 e one32) ≤ 1 / 2 ^ 20 := by
    have hge := hdiff.ge_of_ge (y := 0x35800000) (by decide) (by rw [hsmall]; linarith)
    rwa [hsmall] at hge
  have hdiffGe : -1 ≤ val32 (sub32 e one32) := by
    have hle := hdiff.le_of_le hminus.1 (by rw [hminus.2]; linarith)
    rwa [hminus.2] at hle
  have hpos : 0 < val32 (add32 e one32) := by linarith
  have hquotLe : val32 (sub32 e one32) / val32 (add32 e one32) ≤ 1 / 2 ^ 20 := by
    rw [div_le_iff₀ hpos]
    linarith
  have hquotGe : -1 ≤ val32 (sub32 e one32) / val32 (add32 e one32) := by
    rw [le_div_iff₀ hpos]
    linarith
  have hquot := nearest_div32 hdiff.1 hsum.1 hpos.ne' (by rw [abs_lt]; constructor <;> linarith)
  refine ⟨hquot.1, ?_⟩
  rw [← hsmall] at hquotLe ⊢
  exact hquot.ge_of_ge (by decide) hquotLe

end

/-! ### The byte of a tanh value -/

/-- `Qexact` after its tanh (R203). -/
def tanhByte (t : Word) : Byte := byteOf (roundHalfAway (mul32 (clampUnit t) 0x437F0000))

theorem qexactOf_eq (f : Word → Word) {x : Word} (h : isNaN x = false) : qexactOf f x = tanhByte (saturatedTanh f x) := by
  rw [qexactOf, if_neg (by simp [h]), tanhByte]

/-- Rounding half away from zero is, of a number that is not negative, the floor of the number plus one half. -/
theorem roundHalfAway_eq_floor {x : Word} (h : 0 ≤ val32 x) : roundHalfAway x = ⌊val32 x + 1 / 2⌋ := by
  have hfloor : ⌊(magUnits x : ℚ) / 2 ^ 149 + 1 / 2⌋ = ((2 * magUnits x + 2 ^ 149) / 2 ^ 150 : ℕ) := by
    rw [show (magUnits x : ℚ) / 2 ^ 149 + 1 / 2 = ((2 * magUnits x + 2 ^ 149 : ℕ) : ℚ) / (2 ^ 150 : ℕ) by push_cast; ring]
    exact Rat.floor_natCast_div_natCast _ _
  have hval : val32 x = magUnits x / 2 ^ 149 := by rw [← val32_abs, abs_of_nonneg h]
  rw [hval, hfloor, roundHalfAway]
  split
  · rename_i hs
    -- a number with the sign bit that is not negative is a zero
    have hzero : magUnits x = 0 := by
      have hneg : val32 x = -(magUnits x / 2 ^ 149 : ℚ) := by rw [val32, units, if_pos hs]; push_cast; ring
      have h0 : (magUnits x : ℚ) / 2 ^ 149 = 0 := by linarith
      simpa using h0
    rw [hzero]
    decide
  · rfl

section

variable {t : Word}

theorem clampUnit_of_mem (h0 : 0 ≤ val32 t) (h1 : val32 t ≤ 1) : clampUnit t = t := by
  obtain ⟨-, -, -, -, -, -, hzero⟩ := val32_references
  rw [← hzero, val32_le_iff_units] at h0
  rw [← val32_one, val32_le_iff_units] at h1
  exact if_pos ⟨h0, h1⟩

theorem clampUnit_of_neg (h : val32 t < 0) : clampUnit t = 0x00000000 := by
  obtain ⟨-, -, -, -, -, -, hzero⟩ := val32_references
  rw [← hzero, ← not_le, val32_le_iff_units, not_le, show units 0x00000000 = 0 by decide] at h
  rw [clampUnit, if_neg fun h' => absurd h'.1 (not_le.2 h), if_pos h]

/-- A tanh value within 2^-10 of 1 gives the byte 255. -/
theorem tanhByte_near_one (hfin : isFinite t = true) (hlo : 1 - 1 / 2 ^ 10 ≤ val32 t) (hhi : val32 t ≤ 1) :
    tanhByte t = 255 := by
  obtain ⟨-, -, -, hscale, hround, -⟩ := val32_references
  have hprod := nearest_mul32 (b := 0x437F0000) hfin (by decide) (by rw [hscale, abs_lt]; constructor <;> linarith)
  rw [hscale] at hprod
  have hle := hprod.ge_of_ge (y := 0x437F0000) (by decide) (by rw [hscale]; linarith)
  have hge := hprod.le_of_le (y := 0x437E8000) (by decide) (by rw [hround]; linarith)
  rw [hscale] at hle
  rw [hround] at hge
  have hfloor : ⌊val32 (mul32 t 0x437F0000) + 1 / 2⌋ = 255 :=
    Int.floor_eq_iff.2 ⟨by rw [Int.cast_ofNat]; linarith, by rw [Int.cast_ofNat]; linarith⟩
  rw [tanhByte, clampUnit_of_mem (by linarith) hhi, roundHalfAway_eq_floor (by linarith), hfloor]
  rfl

/-- A tanh value up to 2^-20 gives the byte 0. -/
theorem tanhByte_near_zero (hfin : isFinite t = true) (h : val32 t ≤ 1 / 2 ^ 20) : tanhByte t = 0 := by
  rcases lt_or_ge (val32 t) 0 with hneg | hnonneg
  · rw [tanhByte, clampUnit_of_neg hneg]
    decide +kernel
  · obtain ⟨-, -, -, hscale, -, hquarter, hzero⟩ := val32_references
    have hprod := nearest_mul32 (b := 0x437F0000) hfin (by decide) (by rw [hscale, abs_lt]; constructor <;> linarith)
    rw [hscale] at hprod
    have hle := hprod.ge_of_ge (y := 0x3E800000) (by decide) (by rw [hquarter]; linarith)
    have hge := hprod.le_of_le (y := 0x00000000) (by decide) (by rw [hzero]; linarith)
    rw [hquarter] at hle
    rw [hzero] at hge
    have hfloor : ⌊val32 (mul32 t 0x437F0000) + 1 / 2⌋ = 0 :=
      Int.floor_eq_iff.2 ⟨by rw [Int.cast_zero]; linarith, by rw [Int.cast_zero]; linarith⟩
    rw [tanhByte, clampUnit_of_mem hnonneg (by linarith), roundHalfAway_eq_floor hge, hfloor]
    rfl

end

/-! ### The exact strategy outside (0, 5) -/

/-- The numbers from that of a positive pattern up. -/
theorem units_ge_iff {c x : Word} (hc : sign c = false) (hc0 : 0 < units c) :
    units c ≤ units x ↔ sign x = false ∧ c.toNat ≤ x.toNat := by
  cases hs : sign x
  · rw [units_of_pos hc, units_of_pos hs, Nat.cast_le, patternUnits_strictMono.le_iff_le]
    simp
  · have hneg : units x ≤ 0 := by
      rw [units, if_pos hs]
      omega
    simpa using hneg.trans_lt hc0

theorem eq_zero_of_nonpos {x : Word} (hs : sign x = false) (h : units x ≤ 0) : x = 0x00000000 := by
  rw [units_of_pos hs] at h
  have hzero : patternUnits x.toNat = patternUnits 0 := by
    rw [show patternUnits 0 = 0 by decide]
    omega
  exact BitVec.eq_of_toNat_eq (patternUnits_strictMono.injective hzero)

section

variable {f : Word → Word} (hf : ExpContract f) {x : Word} (hx : isNaN x = false)

include hf hx

/-- A negative number or a zero has an exponential of at most just above 1. -/
theorem qexactOf_of_nonpos (h : units x ≤ 0) : qexactOf f x = 0 := by
  have hle : (f (add32 x x)).toNat ≤ 0x3F800008 := by
    obtain ⟨hnan, hs, -⟩ := add32_self_bounds hx
    cases hsign : sign x
    · obtain ⟨-, -, -, hzero, -⟩ := hf
      rw [eq_zero_of_nonpos hsign h, show add32 0x00000000 0x00000000 = 0x00000000 by decide, hzero _ (.inl rfl)]
      decide
    · exact (exponential_of_sign hf hnan (hs.trans hsign)).1
  obtain ⟨hfin, hs⟩ := (lt_posInf_iff _).1 (hle.trans_lt (by norm_num))
  obtain ⟨-, -, habove, -⟩ := val32_references
  have hval : val32 (f (add32 x x)) ≤ 1 + 1 / 2 ^ 20 := habove ▸ (val32_le_iff hs (by decide)).2 hle
  obtain ⟨hquot, hsmall⟩ := tanhQuotient_near_zero hfin hs hval
  rw [qexactOf_eq f hx, saturatedTanh, tanhOf_eq, if_neg (by simp [isNaN_of_isFinite hquot])]
  exact tanhByte_near_zero hquot hsmall

/-- From 5 up the exponential is infinite, so that tanh is the NaN's 1, or at least 2^12. -/
theorem qexactOf_of_ge_five (h : units 0x40A00000 ≤ units x) : qexactOf f x = 255 := by
  obtain ⟨hs, hge⟩ := (units_ge_iff (by decide) (by decide +kernel)).1 h
  obtain ⟨hnan, hs', hdouble⟩ := add32_self_bounds hx
  rw [hs] at hs'
  have hy := hdouble 0x40A00000 (by norm_num) (by norm_num) ((magnitude_of_pos hs).symm ▸ hge)
  rw [magnitude_of_pos hs'] at hy
  rw [qexactOf_eq f hx, saturatedTanh, tanhOf_eq]
  rcases exponential_large hf hnan hs' hy with hinf | ⟨hfin, hlarge⟩
  · rw [hinf, tanhQuotient_posInf, if_pos (by decide)]
    exact tanhByte_near_one (by decide) (by rw [val32_one]; norm_num) val32_one.le
  · obtain ⟨hquot, hlo, hhi⟩ := tanhQuotient_near_one hfin hlarge
    rw [if_neg (by simp [isNaN_of_isFinite hquot])]
    exact tanhByte_near_one hquot hlo hhi

end

theorem qexactOf_of_isNaN (f : Word → Word) {x : Word} (h : isNaN x = true) : qexactOf f x = 0 := if_pos h

/-! ### The approximate strategy outside (0, 5) -/

section

variable {x y : Word}

/-- The approximate strategy sees no more of a number than the clamp to the domain leaves. -/
theorem qapprox_congr (hx : isNaN x = false) (hy : isNaN y = false) (h : clampDomain x = clampDomain y) :
    qapprox x = qapprox y := by
  simp only [qapprox, lutValue, lutIndex, lutPosition, hx, hy, h]

theorem qapprox_of_isNaN (h : isNaN x = true) : qapprox x = 0 := if_pos h

theorem qapprox_of_nonpos (hx : isNaN x = false) (h : units x ≤ 0) : qapprox x = 0 := by
  have hclamp : clampDomain x = clampDomain 0x00000000 := if_pos h
  rw [qapprox_congr hx (by decide) hclamp]
  decide +kernel

theorem qapprox_of_ge_five (hx : isNaN x = false) (h : units 0x40A00000 ≤ units x) : qapprox x = 255 := by
  have hpos : ¬units x ≤ 0 := not_le.2 (lt_of_lt_of_le (by decide +kernel) h)
  have hclamp : clampDomain x = clampDomain 0x40A00000 := by
    rw [clampDomain, if_neg hpos, if_pos h]
    decide +kernel
  rw [qapprox_congr hx (by decide) hclamp]
  decide +kernel

/-- Outside (0, 5) the two strategies give the same byte. -/
theorem bytesAgree_outside {f : Word → Word} (hf : ExpContract f)
    (h : isNaN x = true ∨ units x ≤ 0 ∨ units 0x40A00000 ≤ units x) : BytesAgree f x := by
  have heq : qexactOf f x = qapprox x := by
    cases hx : isNaN x
    · rcases h.resolve_left (by simp [hx]) with hle | hge
      · rw [qexactOf_of_nonpos hf hx hle, qapprox_of_nonpos hx hle]
      · rw [qexactOf_of_ge_five hf hx hge, qapprox_of_ge_five hx hge]
    · rw [qexactOf_of_isNaN f hx, qapprox_of_isNaN hx]
  rw [BytesAgree, heq, sub_self]
  decide

end

/-- Settles O21: outside (0, 5) both strategies give 0 or both give 255, whatever the admissible unit is. -/
theorem exactStrategySaturates : Obligations.ExactStrategySaturates := by
  obtain ⟨hexp, -⟩ := exponentialUnitKeepsItsRange
  refine ⟨fun x => ⟨qexactOf_of_isNaN expA, qexactOf_of_nonpos hexp, fun hx hs h => ?_, qexactOf_of_ge_five hexp⟩,
    fun f hf => ⟨fun x hx => ⟨qexactOf_of_nonpos hf hx, qexactOf_of_ge_five hf hx⟩, fun x => bytesAgree_outside hf, ?_⟩⟩
  · exact qexactOf_of_ge_five hexp hx
      ((units_ge_iff (by decide) (by decide +kernel)).2 ⟨hs, le_trans (by decide) h⟩)
  · refine ⟨fun h x _ _ _ => h x, fun h x => ?_⟩
    by_cases hout : isNaN x = true ∨ units x ≤ 0 ∨ units 0x40A00000 ≤ units x
    · exact bytesAgree_outside hf hout
    · simp only [not_or, not_le, Bool.not_eq_true] at hout
      obtain ⟨hx, hlo, hhi⟩ := hout
      exact h x hx hlo hhi

end Sys2Proof.Proofs
end

