-- ==== Sys2Proof/Proofs/Moves.lean ====
section
/-! SUPPORT. The moves (spec/42_swizzle_move.md R150 to R152): FMOV copies a register, FLIH and FLIL build a pattern from halves. -/

namespace Sys2Proof.Proofs

open Sys2Proof.Machine

/-! ### The halves of a pattern -/

/-- FLIH's shift puts the immediate above sixteen zeros (R151). -/
theorem highHalf_eq_append (imm : BitVec 16) : highHalf imm = imm ++ (0 : BitVec 16) := by
  ext i hi
  rw [highHalf, BitVec.getElem_shiftLeft, BitVec.getElem_append]
  by_cases hlow : i < 16
  · simp [hlow]
  · have hhigh : i - 16 < 16 := by omega
    simp [hlow, hhigh]

/-- Bit `i` of FLIL's mask is set in the upper half only. -/
theorem getElem_upperMask : ∀ i, (hi : i < 32) → (0xFFFF0000 : Word)[i] = decide (16 ≤ i) := by
  decide

/-- FLIL's mask and or put the immediate below the upper half that was there (R152). -/
theorem insertLow_eq_append (x : Word) (imm : BitVec 16) : insertLow x imm = x.extractLsb' 16 16 ++ imm := by
  ext i hi
  rw [insertLow, BitVec.getElem_or, BitVec.getElem_and, getElem_upperMask, BitVec.getElem_append]
  by_cases hlow : i < 16
  · simp [hlow]
  · have hhigh : 16 ≤ i := not_lt.1 hlow
    simp [hlow, hhigh, BitVec.getLsbD_eq_getElem hi]

/-! ### FMOV, FLIH, FLIL -/

/-- Settles O25: FMOV's write is the whole of `ra`; the two constants are written lane by lane. -/
theorem movesAndConstantsWriteTheirPattern : Obligations.MovesAndConstantsWriteTheirPattern := by
  intro s rd ra imm hturn
  have hturn' : (setReg s rd (reg s ra)).turn < (setReg s rd (reg s ra)).workers.length := by simpa using hturn
  have hcopy : reg (advance (setReg s rd (reg s ra))) rd = reg s ra := by
    rw [reg_advance _ rd hturn', reg_setReg_self s rd _ hturn]
  refine ⟨⟨_, rfl, setReg_advance_writes s rd (reg s ra) hturn, hcopy⟩, ⟨_, rfl, ?_⟩, ⟨_, rfl, ?_⟩⟩
  · simp only [← highHalf_eq_append]
    exact perLane_advance_writes s rd _ hturn
  · simp only [← insertLow_eq_append]
    exact perLane_advance_writes s rd _ hturn

end Sys2Proof.Proofs
end

