-- ==== Sys2Proof/Proofs/Sequencing.lean ====
section
/-! SUPPORT. The advance and the sequencing instructions (spec/43_sequencing.md R171 to R175), the claim of a row
(spec/45_row_dispatch.md R236), and the faults of fetch and decode (spec/60_exceptions.md R301). -/

namespace Sys2Proof.Proofs

open Sys2Proof.Machine

/-! ### The executing worker -/

variable {s : State}

theorem onlyMe_setMe (s : State) (u : Worker) : OnlyMe s (s.setMe u) :=
  ⟨rfl, length_setWorker s _ u, fun _ hw => worker_setWorker_of_ne s u hw⟩

/-- The advance outside the last word of a loop's body (spec/43_sequencing.md R171). -/
theorem advance_next {u : Worker} (h : ¬(u.lactive = true ∧ u.pc = u.lend)) : u.advance = { u with pc := u.pc + 1 } :=
  if_neg h

/-- The advance at the last word of the body in a run that is not the last: the loop-back. -/
theorem advance_loopBack {u : Worker} (h : u.lactive = true ∧ u.pc = u.lend) (hmore : u.liter < u.lcount) :
    u.advance = { u with liter := u.liter + 1, pc := u.lstart } :=
  (if_pos h).trans (if_pos hmore)

/-- The advance at the last word of the body in the last run: the loop's end. -/
theorem advance_loopEnd {u : Worker} (h : u.lactive = true ∧ u.pc = u.lend) (hlast : ¬u.liter < u.lcount) :
    u.advance = { u with lactive := false, liter := 0, pc := u.pc + 1 } :=
  (if_pos h).trans (if_neg hlast)

/-! ### NOP and RDS -/

/-- Settles O30. -/
theorem nopOnlyAdvances : Obligations.NopOnlyAdvances := by
  intro s hturn
  refine ⟨advance s, rfl, onlyMe_setMe s _, fun _ => rfl, ?_, by simp, fun r _ => reg_advance s r hturn⟩
  rw [me_advance s hturn]
  exact s.me.advance_spec

/-- Settles O35: each selector's special value is written lane by lane. -/
theorem specialValuesAreRead : Obligations.SpecialValuesAreRead := by
  intro s rd hturn
  have hwrites : ∀ sel, Completes (.rds rd sel) s fun t => WritesRegs s t [(rd, special s sel)] :=
    fun sel => ⟨_, rfl, perLane_advance_writes s rd _ hturn⟩
  exact ⟨hwrites .laneX, fun _ => hwrites .rowY, hwrites .time, hwrites .widthF, hwrites .heightF, hwrites .iter⟩

/-! ### LOOP -/

/-- The record LOOP writes, on the worker at the LOOP (spec/43_sequencing.md R173). -/
def loopRecord (u : Worker) (count len : BitVec 8) : Worker :=
  { u with lactive := true, lstart := u.pc + 1, lend := u.pc + len.toNat, lcount := count, liter := 1 }

/-- LOOP with its checks passed stands at the first word of the body, in run 1. -/
theorem advance_loopRecord (u : Worker) (count : BitVec 8) {len : BitVec 8} (hlen : 1 ≤ len.toNat) :
    (loopRecord u count len).advance = { loopRecord u count len with pc := u.pc + 1 } :=
  advance_next fun ⟨_, hend⟩ => by
    simp only [loopRecord] at hend
    omega

theorem me_advance_setLoop {s : State} (h : s.turn < s.workers.length) (count len : BitVec 8) :
    (advance (setLoop s count len)).me = (loopRecord s.me count len).advance := by
  rw [setLoop, advance_setMe s _ h, me_setMe s _ h]
  rfl

theorem loopOutOfBounds_iff (s : State) (count len : BitVec 8) :
    loopOutOfBounds s count len = true ↔ count = 0 ∨ len = 0 ∨ s.params.progDepth ≤ s.me.pc + len.toNat := by
  simp only [loopOutOfBounds, Bool.or_eq_true, beq_iff_eq, decide_eq_true_eq, or_assoc]

theorem not_loopOutOfBounds {count len : BitVec 8} (hcount : count ≠ 0) (hlen : len ≠ 0)
    (hbound : s.me.pc + len.toNat < s.params.progDepth) : ¬loopOutOfBounds s count len = true := by
  rw [loopOutOfBounds_iff]
  simp only [hcount, hlen, false_or, not_le, hbound]

section

variable (count len : BitVec 8)

theorem exec_loop_of_active (h : s.me.lactive = true) : exec (.loop count len) s = .next (raiseFault .loopNest s) :=
  if_pos h

theorem exec_loop_of_outOfBounds (h : s.me.lactive = false) (hb : loopOutOfBounds s count len = true) :
    exec (.loop count len) s = .next (raiseFault .loopBounds s) :=
  (if_neg (by simp [h])).trans (if_pos hb)

theorem exec_loop_of_inBounds (h : s.me.lactive = false) (hb : ¬loopOutOfBounds s count len = true) :
    exec (.loop count len) s = .next (advance (setLoop s count len)) :=
  (if_neg (by simp [h])).trans (if_neg hb)

end

/-- Settles O31: the three outcomes of LOOP's checks. -/
theorem loopStartsItsBodyOrFaults : Obligations.LoopStartsItsBodyOrFaults := by
  intro s count len hturn
  refine ⟨fun hout hcount hlen hbound => ?_, fun hact => ?_, fun hout hbad => ?_⟩
  · have hb := not_loopOutOfBounds hcount hlen hbound
    have hpos : 1 ≤ len.toNat := Nat.pos_of_ne_zero fun e => hlen (BitVec.eq_of_toNat_eq e)
    refine ⟨_, exec_loop_of_inBounds count len hout hb, ?_, fun _ => rfl, ?_⟩
    · rw [setLoop, advance_setMe s _ hturn]
      exact onlyMe_setMe s _
    · rw [me_advance_setLoop hturn, advance_loopRecord s.me count hpos]
      rfl
  · exact ⟨_, exec_loop_of_active count len hact, raiseFault_records s .loopNest (by decide)⟩
  · exact ⟨_, exec_loop_of_outOfBounds count len hout ((loopOutOfBounds_iff s count len).2 hbad),
      raiseFault_records s .loopBounds (by decide)⟩

/-! ### END -/

/-- Settles O33. -/
theorem endStartsTheNextLaneGroup : Obligations.EndStartsTheNextLaneGroup := by
  intro s hturn hg
  have hend : endInvocation s = startInvocation s s.turn (groupIndex s + 1) s.me.row := if_pos hg
  refine ⟨_, congrArg Host.Outcome.next hend, onlyMe_setMe s _, fun _ => rfl, ?_⟩
  exact me_setMe s _ hturn

/-- DONE_ROWS with a row added holds every row of the frame when it is the list of them. -/
theorem insertRow_eq_allRows_iff (hrising : s.doneRows.Pairwise (· < ·)) (r : ℕ) :
    insertRow r s.doneRows = allRows s ↔ ∀ q, q ∈ insertRow r s.doneRows ↔ q < s.frame.h.toNat := by
  refine ⟨fun h q => by rw [h, mem_allRows], fun h => ?_⟩
  exact rising_ext (insertRow_rising hrising r) (allRows_rising s) fun q => by rw [h, mem_allRows]

/-- Settles O34. -/
theorem endOfTheLastGroupCompletesTheRow : Obligations.EndOfTheLastGroupCompletesTheRow := by
  intro s hturn hg hrising
  have hend : endInvocation s = completeRow s s.turn s.me.row := if_neg (not_lt.2 hg)
  refine ⟨_, congrArg Host.Outcome.next hend, ?_⟩
  have hmem : ∀ q, q ∈ (completeRow s s.turn s.me.row).doneRows ↔ q ∈ s.doneRows ∨ q = s.me.row := fun q => by
    rw [completeRow_eq]
    exact (mem_insertRow _ _ _).trans or_comm
  refine ⟨?_, ?_, ?_, fun w hw => ?_, ?_, hmem, ?_⟩
  · rw [completeRow_eq]
  · rw [completeRow_eq]
    exact fun _ => rfl
  · rw [completeRow_eq]
    exact List.length_set
  · rw [worker_completeRow, if_neg fun h => hw h.1]
  · have hturn' : (completeRow s s.turn s.me.row).turn = s.turn := by rw [completeRow_eq]
    rw [State.me, hturn', worker_completeRow, if_pos ⟨rfl, hturn⟩]
    rfl
  · rw [completeRow_eq]
    simp only [← insertRow_eq_allRows_iff hrising]
    exact ⟨fun h => by simp only [h, if_true, and_self], fun h => by simp only [h, if_false, and_self]⟩

/-! ### Claims -/

/-- Giving a claimed row's invocation to a worker changes the workers and UNCLAIMED only. -/
theorem startInvocation_takeRow_eq (s : State) (w g r : ℕ) :
    startInvocation (takeRow s w r) w g r =
      { s with workers := (startInvocation (takeRow s w r) w g r).workers, unclaimed := removeRow r s.unclaimed } := by
  simp only [startInvocation, takeRow, State.setWorker]

/-- Settles O40. -/
theorem claimStartsTheRowsFirstGroup : Obligations.ClaimStartsTheRowsFirstGroup := by
  intro s w r rest hag hrun hmem hw hidle hg
  have hen : claimEnabled { s with agenda := rest } w r = true := (claimEnabled_iff _ w r).2 ⟨hrun, hmem, hw, hidle⟩
  have hstep : step s = .next (startInvocation (takeRow { s with agenda := rest } w r) w 0 r) := by
    rw [step_of_agenda hag, perform, if_pos hen, claimRow, if_neg hg]
  have hlength : (startInvocation (takeRow { s with agenda := rest } w r) w 0 r).workers.length = s.workers.length := by
    simp [startInvocation, takeRow]
  refine ⟨_, hstep, fun _ => ?_, hlength, ?_, ?_, fun q => ?_, fun v hv => ?_, ?_⟩
  · exact fbByte_congr (startInvocation_fb _ w 0 r) _
  · rw [startInvocation_takeRow_eq]
  · exact startInvocation_agenda _ w 0 r
  · exact mem_removeRow r q s.unclaimed
  · rw [worker_startInvocation, if_neg fun h => hv h.1, worker_takeRow, if_neg fun h => hv h.1]
    rfl
  · rw [worker_startInvocation, if_pos ⟨rfl, by simpa [takeRow] using hw⟩, worker_takeRow, if_pos ⟨rfl, hw⟩]
    simp only [Nat.zero_mul]
    rfl

/-! ### Faults of fetch and decode -/

/-- PC_OVERFLOW is the fetch's fault and no decoder's. -/
theorem decode_ne_pcOverflow {w : Word} {c : FaultCode} (h : decode w = .error c) : c ≠ .pcOverflow := by
  rintro rfl
  rcases decode_cases w with ⟨-, hdec⟩ | ⟨op, -, ⟨-, hdec⟩ | ⟨-, hdec | ⟨i, -, hdec⟩⟩⟩
  · cases hdec.symm.trans h
  · cases hdec.symm.trans h
  · cases hdec.symm.trans h
  · cases (checkGroups_eq_error_iff.1 (hdec.symm.trans h)).1

/-- Recording PC_OVERFLOW does what R302 says, with no word. -/
theorem raiseFault_pcOverflow_records (s : State) : RecordsFault s (raiseFault .pcOverflow s) .pcOverflow 0 :=
  ⟨⟨rfl, rfl, rfl, rfl, rfl⟩, ⟨rfl, rfl, length_idleAll _, fun _ hw => worker_raiseFault s _ hw⟩, fun _ => rfl, rfl⟩

theorem fetchExecute_of_overflow (h : s.params.progDepth ≤ s.me.pc) :
    fetchExecute s = .next (raiseFault .pcOverflow s) :=
  if_pos h

theorem fetchExecute_of_decode_error {c : FaultCode} (hpc : s.me.pc < s.params.progDepth)
    (hd : decode (fetchWord s) = .error c) : fetchExecute s = .next (raiseFault c s) := by
  rw [fetchExecute, if_neg (not_le.2 hpc), hd]

/-- Settles O38. -/
theorem stepRecordsFetchAndDecodeFaults : Obligations.StepRecordsFetchAndDecodeFaults := by
  intro s w rest hag hrun hw hact
  have hen : workEnabled { s with agenda := rest } w = true := (workEnabled_iff _ w).2 ⟨hrun, hw, hact⟩
  have hstep : step s = fetchExecute { s with agenda := rest, turn := w } := by
    rw [step_of_agenda hag, perform_work_of_enabled hen]
  refine ⟨fun hpc => ?_, fun c hpc hd => ?_⟩
  · exact ⟨_, hstep.trans (fetchExecute_of_overflow (s := { s with agenda := rest, turn := w }) hpc.ge),
      raiseFault_pcOverflow_records _⟩
  · exact ⟨_, hstep.trans (fetchExecute_of_decode_error (s := { s with agenda := rest, turn := w }) hpc hd),
      raiseFault_records _ c (decode_ne_pcOverflow hd)⟩

end Sys2Proof.Proofs
end

