-- ==== Sys2Proof/Proofs/InvocationRuns.lean ====
section
/-! SUPPORT. Runs of one invocation (spec/43_sequencing.md R171 to R176): what the executing worker becomes in one
step that goes on, where a loop's run stands after `n` steps, and a bound on the steps that are left. -/

namespace Sys2Proof.Proofs

open Sys2Proof.Machine

/-! ### One step -/

/-- What the executing worker becomes in a step that goes on: its registers are written, or a loop is started, and then the
advance. -/
inductive WorkerMove (depth : ℕ) (u : Worker) : Worker → Prop where
  | written (v : Vector Lanes 32) : WorkerMove depth u { u with v := v }.advance
  | looped (count len : BitVec 8) (hout : u.lactive = false) (hcount : 1 ≤ count) (hlen : 1 ≤ len.toNat)
      (hbound : u.pc + len.toNat < depth) : WorkerMove depth u (loopRecord u count len).advance

/-- A step that goes on keeps the parameters and the turn, and moves the executing worker. -/
theorem continues_move {s t : State} (hturn : s.turn < s.workers.length) (h : Continues s t) :
    s.me.pc < s.params.progDepth ∧ t.params = s.params ∧ t.turn < t.workers.length ∧
      WorkerMove s.params.progDepth s.me t.me := by
  obtain ⟨-, hpc, i, -, hi, he, hrun⟩ := h
  cases exec_cases hturn he with
  | fault c _ ht => exact absurd (ht ▸ hrun) (by simp)
  | ended hend _ => exact absurd hend hi
  | looped count len _ hout hb ht =>
    obtain ⟨hcount, hlen, hbound⟩ := loopOutOfBounds_eq_false hb
    subst ht
    refine ⟨hpc, rfl, by simpa [setLoop] using hturn, ?_⟩
    rw [me_advance_setLoop hturn]
    exact .looped count len hout hcount hlen hbound
  | written v _ _ ht =>
    subst ht
    refine ⟨hpc, rfl, by simpa using hturn, ?_⟩
    rw [me_setMe s _ hturn]
    exact .written v
  | stored ra ch _ _ ht =>
    rw [advance_fbPutAll] at ht
    subst ht
    exact ⟨hpc, rfl, by simpa using hturn, (me_advance s hturn).symm ▸ .written s.me.v⟩

/-! ### The runs of a loop -/

/-- The worker stands in the loop of `count` runs over the `len` words behind `start`, `n` steps after its first word. -/
structure AtLoopStep (start : ℕ) (count len : BitVec 8) (n : ℕ) (u : Worker) : Prop where
  lactive : u.lactive = true
  lstart : u.lstart = start + 1
  lend : u.lend = start + len.toNat
  lcount : u.lcount = count
  liter : u.liter.toNat = n / len.toNat + 1
  pc : u.pc = start + 1 + n % len.toNat

/-- The worker has left the loop for the word behind its body. -/
structure BehindLoop (start : ℕ) (len : BitVec 8) (u : Worker) : Prop where
  lactive : u.lactive = false
  liter : u.liter = 0
  pc : u.pc = start + len.toNat + 1

variable {start n : ℕ} {count len : BitVec 8} {u : Worker}

theorem atLoopStep_loopRecord (hlen : 1 ≤ len.toNat) (u : Worker) :
    AtLoopStep u.pc count len 0 (loopRecord u count len).advance := by
  rw [advance_loopRecord u count hlen]
  exact ⟨rfl, rfl, rfl, rfl, by simp [loopRecord], by simp⟩

/-- Before the last word of the body the next step is in the same run. -/
theorem succ_div_mod_of_inside {n l : ℕ} (hin : n % l + 1 < l) : (n + 1) / l = n / l ∧ (n + 1) % l = n % l + 1 :=
  (Nat.div_mod_unique (by omega)).2 ⟨by have := Nat.mod_add_div n l; omega, hin⟩

/-- At the last word of the body the next step is the first of the next run. -/
theorem succ_div_mod_of_last {n l : ℕ} (hlast : n % l + 1 = l) :
    (n + 1) / l = n / l + 1 ∧ (n + 1) % l = 0 ∧ n + 1 = (n / l + 1) * l := by
  have hsplit : n + 1 = (n / l + 1) * l := by
    have := Nat.div_add_mod' n l
    rw [Nat.succ_mul]
    omega
  rw [hsplit, Nat.mul_div_cancel _ (by omega)]
  exact ⟨rfl, Nat.mul_mod_left _ _, rfl⟩

/-- The advance inside the body goes on to its next word. -/
theorem AtLoopStep.advance_inside (h : AtLoopStep start count len n u) (hin : n % len.toNat + 1 < len.toNat) :
    AtLoopStep start count len (n + 1) u.advance := by
  obtain ⟨hact, hstart, hend, hcount, hiter, hpc⟩ := h
  obtain ⟨hdiv, hmod⟩ := succ_div_mod_of_inside hin
  rw [advance_next (by omega)]
  exact ⟨hact, hstart, hend, hcount, by rw [hdiv, hiter], by rw [hmod, hpc]; rfl⟩

/-- The advance at the last word of the body starts the next run or leaves the loop. -/
theorem AtLoopStep.advance_last (h : AtLoopStep start count len n u) (hlast : n % len.toNat + 1 = len.toNat) :
    (n + 1 < count.toNat * len.toNat → AtLoopStep start count len (n + 1) u.advance) ∧
      (n + 1 = count.toNat * len.toNat → BehindLoop start len u.advance) := by
  obtain ⟨hact, hstart, hend, hcount, hiter, hpc⟩ := h
  obtain ⟨hdiv, hmod, hsplit⟩ := succ_div_mod_of_last hlast
  have hbody : u.lactive = true ∧ u.pc = u.lend := ⟨hact, by omega⟩
  have hmore : u.liter < u.lcount ↔ n + 1 < count.toNat * len.toNat := by
    rw [BitVec.lt_def, hiter, hcount, hsplit, Nat.mul_lt_mul_right (by omega)]
  refine ⟨fun hlt => ?_, fun hlt => ?_⟩
  · have hnext : (u.liter + 1).toNat = u.liter.toNat + 1 := by
      have := hmore.2 hlt
      bv_omega
    rw [advance_loopBack hbody (hmore.2 hlt)]
    exact ⟨hact, hstart, hend, hcount, by rw [hnext, hiter, hdiv], by rw [hmod, hstart]⟩
  · rw [advance_loopEnd hbody (by rw [hmore]; omega)]
    exact ⟨rfl, rfl, by rw [hbody.2, hend]⟩

/-- The advance in the loop goes on in it until `count * len` steps are made, and then leaves it. -/
theorem AtLoopStep.advance (h : AtLoopStep start count len n u) (hlen : 1 ≤ len.toNat) (hn : n < count.toNat * len.toNat) :
    (n + 1 < count.toNat * len.toNat ∧ AtLoopStep start count len (n + 1) u.advance) ∨
      (n + 1 = count.toNat * len.toNat ∧ BehindLoop start len u.advance) := by
  have hmod := Nat.mod_lt n hlen
  by_cases hin : n % len.toNat + 1 < len.toNat
  · refine .inl ⟨lt_of_le_of_ne hn fun e => ?_, h.advance_inside hin⟩
    obtain ⟨-, hmod'⟩ := succ_div_mod_of_inside hin
    rw [show n + 1 = count.toNat * len.toNat from e, Nat.mul_mod_left] at hmod'
    omega
  · obtain ⟨hback, hleave⟩ := h.advance_last (by omega)
    rcases Nat.lt_or_eq_of_le hn with hlt | heq
    · exact .inl ⟨hlt, hback hlt⟩
    · exact .inr ⟨heq, hleave heq⟩

theorem AtLoopStep.setV (h : AtLoopStep start count len n u) (v : Vector Lanes 32) :
    AtLoopStep start count len n { u with v := v } :=
  ⟨h.lactive, h.lstart, h.lend, h.lcount, h.liter, h.pc⟩

/-- A loop that stands at step `n` runs on to its end. -/
theorem loop_runsTo (hlen : 1 ≤ len.toNat) {k : ℕ} {s t : State} (hturn : s.turn < s.workers.length)
    (hn : n < count.toNat * len.toNat) (h : AtLoopStep start count len n s.me) (hrun : RunsTo k s t) :
    (n + k < count.toNat * len.toNat → AtLoopStep start count len (n + k) t.me) ∧
      (n + k = count.toNat * len.toNat → BehindLoop start len t.me) := by
  induction k generalizing s n with
  | zero =>
    obtain rfl : t = s := hrun
    exact ⟨fun _ => h, fun e => absurd hn (by omega)⟩
  | succ k ih =>
    obtain ⟨m, hstep, hrest⟩ := hrun
    obtain ⟨-, -, hturn', hmove⟩ := continues_move hturn hstep
    have hnext : (n + 1 < count.toNat * len.toNat ∧ AtLoopStep start count len (n + 1) m.me) ∨
        (n + 1 = count.toNat * len.toNat ∧ BehindLoop start len m.me) := by
      generalize hu : m.me = u' at hmove ⊢
      cases hmove with
      | written v => exact (h.setV v).advance hlen hn
      | looped _ _ hout => exact absurd (h.lactive.symm.trans hout) (by decide)
    rw [show n + (k + 1) = n + 1 + k by omega]
    rcases hnext with ⟨hlt, hat⟩ | ⟨hend, hbehind⟩
    · exact ih hturn' hlt hat hrest
    · refine ⟨fun hlt => absurd hlt (by omega), fun e => ?_⟩
      obtain rfl : k = 0 := by omega
      obtain rfl : t = m := hrest
      exact hbehind

/-- Settles O32: LOOP leads to step 0 of the loop, from which the run goes on. -/
theorem loopRunsItsBodyCountTimes : Obligations.LoopRunsItsBodyCountTimes := by
  intro s u t count len n hturn hout hcount hlen hbound he hrun
  have hc : 0 < count.toNat := Nat.pos_of_ne_zero fun e => hcount (BitVec.eq_of_toNat_eq e)
  have hl : 0 < len.toNat := Nat.pos_of_ne_zero fun e => hlen (BitVec.eq_of_toNat_eq e)
  have hnext := exec_loop_of_inBounds count len hout (not_loopOutOfBounds hcount hlen hbound)
  obtain rfl : u = advance (setLoop s count len) := by
    rw [hnext] at he
    injection he with he
    exact he.symm
  have hstart : AtLoopStep s.me.pc count len 0 (advance (setLoop s count len)).me := by
    rw [me_advance_setLoop hturn]
    exact atLoopStep_loopRecord hl s.me
  have hruns := loop_runsTo hl (by simpa [setLoop] using hturn) (Nat.mul_pos hc hl) hstart hrun
  rw [Nat.zero_add] at hruns
  obtain ⟨hin, hend⟩ := hruns
  exact ⟨fun hn => ⟨(hin hn).lactive, (hin hn).liter, (hin hn).pc⟩,
    fun hn => ⟨(hend hn).lactive, (hend hn).liter, (hend hn).pc⟩⟩

/-! ### The end of an invocation -/

/-- A bound on the steps left to a worker: each word outside a loop can be a LOOP that runs the words behind it 255
times, and in a loop the runs left and the rest of this run are counted. -/
def stepsLeft (depth : ℕ) (u : Worker) : ℕ :=
  if u.lactive = true then
    (u.lcount.toNat - u.liter.toNat) * (u.lend + 1 - u.lstart) + (u.lend + 1 - u.pc) + 255 * (depth - (u.lend + 1))
  else 255 * (depth - u.pc) - 254

variable {depth : ℕ}

theorem stepsLeft_of_active (h : u.lactive = true) :
    stepsLeft depth u =
      (u.lcount.toNat - u.liter.toNat) * (u.lend + 1 - u.lstart) + (u.lend + 1 - u.pc) + 255 * (depth - (u.lend + 1)) :=
  if_pos h

theorem stepsLeft_of_not_active (h : u.lactive = false) : stepsLeft depth u = 255 * (depth - u.pc) - 254 :=
  if_neg (by simp [h])

theorem stepsLeft_lt (h : u.LoopOk depth) (hdepth : 0 < depth) : stepsLeft depth u < 255 * depth := by
  obtain ⟨-, hin, -⟩ := h
  cases hact : u.lactive with
  | false =>
    rw [stepsLeft_of_not_active hact]
    omega
  | true =>
    obtain ⟨h1, h2, h3, h4, h5, -⟩ := hin hact
    have hiter : 1 ≤ u.liter.toNat := by bv_omega
    have hcount := u.lcount.isLt
    have hruns : (u.lcount.toNat - u.liter.toNat) * (u.lend + 1 - u.lstart) ≤ 254 * (u.lend + 1 - u.lstart) :=
      Nat.mul_le_mul_right _ (by omega)
    rw [stepsLeft_of_active hact]
    omega

/-- The advance uses up at least one of the steps left. -/
theorem stepsLeft_advance_lt (h : u.LoopOk depth) (hpc : u.pc < depth) : stepsLeft depth u.advance < stepsLeft depth u := by
  obtain ⟨-, hin, -⟩ := h
  by_cases hbody : u.lactive = true ∧ u.pc = u.lend
  · obtain ⟨hact, hend⟩ := id hbody
    obtain ⟨h1, h2, h3, h4, h5, h6⟩ := hin hact
    rw [stepsLeft_of_active hact]
    by_cases hmore : u.liter < u.lcount
    · have hnext : (u.liter + 1).toNat = u.liter.toNat + 1 := by bv_omega
      have hruns : (u.lcount.toNat - u.liter.toNat) * (u.lend + 1 - u.lstart) =
          (u.lcount.toNat - (u.liter.toNat + 1)) * (u.lend + 1 - u.lstart) + (u.lend + 1 - u.lstart) := by
        rw [← Nat.succ_mul]
        congr 1
        bv_omega
      rw [advance_loopBack hbody hmore, stepsLeft, if_pos hact, hnext, hruns]
      simp only
      omega
    · rw [advance_loopEnd hbody hmore, stepsLeft_of_not_active rfl]
      simp only
      omega
  · rw [advance_next hbody]
    cases hact : u.lactive with
    | false =>
      rw [stepsLeft_of_not_active hact, stepsLeft_of_not_active rfl]
      simp only
      omega
    | true =>
      obtain ⟨h1, h2, h3, h4, h5, h6⟩ := hin hact
      have hne : u.pc ≠ u.lend := fun e => hbody ⟨hact, e⟩
      rw [stepsLeft_of_active hact, stepsLeft_of_active rfl]
      simp only
      omega

/-- Starting a loop uses up at least one of the steps left: its at most 255 runs were counted for the words of its body. -/
theorem stepsLeft_loopRecord_lt (hout : u.lactive = false) (hlen : 1 ≤ len.toNat) (hbound : u.pc + len.toNat < depth) :
    stepsLeft depth (loopRecord u count len).advance < stepsLeft depth u := by
  have hmax := count.isLt
  have hruns : (count.toNat - 1) * (u.pc + len.toNat + 1 - (u.pc + 1)) ≤ 254 * (u.pc + len.toNat + 1 - (u.pc + 1)) :=
    Nat.mul_le_mul_right _ (by omega)
  rw [advance_loopRecord u count hlen, stepsLeft_of_active rfl, stepsLeft_of_not_active hout]
  simp only [loopRecord, show BitVec.toNat (1 : BitVec 8) = 1 by decide]
  omega

/-- A step that goes on keeps pc and loop record in place and uses up a step. -/
theorem WorkerMove.loopOk_and_stepsLeft_lt {u' : Worker} (h : WorkerMove depth u u') (hok : u.LoopOk depth)
    (hpc : u.pc < depth) : u'.LoopOk depth ∧ stepsLeft depth u' < stepsLeft depth u := by
  cases h with
  | written v =>
    have hok' : Worker.LoopOk depth { u with v := v } := hok
    exact ⟨advance_loopOk hok' hpc, stepsLeft_advance_lt hok' hpc⟩
  | looped count len hout hcount hlen hbound =>
    refine ⟨?_, stepsLeft_loopRecord_lt hout hlen hbound⟩
    rw [advance_loopRecord u count hlen]
    exact ⟨by simp only; omega, fun _ => ⟨by simp only [loopRecord]; omega, le_rfl, by simp only [loopRecord]; omega, hbound,
      by simp [loopRecord], hcount⟩, fun hact => nomatch hact⟩

/-- A run takes no more steps than are left at its start. -/
theorem runsTo_le_stepsLeft {k : ℕ} {s t : State} (hturn : s.turn < s.workers.length) (hok : s.me.LoopOk s.params.progDepth)
    (h : RunsTo k s t) : k ≤ stepsLeft s.params.progDepth s.me := by
  induction k generalizing s with
  | zero => exact Nat.zero_le _
  | succ k ih =>
    obtain ⟨m, hstep, hrest⟩ := h
    obtain ⟨hpc, hparams, hturn', hmove⟩ := continues_move hturn hstep
    obtain ⟨hok', hlt⟩ := hmove.loopOk_and_stepsLeft_lt hok hpc
    rw [← hparams] at hok' hlt
    exact (ih hturn' hok' hrest).trans_lt (hparams ▸ hlt)

/-- Settles O57. -/
theorem invocationsEnd : Obligations.InvocationsEnd := by
  intro s t hlegal hok hturn hrun
  obtain ⟨-, -, ⟨hdepth, -⟩, -⟩ := hlegal
  have hme := worker_loopOk hok hturn
  exact absurd (runsTo_le_stepsLeft hturn hme hrun) (not_le.2 (stepsLeft_lt hme (by omega)))

end Sys2Proof.Proofs
end

