-- ==== Sys2Proof/Proofs/WorkerEffects.lean ====
section
/-! SUPPORT. What a worker's step reads (spec/43_sequencing.md R177). A step has one of two effects: it records a
fault, or it gives the worker a new content, writes bytes and perhaps completes the worker's row. The effect depends
on the parameters, PROG, the frame registers and the worker; the rest of the state is only what the effect is applied
to. -/

namespace Sys2Proof.Proofs

open Sys2Proof.Machine

/-! ### Effects -/

/-- A row, if one is given, is added to DONE_ROWS, and with the last row the frame completes
(spec/45_row_dispatch.md R240). -/
def closeRow : Option ℕ → State → State
  | none, s => s
  | some r, s =>
    { s with
      doneRows := insertRow r s.doneRows
      fstate := if insertRow r s.doneRows = allRows s then .idle else s.fstate
      done := if insertRow r s.doneRows = allRows s then true else s.done
      frames := if insertRow r s.doneRows = allRows s then s.frames + 1 else s.frames }

/-- Several byte writes to a framebuffer space, in order. -/
def putAll (m : Memory) (ws : List (ℕ × Byte)) : Memory := ws.foldl (fun m p => Store.put m p.1 p.2) m

theorem fbPutAll_fb (s : State) (ws : List (ℕ × Byte)) : (fbPutAll s ws).fb = putAll s.fb ws := by
  induction ws generalizing s with
  | nil => rfl
  | cons p ws ih => exact ih (fbPut s p.1 p.2)

/-- The state with other workers, other bytes and another turn. -/
def withWork (s : State) (us : List Worker) (fb : Memory) (turn : ℕ) : State :=
  { s with workers := us, fb := fb, turn := turn }

/-- What a worker's step does to the block. -/
inductive Effect where
  /-- A kernel fault is recorded. -/
  | faults (c : FaultCode)
  /-- The worker becomes `u`, bytes are written, and a row is completed if one is given. -/
  | runs (u : Worker) (ws : List (ℕ × Byte)) (row : Option ℕ)

def Effect.apply : Effect → State → State
  | .faults c, s => raiseFault c s
  | .runs u ws row, s => closeRow row (withWork s (s.workers.set s.turn u) (putAll s.fb ws) s.turn)

/-- The bytes written are lanes of the executing worker's lane group, and the row completed is its row. -/
def Effect.OwnedBy (s : State) : Effect → Prop
  | .faults _ => True
  | .runs _ ws row =>
    (∀ p ∈ ws, ∃ ch, ∃ j < s.params.laneWidth, p.1 = stqAddr s ch j) ∧ ∀ r, row = some r → r = s.me.row

/-- Two steps, from `s` and from `s'`, that have the same effect, or that stop for the same reason. -/
inductive SameEffect (s s' : State) (o o' : Host.Outcome State Fault Refusal) : Prop where
  | effect (e : Effect) (hown : e.OwnedBy s) (ho : o = .next (e.apply s)) (ho' : o' = .next (e.apply s'))
  | stops (r : Fault) (ho : o = .fault r) (ho' : o' = .fault r)

section

variable {s s' : State} {c : Prop} [Decidable c] {a b a' b' : Host.Outcome State Fault Refusal}

theorem SameEffect.ite (hpos : c → SameEffect s s' a a') (hneg : ¬c → SameEffect s s' b b') :
    SameEffect s s' (if c then a else b) (if c then a' else b') := by
  by_cases h : c
  · rw [if_pos h, if_pos h]
    exact hpos h
  · rw [if_neg h, if_neg h]
    exact hneg h

theorem sameEffect_fault (c : FaultCode) : SameEffect s s' (.next (raiseFault c s)) (.next (raiseFault c s')) :=
  .effect (.faults c) trivial rfl rfl

theorem sameEffect_setMe (u : Worker) : SameEffect s s' (.next (s.setMe u)) (.next (s'.setMe u)) :=
  .effect (.runs u [] none) ⟨by simp, by simp⟩ rfl rfl

end

/-- The vector registers after register writes, in order. -/
def writeVectors (v : Vector Lanes 32) (ws : List (VReg × Lanes)) : Vector Lanes 32 :=
  ws.foldl (fun (v : Vector Lanes 32) (p : VReg × Lanes) => v.set p.1 p.2) v

/-- Register writes followed by the advance replace the executing worker. -/
theorem advance_setRegs {s : State} (h : s.turn < s.workers.length) (ws : List (VReg × Lanes)) :
    advance (setRegs s ws) = s.setMe { s.me with v := writeVectors s.me.v ws }.advance := by
  have hset : ∀ u, setRegs (s.setMe u) ws = s.setMe { u with v := writeVectors u.v ws } := by
    induction ws with
    | nil => exact fun u => rfl
    | cons p ws ih => exact fun u => by rw [setRegs_cons, setReg_setMe s u _ _ h, ih]; rfl
  conv_lhs => rw [← setMe_me s h, hset, advance_setMe s _ h]

/-! ### What the operands read -/

/-- The two states agree on what the executing worker's step reads. -/
structure SameInputs (s s' : State) : Prop where
  params : s.params = s'.params
  prog : s.prog = s'.prog
  frame : s.frame = s'.frame
  me : s.me = s'.me
  lt : s.turn < s.workers.length
  lt' : s'.turn < s'.workers.length

namespace SameInputs

variable {s s' : State} (h : SameInputs s s')

include h

theorem reg : Machine.reg s = Machine.reg s' := by
  funext r
  simp only [Machine.reg, h.me]

theorem regLane : Machine.regLane s = Machine.regLane s' := by
  funext r j
  simp only [Machine.regLane, h.reg]

theorem perLane : Machine.perLane s = Machine.perLane s' := by
  funext f
  simp only [Machine.perLane, h.params]

theorem dotTerm : Machine.dotTerm s = Machine.dotTerm s' := by
  funext ra rb k j
  simp only [Machine.dotTerm, h.regLane]

theorem special (sel : Sel) : Machine.special s sel = Machine.special s' sel := by
  funext j
  simp only [Machine.special, h.me, h.frame]

theorem fetchWord : Machine.fetchWord s = Machine.fetchWord s' := by
  simp only [Machine.fetchWord, progWord, h.prog, h.me]

theorem stqWrites (ra : VReg) (ch : Channel) : Machine.stqWrites s ra ch = Machine.stqWrites s' ra ch := by
  simp only [Machine.stqWrites, stqAddr, h.params, h.frame, h.me, h.regLane]

theorem loopOutOfBounds (count len : BitVec 8) :
    Machine.loopOutOfBounds s count len = Machine.loopOutOfBounds s' count len := by
  simp only [Machine.loopOutOfBounds, h.params, h.me]

theorem groupIndex : Machine.groupIndex s = Machine.groupIndex s' := by
  simp only [Machine.groupIndex, h.me, h.params]

/-! ### The instructions -/

/-- Register writes of the same lanes, and the advance. -/
theorem sameEffect_setRegs {ws ws' : List (VReg × Lanes)} (hws : ws = ws') :
    SameEffect s s' (.next (advance (setRegs s ws))) (.next (advance (setRegs s' ws'))) := by
  rw [advance_setRegs h.lt, advance_setRegs h.lt', h.me, hws]
  exact sameEffect_setMe _

/-- A register write, lane by lane, of the same values, and the advance. -/
theorem sameEffect_perLane (rd : VReg) {f f' : ℕ → Word} (hf : f = f') :
    SameEffect s s' (.next (advance (setReg s rd (Machine.perLane s f))))
      (.next (advance (setReg s' rd (Machine.perLane s' f')))) :=
  h.sameEffect_setRegs (ws := [(rd, Machine.perLane s f)]) (ws' := [(rd, Machine.perLane s' f')]) (by rw [h.perLane, hf])

theorem sameEffect_laneUnary (f : Word → Word) (rd ra : VReg) :
    SameEffect s s' (.next (laneUnary f rd ra s)) (.next (laneUnary f rd ra s')) :=
  h.sameEffect_perLane rd (by rw [h.regLane])

theorem sameEffect_laneBinary (f : Word → Word → Word) (rd ra rb : VReg) :
    SameEffect s s' (.next (laneBinary f rd ra rb s)) (.next (laneBinary f rd ra rb s')) :=
  h.sameEffect_perLane rd (by rw [h.regLane])

theorem sameEffect_loop (count len : BitVec 8) : SameEffect s s' (execLoop count len s) (execLoop count len s') := by
  rw [execLoop, execLoop, h.loopOutOfBounds, h.me]
  refine .ite (fun _ => sameEffect_fault _) fun _ => .ite (fun _ => sameEffect_fault _) fun _ => ?_
  rw [setLoop, setLoop, advance_setMe s _ h.lt, advance_setMe s' _ h.lt', h.me]
  exact sameEffect_setMe _

theorem sameEffect_endInv : SameEffect s s' (execEndInv s) (execEndInv s') := by
  have hstart : ∀ g r, SameEffect s s' (.next (startInvocation s s.turn g r)) (.next (startInvocation s' s'.turn g r)) := by
    intro g r
    have hu : ({ s.me with
          x0 := g * s.params.laneWidth, row := r, v := Vector.replicate 32 (zeroLanes s.params.laneWidth)
          lactive := false, liter := 0, pc := s.frame.kentry.toNat } : Worker) =
        { s'.me with
          x0 := g * s'.params.laneWidth, row := r, v := Vector.replicate 32 (zeroLanes s'.params.laneWidth)
          lactive := false, liter := 0, pc := s'.frame.kentry.toNat } := by
      rw [h.me, h.params, h.frame]
    exact .effect (.runs _ [] none) ⟨by simp, by simp⟩ rfl (hu ▸ rfl)
  have hrow : SameEffect s s' (.next (completeRow s s.turn s.me.row)) (.next (completeRow s' s'.turn s'.me.row)) := by
    refine .effect (.runs { s.me with wstate := .idle } [] (some s.me.row)) ⟨by simp, by simp⟩ ?_ ?_
    · rw [completeRow_eq]
      rfl
    · rw [completeRow_eq, h.me]
      rfl
  rw [execEndInv, execEndInv, endInvocation, endInvocation, ← h.groupIndex, ← h.frame]
  by_cases hg : Machine.groupIndex s + 1 < s.frame.g
  · rw [if_pos hg, if_pos hg, ← h.me]
    exact hstart _ _
  · rw [if_neg hg, if_neg hg]
    exact hrow

theorem sameEffect_stq (ra : VReg) (ch : Channel) : SameEffect s s' (execStq ra ch s) (execStq ra ch s') := by
  rw [execStq, execStq, ← h.stqWrites]
  have happly : ∀ t : State, advance (fbPutAll t (Machine.stqWrites s ra ch)) =
      { t.setMe t.me.advance with fb := putAll t.fb (Machine.stqWrites s ra ch) } := fun t => by
    rw [advance_fbPutAll, fbPutAll_fb]
    rfl
  unfold storeLanes
  rw [← h.params]
  cases (Machine.stqWrites s ra ch).find? fun p => decide (s.params.fbCapacity ≤ p.1) with
  | some p => exact .stops _ rfl rfl
  | none =>
    refine .effect (.runs s.me.advance (Machine.stqWrites s ra ch) none) ⟨fun p hp => ?_, by simp⟩
      (congrArg _ (happly s)) (congrArg _ ((happly s').trans (h.me ▸ rfl)))
    obtain ⟨j, hj, rfl⟩ := mem_stqWrites.1 hp
    exact ⟨ch, j, hj, rfl⟩

/-- An instruction has the same effect in both states. -/
theorem sameEffect_exec (i : Instr) : SameEffect s s' (exec i s) (exec i s') := by
  cases i with
  | nop => exact h.sameEffect_setRegs (ws := []) rfl
  | endInv => exact h.sameEffect_endInv
  | loop count len => exact h.sameEffect_loop count len
  | rds rd sel => exact h.sameEffect_perLane rd (h.special sel)
  | fmov rd ra =>
    exact h.sameEffect_setRegs (ws := [(rd, Machine.reg s ra)]) (ws' := [(rd, Machine.reg s' ra)]) (by rw [h.reg])
  | flih rd imm => exact h.sameEffect_perLane rd rfl
  | flil rd imm => exact h.sameEffect_perLane rd (by rw [h.regLane])
  | fadd rd ra rb => exact h.sameEffect_laneBinary add32 rd ra rb
  | fsub rd ra rb => exact h.sameEffect_laneBinary sub32 rd ra rb
  | fmul rd ra rb => exact h.sameEffect_laneBinary mul32 rd ra rb
  | fdiv rd ra rb => exact h.sameEffect_laneBinary div32 rd ra rb
  | fabs rd ra => exact h.sameEffect_laneUnary abs32 rd ra
  | fneg rd ra => exact h.sameEffect_laneUnary neg32 rd ra
  | fsin rd ra => exact h.sameEffect_laneUnary sinA rd ra
  | fcos rd ra => exact h.sameEffect_laneUnary cosA rd ra
  | fexp rd ra => exact h.sameEffect_laneUnary expA rd ra
  | ftanh rd ra => exact h.sameEffect_laneUnary (tanhOf expA) rd ra
  | dot2 rd ra rb =>
    exact .ite (fun _ => h.sameEffect_perLane rd (by funext j; simp only [dot2Lane, h.dotTerm])) fun _ => sameEffect_fault _
  | dot4 rd ra rb =>
    exact .ite (fun _ => h.sameEffect_perLane rd (by funext j; simp only [dot4Lane, h.dotTerm])) fun _ => sameEffect_fault _
  | swz4 rd ra =>
    refine .ite (fun _ => ?_) fun _ => sameEffect_fault _
    rw [setSwizzle_eq_setRegs, setSwizzle_eq_setRegs]
    exact h.sameEffect_setRegs (by rw [h.reg])
  | swap2 rd ra =>
    refine .ite (fun _ => ?_) fun _ => sameEffect_fault _
    rw [setSwap_eq_setRegs, setSwap_eq_setRegs]
    exact h.sameEffect_setRegs (by rw [h.reg])
  | stq ra ch => exact h.sameEffect_stq ra ch

/-- A worker's step has the same effect in both states. -/
theorem sameEffect_fetchExecute : SameEffect s s' (fetchExecute s) (fetchExecute s') := by
  rw [fetchExecute, fetchExecute, ← h.params, ← h.me, ← h.fetchWord]
  refine .ite (fun _ => sameEffect_fault _) fun _ => ?_
  cases decode (Machine.fetchWord s) with
  | error c => exact sameEffect_fault c
  | ok i => exact h.sameEffect_exec i

end SameInputs

/-! ### What a step makes of the worker and of the bytes -/

section

variable {s s' : State}

@[simp] theorem closeRow_turn (row : Option ℕ) (s : State) : (closeRow row s).turn = s.turn := by
  cases row <;> rfl

@[simp] theorem closeRow_workers (row : Option ℕ) (s : State) : (closeRow row s).workers = s.workers := by
  cases row <;> rfl

@[simp] theorem closeRow_params (row : Option ℕ) (s : State) : (closeRow row s).params = s.params := by
  cases row <;> rfl

@[simp] theorem closeRow_fb (row : Option ℕ) (s : State) : (closeRow row s).fb = s.fb := by
  cases row <;> rfl

/-- What an effect makes of the executing worker. -/
def Effect.worker (u : Worker) : Effect → Worker
  | .faults _ => { u with wstate := .idle }
  | .runs u' _ _ => u'

theorem worker_apply (e : Effect) (h : s.turn < s.workers.length) : (e.apply s).worker s.turn = e.worker s.me := by
  cases e with
  | faults c => exact worker_raiseFault s c h
  | runs u ws row =>
    have hsame : ((Effect.runs u ws row).apply s).worker s.turn = (s.setMe u).worker s.turn :=
      worker_congr (closeRow_workers row _) (closeRow_params row _) _
    exact hsame.trans (worker_setWorker_self s u h)

/-- Byte writes leave a byte alone or give it a value, whatever was there. -/
theorem get?_putAll_cases (ws : List (ℕ × Byte)) (a : ℕ) :
    (∀ m, Store.get? (putAll m ws) a = Store.get? m a) ∨ ∃ b, ∀ m, Store.get? (putAll m ws) a = some b := by
  induction ws with
  | nil => exact .inl fun _ => rfl
  | cons p ws ih =>
    rcases ih with hsame | ⟨b, hb⟩
    · by_cases hp : a = p.1
      · exact .inr ⟨p.2, fun m => (hsame _).trans (hp ▸ store_get?_put_self m p.1 p.2)⟩
      · exact .inl fun m => (hsame _).trans (store_get?_put_of_ne m p.2 hp)
    · exact .inr ⟨b, fun m => hb _⟩

/-- A byte is left alone by an effect, or is given a value that does not depend on the state. -/
theorem fbByte_apply_cases (e : Effect) (a : ℕ) :
    (∀ s, fbByte (e.apply s) a = fbByte s a) ∨ ∃ b, ∀ s, fbByte (e.apply s) a = b := by
  cases e with
  | faults c => exact .inl fun _ => rfl
  | runs u ws row =>
    have hfb : ∀ s, ((Effect.runs u ws row).apply s).fb = putAll s.fb ws := fun s => closeRow_fb row _
    rcases get?_putAll_cases ws a with hsame | ⟨b, hb⟩
    · exact .inl fun s => by rw [fbByte, hfb, hsame, fbByte]
    · exact .inr ⟨b, fun s => by rw [fbByte, hfb, hb, Option.getD_some]⟩

/-- Two steps with the same inputs. -/
theorem SameInputs.step_eq {t t' : State} (h : SameInputs s s') (ht : fetchExecute s = .next t)
    (ht' : fetchExecute s' = .next t') :
    ∃ e : Effect, e.OwnedBy s ∧ t = e.apply s ∧ t' = e.apply s' := by
  cases h.sameEffect_fetchExecute with
  | effect e hown ho ho' =>
    rw [ho] at ht
    rw [ho'] at ht'
    injection ht with ht
    injection ht' with ht'
    exact ⟨e, hown, ht.symm, ht'.symm⟩
  | stops r ho => cases ho.symm.trans ht

/-- Settles O55: the step is not enabled in both states, or has one effect in both. -/
theorem workerStepDependsOnItsOwnInputs : Obligations.WorkerStepDependsOnItsOwnInputs := by
  intro s s' t t' w rest rest' hag hag' hf hparams hprog hframe hw hw' hme hstep hstep'
  rw [step_of_agenda hag] at hstep
  rw [step_of_agenda hag'] at hstep'
  by_cases hen : workEnabled { s with agenda := rest } w = true
  · have hen' : workEnabled { s' with agenda := rest' } w = true := by
      obtain ⟨hrun, -, hact⟩ := (workEnabled_iff _ w).1 hen
      exact (workEnabled_iff _ w).2 ⟨hf.symm.trans hrun, hw', hme ▸ hact⟩
    rw [perform_work_of_enabled hen] at hstep
    rw [perform_work_of_enabled hen'] at hstep'
    have hin : SameInputs { s with agenda := rest, turn := w } { s' with agenda := rest', turn := w } :=
      ⟨hparams, hprog, hframe, hme, hw, hw'⟩
    obtain ⟨e, -, rfl, rfl⟩ := hin.step_eq hstep hstep'
    refine ⟨?_, fun a => ?_⟩
    · exact (worker_apply e hin.lt).trans ((congrArg e.worker hme).trans (worker_apply e hin.lt').symm)
    · rcases fbByte_apply_cases e a with hsame | ⟨b, hb⟩
      · exact .inl ⟨hsame _, hsame _⟩
      · exact .inr ((hb _).trans (hb _).symm)
  · have hen' : ¬workEnabled { s' with agenda := rest' } w = true := fun h' => by
      obtain ⟨hrun, -, hact⟩ := (workEnabled_iff _ w).1 h'
      exact hen ((workEnabled_iff _ w).2 ⟨hf.trans hrun, hw, hme.symm ▸ hact⟩)
    rw [perform_work_of_not_enabled hen] at hstep
    rw [perform_work_of_not_enabled hen'] at hstep'
    injection hstep with ht
    injection hstep' with ht'
    subst ht ht'
    exact ⟨hme, fun a => .inl ⟨rfl, rfl⟩⟩

end

end Sys2Proof.Proofs
end

