-- ==== Sys2Proof/Proofs/CommutingSteps.lean ====
section
/-! SUPPORT. The steps of two active workers in either order (spec/45_row_dispatch.md R242). Each step has the effect
it has without the other before it, and the two effects touch different workers and different bytes; of what they
share, only the rows done are written, and a set does not know the order of its insertions. -/

namespace Sys2Proof.Proofs

open Sys2Proof.Machine

/-! ### What two effects share -/

theorem putAll_put_comm {m : Memory} (h : Memory.wf m) {ws : List (ℕ × Byte)} {a : ℕ} (hne : ∀ p ∈ ws, a ≠ p.1) (b : Byte) :
    putAll (Store.put m a b) ws = Store.put (putAll m ws) a b := by
  induction ws generalizing m with
  | nil => rfl
  | cons p ws ih =>
    obtain ⟨hp, hws⟩ := List.forall_mem_cons.1 hne
    calc putAll (Store.put (Store.put m a b) p.1 p.2) ws
        = putAll (Store.put (Store.put m p.1 p.2) a b) ws := by rw [store_put_comm h hp]
      _ = Store.put (putAll (Store.put m p.1 p.2) ws) a b := ih (store_put_rising h p.1 p.2) hws

/-- Byte writes to different addresses may be made in either order. -/
theorem putAll_comm {m : Memory} (h : Memory.wf m) {ws xs : List (ℕ × Byte)} (hne : ∀ p ∈ ws, ∀ q ∈ xs, p.1 ≠ q.1) :
    putAll (putAll m ws) xs = putAll (putAll m xs) ws := by
  induction ws generalizing m with
  | nil => rfl
  | cons p ws ih =>
    obtain ⟨hp, hws⟩ := List.forall_mem_cons.1 hne
    calc putAll (putAll (Store.put m p.1 p.2) ws) xs
        = putAll (putAll (Store.put m p.1 p.2) xs) ws := ih (store_put_rising h p.1 p.2) hws
      _ = putAll (Store.put (putAll m xs) p.1 p.2) ws := by rw [putAll_put_comm h hp]

section

variable {s : State}

/-- Completing a row that is not the last adds it to DONE_ROWS. -/
theorem closeRow_of_not_last {r : ℕ} (h : insertRow r s.doneRows ≠ allRows s) :
    closeRow (some r) s = { s with doneRows := insertRow r s.doneRows } := by
  rw [closeRow, if_neg h, if_neg h, if_neg h]

/-- Two rows neither of which is the last may be completed in either order. -/
theorem closeRow_comm (hrising : s.doneRows.Pairwise (· < ·)) {x y : Option ℕ}
    (hx : ∀ r, x = some r → insertRow r s.doneRows ≠ allRows s) (hy : ∀ r, y = some r → insertRow r s.doneRows ≠ allRows s) :
    closeRow y (closeRow x s) = closeRow x (closeRow y s) := by
  cases x with
  | none => rfl
  | some r =>
    cases y with
    | none => rfl
    | some q =>
      rw [closeRow_of_not_last (hx r rfl), closeRow_of_not_last (hy q rfl)]
      simp only [closeRow, insertRow_comm hrising q r]
      rfl

/-- What an effect that does not complete the frame leaves alone, and the workers after it. -/
theorem apply_runs_keeps (u : Worker) (ws : List (ℕ × Byte)) {row : Option ℕ}
    (hnot : ∀ r, row = some r → insertRow r s.doneRows ≠ allRows s) :
    let t := (Effect.runs u ws row).apply s
    t.fstate = s.fstate ∧ t.params = s.params ∧ t.prog = s.prog ∧ t.frame = s.frame ∧ t.workers = (s.setMe u).workers := by
  cases row with
  | none => exact ⟨rfl, rfl, rfl, rfl, rfl⟩
  | some r => exact ⟨if_neg (hnot r rfl), rfl, rfl, rfl, rfl⟩

/-- Completing a row does not read the workers, the bytes or the turn. -/
theorem withWork_closeRow (row : Option ℕ) (s : State) (us : List Worker) (fb : Memory) (turn : ℕ) :
    withWork (closeRow row s) us fb turn = closeRow row (withWork s us fb turn) := by
  cases row <;> rfl

theorem withWork_withWork (s : State) (us us' : List Worker) (fb fb' : Memory) (turn turn' : ℕ) :
    withWork (withWork s us fb turn) us' fb' turn' = withWork s us' fb' turn' := rfl

/-- The effect of a step of worker `w`. -/
theorem apply_turn (s : State) (w : ℕ) (u : Worker) (ws : List (ℕ × Byte)) (row : Option ℕ) :
    (Effect.runs u ws row).apply { s with turn := w } =
      closeRow row (withWork s (s.workers.set w u) (putAll s.fb ws) w) := rfl

theorem with_turn (s : State) (turn : ℕ) : { s with turn := turn } = withWork s s.workers s.fb turn := rfl

/-- One worker's effect after another's: the workers, the bytes and the rows done, one after the other. -/
theorem apply_apply (s : State) (v w : ℕ) (a b : Worker) (xs ys : List (ℕ × Byte)) (x y : Option ℕ) :
    { (Effect.runs b ys y).apply { (Effect.runs a xs x).apply { s with turn := v } with turn := w } with turn := 0 } =
      closeRow y (closeRow x (withWork s ((s.workers.set v a).set w b) (putAll (putAll s.fb xs) ys) 0)) := by
  rw [apply_turn, apply_turn, closeRow_workers, closeRow_fb, withWork_closeRow, withWork_withWork, with_turn,
    withWork_closeRow, withWork_closeRow, withWork_withWork, closeRow_workers, closeRow_workers, closeRow_fb, closeRow_fb]
  rfl

/-! ### Faults stay -/

theorem err_apply (e : Effect) (h : s.err = true) : (e.apply s).err = true := by
  cases e with
  | faults c => rfl
  | runs u ws row => cases row <;> exact h

theorem runs_of_err_eq_false {e : Effect} (h : (e.apply s).err = false) : ∃ u ws row, e = .runs u ws row := by
  cases e with
  | faults c => cases h
  | runs u ws row => exact ⟨u, ws, row, rfl⟩

theorem sameInputs_refl (h : s.turn < s.workers.length) : SameInputs s s :=
  ⟨rfl, rfl, rfl, rfl, h, h⟩

/-- No worker's step clears ERR. -/
theorem err_of_perform_work {t : State} {w : ℕ} (h : perform (.work w) s = .next t) (ht : t.err = false) :
    s.err = false := by
  by_cases hen : workEnabled s w = true
  · rw [perform_work_of_enabled hen] at h
    obtain ⟨e, -, rfl, -⟩ := (sameInputs_refl (executing_of_enabled hen).turn_lt).step_eq h h
    by_contra herr
    have := err_apply (s := { s with turn := w }) e (by simpa using herr)
    exact absurd ht (by simp [this])
  · rw [perform_work_of_not_enabled hen] at h
    injection h with h
    exact h ▸ ht

end

/-! ### The rows and bytes of two active workers -/

section

variable {s : State} {v w : ℕ}

/-- While another worker is active, a worker's row is not the last of the frame. -/
theorem insertRow_ne_allRows (h : DispatchOk s) (hvw : v ≠ w) (hv : workEnabled s v = true) (hw : workEnabled s w = true) :
    insertRow (s.worker v).row s.doneRows ≠ allRows s := by
  obtain ⟨-, hltv, hactv⟩ := (workEnabled_iff s v).1 hv
  obtain ⟨-, hltw, hactw⟩ := (workEnabled_iff s w).1 hw
  obtain ⟨hheld, -⟩ := rowHeld_of_executing (s := { s with turn := w }) h (executing_of_enabled hw)
  have hnodup : (s.doneRows ++ (s.worker w).row :: heldRows (others s w)).Nodup := by
    have := hheld.parts.nodup_iff.2 List.nodup_range
    rw [List.append_assoc] at this
    exact this.of_append_right
  have hopen : (s.worker w).row ∉ s.doneRows := fun hmem =>
    List.disjoint_of_nodup_append hnodup hmem List.mem_cons_self
  intro hall
  have hmem : (s.worker w).row ∈ insertRow (s.worker v).row s.doneRows := hall ▸ (mem_allRows s _).2 hheld.row_lt
  rcases (mem_insertRow _ _ _).1 hmem with e | hdone
  · exact active_rows_ne h hltv hltw hvw hactv hactw e.symm
  · exact hopen hdone

/-- The lanes of two active workers have no address in common. -/
theorem stqAddr_ne (h : DispatchOk s) (hvw : v ≠ w) (hv : workEnabled s v = true) (hw : workEnabled s w = true)
    {c d : Channel} {i j : ℕ} (hi : i < s.params.laneWidth) (hj : j < s.params.laneWidth) :
    stqAddr { s with turn := v } c i ≠ stqAddr { s with turn := w } d j := by
  obtain ⟨-, hltv, hactv⟩ := (workEnabled_iff s v).1 hv
  obtain ⟨-, hltw, hactw⟩ := (workEnabled_iff s w).1 hw
  obtain ⟨-, hinv⟩ := rowHeld_of_executing (s := { s with turn := v }) h (executing_of_enabled hv)
  obtain ⟨-, hinw⟩ := rowHeld_of_executing (s := { s with turn := w }) h (executing_of_enabled hw)
  have hslicev := inSlice_stqAddr hinv c hi
  have hslicew := inSlice_stqAddr hinw d hj
  intro e
  rw [e] at hslicev
  exact active_rows_ne h hltv hltw hvw hactv hactw (hslicev.div_eq.symm.trans hslicew.div_eq)

/-- After a worker's step without a fault another active worker can step, and finds what it would have found before. -/
theorem enabled_after (h : DispatchOk s) (hvw : v ≠ w) (hv : workEnabled s v = true) (hw : workEnabled s w = true)
    {a : State} (ha : perform (.work v) s = .next a) (herr : a.err = false) :
    workEnabled a w = true ∧ SameInputs { s with turn := w } { a with turn := w } := by
  have hnot := insertRow_ne_allRows h hvw hv hw
  obtain ⟨hrun, hlt, hact⟩ := (workEnabled_iff s w).1 hw
  rw [perform_work_of_enabled hv] at ha
  obtain ⟨e, hown, rfl, -⟩ := (sameInputs_refl (executing_of_enabled hv).turn_lt).step_eq ha ha
  obtain ⟨u, ws, row, rfl⟩ := runs_of_err_eq_false herr
  obtain ⟨-, hrow⟩ := hown
  obtain ⟨hrun', hparams, hprog, hframe, hworkers⟩ := apply_runs_keeps (s := { s with turn := v }) u ws fun r hr =>
    (hrow r hr).symm ▸ hnot
  have hworker : ((Effect.runs u ws row).apply { s with turn := v }).worker w = s.worker w :=
    (worker_congr hworkers hparams w).trans (worker_setWorker_of_ne s u hvw.symm)
  have hlength : w < ((Effect.runs u ws row).apply { s with turn := v }).workers.length := by
    rw [hworkers]
    simpa using hlt
  exact ⟨(workEnabled_iff _ w).2 ⟨hrun'.trans hrun, hlength, hworker ▸ hact⟩,
    hparams.symm, hprog.symm, hframe.symm, hworker.symm, hlt, hlength⟩

/-- A worker's step has one effect, whether it is taken before or after the step of another active worker. -/
theorem effect_before_and_after (h : DispatchOk s) (hvw : v ≠ w) (hv : workEnabled s v = true) (hw : workEnabled s w = true)
    {a b ab : State} (ha : perform (.work v) s = .next a) (hb : perform (.work w) s = .next b)
    (hab : perform (.work w) a = .next ab) (herr : ab.err = false) :
    ∃ u ws row, (Effect.runs u ws row).OwnedBy { s with turn := w } ∧
      ab = (Effect.runs u ws row).apply { a with turn := w } ∧ b = (Effect.runs u ws row).apply { s with turn := w } := by
  obtain ⟨hen, hin⟩ := enabled_after h hvw hv hw ha (err_of_perform_work hab herr)
  rw [perform_work_of_enabled hw] at hb
  rw [perform_work_of_enabled hen] at hab
  obtain ⟨e, hown, rfl, rfl⟩ := hin.step_eq hb hab
  obtain ⟨u, ws, row, rfl⟩ := runs_of_err_eq_false herr
  exact ⟨u, ws, row, hown, rfl, rfl⟩

end

/-- Settles O56: both orders apply the same two effects, which do not touch each other. -/
theorem workerStepsCommute : Obligations.WorkerStepsCommute := by
  intro s a b ab ba v w hstorage _ h hvw hv hw ha hab hb hba herr herr'
  obtain ⟨uw, ws, y, hownw, rfl, rfl⟩ := effect_before_and_after h hvw hv hw ha hb hab herr
  obtain ⟨uv, xs, x, hownv, rfl, rfl⟩ := effect_before_and_after h hvw.symm hw hv hb ha hba herr'
  obtain ⟨-, -, -, ⟨hfb, -⟩, -⟩ := hstorage
  obtain ⟨hrun, -⟩ := (workEnabled_iff s v).1 hv
  obtain ⟨-, hrising, -⟩ := h.2 hrun
  obtain ⟨hlanesv, hrowv⟩ := hownv
  obtain ⟨hlanesw, hroww⟩ := hownw
  have hdisjoint : ∀ p ∈ xs, ∀ q ∈ ws, p.1 ≠ q.1 := fun p hp q hq => by
    obtain ⟨c, i, hi, hp⟩ := hlanesv p hp
    obtain ⟨d, j, hj, hq⟩ := hlanesw q hq
    rw [hp, hq]
    exact stqAddr_ne h hvw hv hw hi hj
  rw [apply_apply, apply_apply, List.set_comm _ _ hvw, putAll_comm hfb hdisjoint]
  apply closeRow_comm
  · exact hrising
  · intro r hr
    rw [hrowv r hr]
    exact insertRow_ne_allRows h hvw hv hw
  · intro r hr
    rw [hroww r hr]
    exact insertRow_ne_allRows h hvw.symm hw hv

end Sys2Proof.Proofs
end

