-- ==== Sys2Proof/Proofs/TanhTable.lean ====
section
/-! SUPPORT. The approximation table ROM (spec/44_quantizer_store.md R210, R211): its order, and its entries as levels of the real
hyperbolic tangent. At the domain point 5k/255 = k/51 the tangent is a function of exp (2k/51) = exp (2/51) ^ k that rises with it, so
one rational bound of exp (2/51) on either side decides every entry. -/

namespace Sys2Proof.Proofs

open Sys2Proof.Machine Sys2Proof.Laws

/-! ### The order of the entries (R211, R212) -/

theorem lutEntry_step : ∀ k, k < 255 → lutEntry k ≤ lutEntry (k + 1) ∧ lutEntry (k + 1) - lutEntry k ≤ 5 := by
  decide +kernel

theorem lutEntry_edges : lutEntry 0 = 0 ∧ lutEntry 255 = 255 := by decide

/-- Settles O18. -/
theorem tableChecksumEdgesAndOrder : Obligations.TableChecksumEdgesAndOrder :=
  ⟨by decide +kernel, by decide +kernel, lutEntry_edges.1, lutEntry_edges.2, lutEntry_step⟩

/-- The table is non-decreasing, the index held at its last entry (R204, R212). -/
theorem lutEntry_min_monotone : Monotone fun k => lutEntry (min k 255) := by
  refine monotone_nat_of_le_succ fun k => ?_
  rcases Nat.lt_or_ge k 255 with h | h
  · rw [min_eq_left h.le, min_eq_left h]
    exact (lutEntry_step k h).1
  · rw [min_eq_right h, min_eq_right (Nat.le_succ_of_le h)]

theorem lutEntry_mono {i j : ℕ} (hij : i ≤ j) (hj : j ≤ 255) : lutEntry i ≤ lutEntry j := by
  have h : lutEntry (min i 255) ≤ lutEntry (min j 255) := lutEntry_min_monotone hij
  rwa [min_eq_left hj, min_eq_left (hij.trans hj)] at h

theorem lutEntry_le {k : ℕ} (hk : k ≤ 255) : lutEntry k ≤ 255 :=
  (lutEntry_mono hk le_rfl).trans_eq lutEntry_edges.2

/-! ### The entries as levels of the tangent (R210) -/

/-- 255 times the tangent of `x`, from `e = exp (2x)`. -/
noncomputable def tanhLevel (e : ℝ) : ℝ := 255 - 510 / (e + 1)

theorem tanh_mul_eq_tanhLevel (x : ℝ) : Real.tanh x * 255 = tanhLevel (Real.exp (2 * x)) := by
  have hexp : Real.exp (-x) = Real.exp x / Real.exp (2 * x) := by
    rw [← Real.exp_sub]
    congr 1
    ring
  have hpos := Real.exp_pos x
  have hpos2 := Real.exp_pos (2 * x)
  rw [tanhLevel, Real.tanh_eq, hexp]
  field_simp
  ring

theorem tanhLevel_mono {e e' : ℝ} (he : 0 < e) (h : e ≤ e') : tanhLevel e ≤ tanhLevel e' := by
  unfold tanhLevel
  gcongr

theorem exp_step_bounds : 103999 / 100000 ≤ Real.exp (2 / 51) ∧ Real.exp (2 / 51) ≤ 26 / 25 := by
  have h := exp_near (2 / 51) (1 / 10 ^ 6) 4 ⟨by norm_num [abs_of_pos], by norm_num [abs_of_pos, Nat.factorial]⟩
  norm_num [taylor, Finset.sum_range_succ, expCoef, Nat.factorial, abs_le] at h
  constructor <;> linarith

/-- The levels at the two bounds' powers lie within half a level of the entry. -/
theorem lutEntry_level_bounds : ∀ k, k < 256 →
    (lutEntry k : ℚ) - 1 / 2 ≤ 255 - 510 / ((103999 / 100000) ^ k + 1) ∧
      255 - 510 / ((26 / 25) ^ k + 1) < (lutEntry k : ℚ) + 1 / 2 := by
  decide +kernel

theorem lutEntry_between_levels {k : ℕ} (hk : k < 256) :
    (lutEntry k : ℝ) - 1 / 2 ≤ tanhLevel ((103999 / 100000) ^ k) ∧ tanhLevel ((26 / 25) ^ k) < (lutEntry k : ℝ) + 1 / 2 := by
  have h := lutEntry_level_bounds k hk
  rw [← Rat.cast_le (K := ℝ), ← Rat.cast_lt (K := ℝ)] at h
  push_cast at h
  exact h

/-- Settles O17: the tangent's level lies between those of the bounds' powers. -/
theorem tableEntriesAreRoundedTanh : Obligations.TableEntriesAreRoundedTanh := by
  intro k hk
  obtain ⟨hlo, hhi⟩ := lutEntry_between_levels hk
  obtain ⟨hexpLo, hexpHi⟩ := exp_step_bounds
  have hlevel : Real.tanh (5 * (k : ℝ) / 255) * 255 = tanhLevel (Real.exp (2 / 51) ^ k) := by
    rw [tanh_mul_eq_tanhLevel, ← Real.exp_nat_mul]
    congr 2
    ring
  have hge : tanhLevel ((103999 / 100000) ^ k) ≤ tanhLevel (Real.exp (2 / 51) ^ k) :=
    tanhLevel_mono (by positivity) (by gcongr)
  have hle : tanhLevel (Real.exp (2 / 51) ^ k) ≤ tanhLevel ((26 / 25) ^ k) :=
    tanhLevel_mono (by positivity) (by gcongr)
  have hnonneg : 0 ≤ Real.tanh (5 * (k : ℝ) / 255) := by
    rw [Real.tanh_eq_sinh_div_cosh]
    exact div_nonneg (Real.sinh_nonneg_iff.2 (by positivity)) (Real.cosh_pos _).le
  rw [min_eq_left (Real.tanh_lt_one _).le, max_eq_right hnonneg, hlevel, eq_comm, Int.floor_eq_iff, Int.cast_natCast]
  constructor <;> linarith

end Sys2Proof.Proofs
end

