-- ==== Sys2Proof/Proofs/ApproximateQuantizer.lean ====
section
/-! SUPPORT. The approximate quantization strategy (spec/44_quantizer_store.md R204, R212). Rounding keeps the order of exact results,
so each operation of the interpolation keeps the order within a segment of the table, and every interpolated value lies between the two
entries of its segment. -/

namespace Sys2Proof.Proofs

open Sys2Proof.Machine Sys2Proof.Laws

/-- Settles O19. -/
theorem approximateStrategyClampsTheDomain : Obligations.ApproximateStrategyClampsTheDomain := fun _ =>
  ⟨qapprox_of_isNaN, qapprox_of_nonpos, qapprox_of_ge_five⟩

/-! ### Rounding and order -/

section

variable {a b r s : Word} {x y : ℚ}

/-- Nearest patterns are ordered as the numbers they are nearest to. -/
theorem Nearest.le_of_lt (hr : Nearest x r) (hs : Nearest y s) (h : x < y) : val32 r ≤ val32 s := by
  by_contra! hlt
  have hrs := hr.2 s hs.1
  have hsr := hs.2 r hr.1
  rw [← sq_le_sq] at hrs hsr
  have hpos := mul_pos (sub_pos.2 hlt) (sub_pos.2 h)
  linarith

/-- An operation on patterns of sign 0 that rounds a rising function of the operand's value keeps the order. -/
theorem val32_le_of_nearest {f : ℚ → ℚ} (hf : StrictMono f) (ha : sign a = false) (hb : sign b = false)
    (hr : Nearest (f (val32 a)) r) (hs : Nearest (f (val32 b)) s) (hcongr : a = b → r = s) (h : val32 a ≤ val32 b) :
    val32 r ≤ val32 s := by
  rcases h.eq_or_lt with heq | hlt
  · rw [hcongr (eq_of_val32_eq ha hb heq)]
  · exact hr.le_of_lt hs (hf hlt)

theorem sign_rne (neg : Bool) (n d : ℕ) : sign (rne neg n d) = neg :=
  sign_withSign neg ((min_le_right _ _).trans_lt (by norm_num))

theorem sign_mul32_of_pos (ha : isFinite a = true) (hb : isFinite b = true) (hsa : sign a = false) (hsb : sign b = false) :
    sign (mul32 a b) = false := by
  rw [mul32_of_isFinite ha hb, hsa, hsb]
  split
  · exact sign_rne _ _ _
  · decide

/-- A difference that is not negative has sign 0: of two equal numbers it is +0. -/
theorem sign_sub32_of_le (ha : isFinite a = true) (hb : isFinite b = true) (hs : sign a = false) (h : val32 b ≤ val32 a) :
    sign (sub32 a b) = false := by
  by_cases h0 : val32 a - val32 b = 0
  · rw [sub_eq_add_neg, ← val32_flip] at h0
    rw [sub32, add32_of_sum_zero ha ((isFinite_flip b).trans hb) h0, if_neg]
    · decide
    · rintro ⟨rfl, -⟩
      exact absurd hs (by decide)
  · obtain ⟨hsign, -⟩ := isRNE_sub32 ha hb h0
    rw [hsign, decide_eq_false_iff_not, not_lt, sub_nonneg]
    exact h

end

/-! ### The table position -/

theorem val32_domain : val32 0x40A00000 = 5 ∧ val32 0x424C0000 = 51 := by
  rw [val32_of_units (c := 5 * 2 ^ 20) (by decide +kernel), val32_of_units (c := 51 * 2 ^ 20) (by decide +kernel)]
  norm_num

section

variable (x : Word)

/-- What the clamp leaves is +0, 5 or a number between them. -/
theorem clampDomain_spec : isFinite (clampDomain x) = true ∧ sign (clampDomain x) = false ∧
    val32 (clampDomain x) = max 0 (min (val32 x) 5) := by
  obtain ⟨hfive, -⟩ := val32_domain
  obtain ⟨-, -, -, -, -, -, hzero⟩ := val32_references
  have hle : units x ≤ 0 ↔ val32 x ≤ 0 := by
    rw [← hzero, val32_le_iff_units, show units 0x00000000 = 0 by decide]
  have hge : units 0x40A00000 ≤ units x ↔ 5 ≤ val32 x := by rw [← hfive, val32_le_iff_units]
  unfold clampDomain
  split
  · rename_i h
    refine ⟨by decide, by decide, ?_⟩
    rw [hzero, max_eq_left ((min_le_left _ _).trans (hle.1 h))]
  · rename_i h0
    split
    · rename_i h5
      refine ⟨by decide, by decide, ?_⟩
      rw [hfive, min_eq_right (hge.1 h5), max_eq_right (by norm_num)]
    · rename_i h5
      have hpos : 0 < val32 x := not_le.1 (mt hle.2 h0)
      have hlt : val32 x < 5 := not_le.1 (mt hge.2 h5)
      have hs := sign_of_pos hpos
      have hbelow : x.toNat ≤ 0x40A00000 := (val32_le_iff hs (by decide)).1 (hlt.le.trans_eq hfive.symm)
      obtain ⟨hfin, -⟩ := (lt_posInf_iff x).1 (hbelow.trans_lt (by norm_num))
      exact ⟨hfin, hs, by rw [min_eq_left hlt.le, max_eq_right hpos.le]⟩

theorem clampDomain_bounds : 0 ≤ val32 (clampDomain x) ∧ val32 (clampDomain x) ≤ 5 := by
  obtain ⟨-, -, hval⟩ := clampDomain_spec x
  rw [hval]
  exact ⟨le_max_left _ _, max_le (by norm_num) (min_le_right _ _)⟩

theorem nearest_lutPosition : Nearest (val32 (clampDomain x) * 51) (lutPosition x) := by
  obtain ⟨hfin, -⟩ := clampDomain_spec x
  obtain ⟨h0, h5⟩ := clampDomain_bounds x
  obtain ⟨-, hscale⟩ := val32_domain
  have h := nearest_mul32 (b := 0x424C0000) hfin (by decide) (by rw [hscale, abs_lt]; constructor <;> linarith)
  rwa [hscale] at h

theorem sign_lutPosition : sign (lutPosition x) = false := by
  obtain ⟨hfin, hs, -⟩ := clampDomain_spec x
  exact sign_mul32_of_pos hfin (by decide) hs (by decide)

theorem lutPosition_bounds : 0 ≤ val32 (lutPosition x) ∧ val32 (lutPosition x) ≤ 255 := by
  obtain ⟨-, -, -, h255, -⟩ := val32_references
  obtain ⟨-, h5⟩ := clampDomain_bounds x
  refine ⟨val32_nonneg (sign_lutPosition x), ?_⟩
  rw [← h255]
  exact (nearest_lutPosition x).ge_of_ge (by decide) (by rw [h255]; linarith)

theorem floorOf_eq_floor (w : Word) : floorOf w = ⌊val32 w⌋ := by
  have h := Rat.floor_intCast_div_natCast (units w) (2 ^ 149)
  simp only [Nat.cast_pow, Nat.cast_ofNat] at h
  rw [floorOf, val32, h]

/-- The clamp of the index never acts: the position is at most 255. -/
theorem lutIndex_eq_floor : lutIndex x = ⌊val32 (lutPosition x)⌋₊ := by
  obtain ⟨-, h255⟩ := lutPosition_bounds x
  rw [lutIndex, floorOf_eq_floor, Int.floor_toNat, min_eq_left]
  exact Nat.floor_le_of_le (by exact_mod_cast h255)

theorem lutIndex_le : lutIndex x ≤ 255 := min_le_right _ _

theorem lutIndex_bounds : (lutIndex x : ℚ) ≤ val32 (lutPosition x) ∧ val32 (lutPosition x) < lutIndex x + 1 := by
  obtain ⟨h0, -⟩ := lutPosition_bounds x
  rw [lutIndex_eq_floor]
  exact ⟨Nat.floor_le h0, Nat.lt_floor_add_one _⟩

end

/-! ### The interpolated value -/

/-- A table entry, an index or a step of the table converts exactly. -/
theorem float32_spec {n : ℕ} (h : n ≤ 255) :
    isFinite (float32 n) = true ∧ val32 (float32 n) = n ∧ sign (float32 n) = false :=
  smallIntegersConvertExactly n (by omega)

/-- The entries at the two ends of the segment of `x`. -/
def segmentLow (x : Word) : ℕ := lutEntry (lutIndex x)

def segmentHigh (x : Word) : ℕ := lutEntry (min (lutIndex x + 1) 255)

/-- The place of `x` in its segment, `frac` in R204. -/
def segmentFrac (x : Word) : Word := sub32 (lutPosition x) (float32 (lutIndex x))

/-- The rise from the segment's lower entry. -/
def segmentRise (x : Word) : Word := mul32 (float32 (segmentHigh x - segmentLow x)) (segmentFrac x)

theorem lutValue_eq (x : Word) : lutValue x = add32 (float32 (segmentLow x)) (segmentRise x) := rfl

section

variable (x : Word)

theorem segmentLow_le_high : segmentLow x ≤ segmentHigh x :=
  lutEntry_mono (le_min (Nat.le_succ _) (lutIndex_le x)) (min_le_right _ _)

theorem segmentHigh_le : segmentHigh x ≤ 255 := lutEntry_le (min_le_right _ _)

theorem nearest_segmentFrac : Nearest (val32 (lutPosition x) - lutIndex x) (segmentFrac x) := by
  obtain ⟨hfin, hval, -⟩ := float32_spec (lutIndex_le x)
  obtain ⟨hlo, hhi⟩ := lutIndex_bounds x
  have h := nearest_sub32 (nearest_lutPosition x).1 hfin (by rw [hval, abs_lt]; constructor <;> linarith)
  rwa [hval] at h

theorem sign_segmentFrac : sign (segmentFrac x) = false := by
  obtain ⟨hfin, hval, -⟩ := float32_spec (lutIndex_le x)
  exact sign_sub32_of_le (nearest_lutPosition x).1 hfin (sign_lutPosition x) (hval.trans_le (lutIndex_bounds x).1)

theorem segmentFrac_bounds : 0 ≤ val32 (segmentFrac x) ∧ val32 (segmentFrac x) ≤ 1 := by
  refine ⟨val32_nonneg (sign_segmentFrac x), ?_⟩
  rw [← val32_one]
  exact (nearest_segmentFrac x).ge_of_ge (by decide) (by rw [val32_one]; linarith [(lutIndex_bounds x).2])

theorem segmentStep_spec : isFinite (float32 (segmentHigh x - segmentLow x)) = true ∧
    val32 (float32 (segmentHigh x - segmentLow x)) = segmentHigh x - segmentLow x ∧
    sign (float32 (segmentHigh x - segmentLow x)) = false := by
  obtain ⟨hfin, hval, hs⟩ := float32_spec (n := segmentHigh x - segmentLow x) (by have := segmentHigh_le x; omega)
  exact ⟨hfin, by rw [hval, Nat.cast_sub (segmentLow_le_high x)], hs⟩

theorem segment_bounds :
    (0 : ℚ) ≤ segmentLow x ∧ (segmentLow x : ℚ) ≤ segmentHigh x ∧ (segmentHigh x : ℚ) ≤ 255 :=
  ⟨Nat.cast_nonneg _, Nat.cast_le.2 (segmentLow_le_high x), by exact_mod_cast segmentHigh_le x⟩

theorem nearest_segmentRise :
    Nearest ((segmentHigh x - segmentLow x) * val32 (segmentFrac x)) (segmentRise x) := by
  obtain ⟨hfin, hval, -⟩ := segmentStep_spec x
  obtain ⟨hlow, hle, hhigh⟩ := segment_bounds x
  obtain ⟨h0, h1⟩ := segmentFrac_bounds x
  have h := nearest_mul32 hfin (nearest_segmentFrac x).1 (by
    rw [hval, abs_lt]
    constructor <;> nlinarith)
  rwa [hval] at h

theorem sign_segmentRise : sign (segmentRise x) = false := by
  obtain ⟨hfin, -, hs⟩ := segmentStep_spec x
  exact sign_mul32_of_pos hfin (nearest_segmentFrac x).1 hs (sign_segmentFrac x)

theorem segmentRise_bounds :
    0 ≤ val32 (segmentRise x) ∧ val32 (segmentRise x) ≤ segmentHigh x - segmentLow x := by
  obtain ⟨hfin, hval, -⟩ := segmentStep_spec x
  obtain ⟨-, hle, -⟩ := segment_bounds x
  obtain ⟨-, h1⟩ := segmentFrac_bounds x
  refine ⟨val32_nonneg (sign_segmentRise x), ?_⟩
  rw [← hval]
  exact (nearest_segmentRise x).ge_of_ge hfin (by rw [hval]; nlinarith)

theorem nearest_lutValue : Nearest (segmentLow x + val32 (segmentRise x)) (lutValue x) := by
  obtain ⟨hlow, hle, hhigh⟩ := segment_bounds x
  obtain ⟨h0, h1⟩ := segmentRise_bounds x
  obtain ⟨hfin, hval, -⟩ := float32_spec ((segmentLow_le_high x).trans (segmentHigh_le x))
  have h := nearest_add32 hfin (nearest_segmentRise x).1 (by rw [hval, abs_lt]; constructor <;> linarith)
  rwa [hval] at h

/-- The interpolated value lies between the segment's two entries (R204). -/
theorem lutValue_bounds : segmentLow x ≤ val32 (lutValue x) ∧ val32 (lutValue x) ≤ segmentHigh x := by
  obtain ⟨h0, h1⟩ := segmentRise_bounds x
  obtain ⟨hfinLow, hvalLow, -⟩ := float32_spec ((segmentLow_le_high x).trans (segmentHigh_le x))
  obtain ⟨hfinHigh, hvalHigh, -⟩ := float32_spec (segmentHigh_le x)
  rw [← hvalLow, ← hvalHigh]
  exact ⟨(nearest_lutValue x).le_of_le hfinLow (by rw [hvalLow]; linarith),
    (nearest_lutValue x).ge_of_ge hfinHigh (by rw [hvalHigh]; linarith)⟩

end

/-! ### Monotonicity (R212) -/

section

variable {x y : Word}

theorem clampDomain_mono (h : val32 x ≤ val32 y) : val32 (clampDomain x) ≤ val32 (clampDomain y) := by
  obtain ⟨-, -, hx⟩ := clampDomain_spec x
  obtain ⟨-, -, hy⟩ := clampDomain_spec y
  rw [hx, hy]
  gcongr

theorem lutPosition_mono (h : val32 x ≤ val32 y) : val32 (lutPosition x) ≤ val32 (lutPosition y) := by
  obtain ⟨-, hx, -⟩ := clampDomain_spec x
  obtain ⟨-, hy, -⟩ := clampDomain_spec y
  exact val32_le_of_nearest (f := (· * 51)) (strictMono_mul_right_of_pos (by norm_num)) hx hy (nearest_lutPosition x)
    (nearest_lutPosition y) (fun heq => by rw [lutPosition, heq, lutPosition]) (clampDomain_mono h)

theorem lutIndex_mono (h : val32 x ≤ val32 y) : lutIndex x ≤ lutIndex y := by
  rw [lutIndex_eq_floor, lutIndex_eq_floor]
  exact Nat.floor_mono (lutPosition_mono h)

/-- In one segment, and that a rising one, every operation keeps the order. -/
theorem lutValue_mono_of_same_segment (h : val32 x ≤ val32 y) (hindex : lutIndex x = lutIndex y)
    (hrise : segmentLow x < segmentHigh x) : val32 (lutValue x) ≤ val32 (lutValue y) := by
  have hlow : segmentLow y = segmentLow x := by rw [segmentLow, segmentLow, hindex]
  have hhigh : segmentHigh y = segmentHigh x := by rw [segmentHigh, segmentHigh, hindex]
  have hfracMono : val32 (segmentFrac x) ≤ val32 (segmentFrac y) :=
    val32_le_of_nearest (f := (· - (lutIndex x : ℚ))) (fun _ _ hlt => sub_lt_sub_right hlt _) (sign_lutPosition x)
      (sign_lutPosition y) (nearest_segmentFrac x) (hindex ▸ nearest_segmentFrac y)
      (fun heq => by rw [segmentFrac, segmentFrac, heq, hindex]) (lutPosition_mono h)
  have hstep : (0 : ℚ) < segmentHigh x - segmentLow x := sub_pos.2 (Nat.cast_lt.2 hrise)
  have hriseMono : val32 (segmentRise x) ≤ val32 (segmentRise y) :=
    val32_le_of_nearest (f := ((segmentHigh x - segmentLow x : ℚ) * ·)) (strictMono_mul_left_of_pos hstep)
      (sign_segmentFrac x) (sign_segmentFrac y) (nearest_segmentRise x) (hlow ▸ hhigh ▸ nearest_segmentRise y)
      (fun heq => by rw [segmentRise, segmentRise, heq, hlow, hhigh]) hfracMono
  exact val32_le_of_nearest (f := ((segmentLow x : ℚ) + ·)) (fun _ _ hlt => add_lt_add_right hlt _) (sign_segmentRise x)
    (sign_segmentRise y) (nearest_lutValue x) (hlow ▸ nearest_lutValue y)
    (fun heq => by rw [lutValue_eq, lutValue_eq, heq, hlow]) hriseMono

/-- Otherwise the segment of `x` ends, at the latest, at the entry where that of `y` begins. -/
theorem lutValue_mono (h : val32 x ≤ val32 y) : val32 (lutValue x) ≤ val32 (lutValue y) := by
  by_cases hsame : lutIndex x = lutIndex y ∧ segmentLow x < segmentHigh x
  · obtain ⟨hindex, hrise⟩ := hsame
    exact lutValue_mono_of_same_segment h hindex hrise
  · have hsegments : segmentHigh x ≤ segmentLow y := by
      rcases (lutIndex_mono h).eq_or_lt with heq | hlt
      · rw [segmentLow, ← heq]
        exact not_lt.1 fun hrise => hsame ⟨heq, hrise⟩
      · exact lutEntry_mono ((min_le_left _ _).trans hlt) (lutIndex_le y)
    calc val32 (lutValue x) ≤ segmentHigh x := (lutValue_bounds x).2
      _ ≤ segmentLow y := by exact_mod_cast hsegments
      _ ≤ val32 (lutValue y) := (lutValue_bounds y).1

end

theorem byteOf_toNat (n : ℤ) : (byteOf n).toNat = min n.toNat 255 := by
  rw [byteOf, BitVec.toNat_ofNat]
  omega

/-- Settles O20: the interpolation, the rounding to an integer and the clamp to a byte keep the order. -/
theorem approximateStrategyIsMonotone : Obligations.ApproximateStrategyIsMonotone := by
  intro x y hx hy h
  have hvalue := lutValue_mono (val32_le_iff_units.2 h)
  have hnonneg : ∀ w, 0 ≤ val32 (lutValue w) := fun w => (Nat.cast_nonneg _).trans (lutValue_bounds w).1
  rw [qapprox, qapprox, if_neg (by simp [hx]), if_neg (by simp [hy]), byteOf_toNat, byteOf_toNat,
    roundHalfAway_eq_floor (hnonneg x), roundHalfAway_eq_floor (hnonneg y)]
  exact min_le_min_right _ (Int.toNat_le_toNat (Int.floor_mono (by gcongr)))

end Sys2Proof.Proofs
end

