-- ==== Sys2Proof/Proofs/RowDispatch.lean ====
section
/-! SUPPORT. The row dispatch controller (spec/45_row_dispatch.md): the start request with its checks in order (R233, R234), the claim
in a frame without lane groups (R236, R240), and the step that a running frame always has (spec/70_reset_and_hazards.md R346). -/

namespace Sys2Proof.Proofs

open Sys2Proof.Machine Sys2Proof.Laws

/-! ### START -/

theorem badDim_iff (s : State) (d : BitVec 16) : badDim s d = true ↔ d = 0 ∨ s.params.maxDim < d.toNat := by
  simp [badDim, BitVec.toNat_eq]

/-- The checks of START in their order (R234). -/
theorem validate_eq (s : State) :
    validate s =
      if s.width = 0 ∨ s.height = 0 ∨ s.params.maxDim < s.width.toNat ∨ s.params.maxDim < s.height.toNat then
        some .cfgDim
      else if s.params.fbCapacity < s.width.toNat * s.height.toNat * 3 then some .cfgFb
      else if s.params.progDepth ≤ s.kentry.toNat then some .cfgEntry
      else none := by
  unfold validate
  refine if_congr ?_ rfl rfl
  rw [Bool.or_eq_true, badDim_iff, badDim_iff]
  tauto

theorem startRequest_of_running {s : State} (h : s.fstate = .running) : startRequest s = s := if_pos h

theorem startRequest_of_refused {s : State} {c : FaultCode} (hi : s.fstate = .idle) (hc : validate s = some c) :
    startRequest s = configFault c (clearErr (clearDone s)) := by
  rcases startRequest_cases s with ⟨hr, -⟩ | ⟨c', -, hc', e⟩ | ⟨-, hnone, -⟩
  · exact absurd (hi.symm.trans hr) (by decide)
  · obtain rfl := Option.some.inj (hc.symm.trans hc')
    exact e
  · exact absurd (hc.symm.trans hnone) (by simp)

theorem startRequest_of_accepted {s : State} (hi : s.fstate = .idle) (hc : validate s = none) :
    startRequest s = beginFrame (clearErr (clearDone s)) := by
  rcases startRequest_cases s with ⟨hr, -⟩ | ⟨c', -, hc', -⟩ | ⟨-, -, e⟩
  · exact absurd (hi.symm.trans hr) (by decide)
  · exact absurd (hc.symm.trans hc') (by simp)
  · exact e

/-- A write to CTRL with bit 0 set is a start request. -/
theorem hostStep_start (s : State) {v : Word} (hv : v.getLsbD 0 = true) :
    hostStep (.csrWrite 0x020 4 v) s = { startRequest s with resp := .writeDone } := by
  rw [hostStep_csrWrite_named s v .ctrl (by decide) rfl rfl, csrPut, if_pos hv]

/-- A start request that a check refuses records the check's code, with no diagnostics (R233). -/
theorem hostStep_start_refused {s : State} {v : Word} {c : FaultCode} (hv : v.getLsbD 0 = true) (hi : s.fstate = .idle)
    (hc : validate s = some c) :
    hostStep (.csrWrite 0x020 4 v) s =
      { s with
        done := false, err := true, errCode := c.code, errLoc := 0, errPc := 0, errInstr := 0, resp := .writeDone } := by
  rw [hostStep_start s hv, startRequest_of_refused hi hc]
  rfl

/-- Settles O39, by the first check that fails. -/
theorem startValidatesAndLatches : Obligations.StartValidatesAndLatches := by
  intro s v hv
  refine ⟨fun hr => ?_, fun hi => ⟨fun hdim => ?_, fun hdim hbig => ?_, fun hdim hbig hentry => ?_,
    fun hdim hbig hentry => ?_⟩⟩
  · rw [hostStep_start s hv, startRequest_of_running hr]
  · exact hostStep_start_refused (c := .cfgDim) hv hi (by rw [validate_eq, if_pos hdim])
  · exact hostStep_start_refused (c := .cfgFb) hv hi (by rw [validate_eq, if_neg hdim, if_pos hbig])
  · exact hostStep_start_refused (c := .cfgEntry) hv hi
      (by rw [validate_eq, if_neg hdim, if_neg hbig, if_pos hentry])
  · have hc : validate s = none := by rw [validate_eq, if_neg hdim, if_neg hbig, if_neg hentry]
    rw [hostStep_start s hv, startRequest_of_accepted hi hc]
    rfl

/-! ### A claim without lane groups -/

/-- A worker that takes a row and completes it at once is again what it was, and so is every other worker. -/
theorem worker_completeRow_takeRow {s : State} {w : ℕ} (hidle : (s.worker w).wstate = .idle) (r v : ℕ) :
    (completeRow (takeRow s w r) w r).worker v = s.worker v := by
  rw [worker_completeRow]
  by_cases h : v = w ∧ w < s.workers.length
  · obtain ⟨rfl, hlt⟩ := h
    rw [if_pos ⟨rfl, by simpa [takeRow] using hlt⟩, worker_takeRow, if_pos ⟨rfl, hlt⟩, ← hidle]
  · rw [if_neg (by simpa [takeRow] using h), worker_takeRow, if_neg h]

/-- Settles O41. -/
theorem claimWithoutGroupsCompletesTheRow : Obligations.ClaimWithoutGroupsCompletesTheRow := by
  intro s w r rest hag hrun hmem hw hidle hg hrising
  have hen : claimEnabled { s with agenda := rest } w r = true := (claimEnabled_iff _ w r).2 ⟨hrun, hmem, hw, hidle⟩
  have hstep : step s = .next (completeRow (takeRow { s with agenda := rest } w r) w r) := by
    rw [step_of_agenda hag, perform, if_pos hen, claimRow, if_pos hg]
  refine ⟨_, hstep, fun _ => ?_, worker_completeRow_takeRow (s := { s with agenda := rest }) hidle r, fun q => ?_,
    fun q => ?_, ?_⟩
  · rw [completeRow_eq]
    rfl
  · rw [completeRow_eq]
    exact mem_removeRow r q s.unclaimed
  · rw [completeRow_eq]
    exact (mem_insertRow r q s.doneRows).trans or_comm
  · have hall := insertRow_eq_allRows_iff hrising r
    rcases completeRow_cases (takeRow { s with agenda := rest } w r) w r with ⟨hdone, e⟩ | ⟨hdone, e⟩ <;> rw [e]
    · exact .inl ⟨hall.1 hdone, rfl, rfl, by simp⟩
    · exact .inr ⟨mt hall.2 hdone, by simpa using hrun, by simp, by simp⟩

/-! ### A running frame goes on -/

/-- While a frame runs and no worker holds a row, a row is unclaimed: else DONE_ROWS would be all of them. -/
theorem exists_unclaimed_of_all_idle {s : State} (h : DispatchOk s) (hr : s.fstate = .running)
    (hidle : ∀ u ∈ s.workers, u.wstate = .idle) : ∃ r, r ∈ s.unclaimed := by
  obtain ⟨-, hrising, hnotAll, hparts, -⟩ := h.2 hr
  refine List.exists_mem_of_ne_nil _ fun hnone => hnotAll ?_
  have hheld : activeRows s = [] := (heldRows_eq_nil_iff s.workers).2 hidle
  have hdone : s.doneRows.Perm (allRows s) := by simpa [hnone, hheld] using hparts
  exact rising_ext hrising (allRows_rising s) fun _ => hdone.mem_iff

/-- Settles O58: a worker that holds a row can execute, and where none does worker 0 can claim one. -/
theorem runningFrameHasAnEnabledStep : Obligations.RunningFrameHasAnEnabledStep := by
  intro s hstorage hdispatch hr
  obtain ⟨⟨-, hworkers, -⟩, hlength, -⟩ := hstorage
  by_cases hactive : ∃ w, w < s.workers.length ∧ (s.worker w).wstate = .active
  · obtain ⟨w, hw, ha⟩ := hactive
    exact .inl ⟨w, (workEnabled_iff s w).2 ⟨hr, hw, ha⟩⟩
  · have hidle : ∀ w < s.workers.length, (s.worker w).wstate = .idle := fun w hw => by
      cases hs : (s.worker w).wstate with
      | idle => rfl
      | active => exact absurd ⟨w, hw, hs⟩ hactive
    have hall : ∀ u ∈ s.workers, u.wstate = .idle := fun u hu => by
      obtain ⟨w, hw, rfl⟩ := List.getElem_of_mem hu
      exact worker_eq_getElem s hw ▸ hidle w hw
    obtain ⟨r, hmem⟩ := exists_unclaimed_of_all_idle hdispatch hr hall
    have hzero : 0 < s.workers.length := by omega
    exact .inr ⟨0, r, (claimEnabled_iff s 0 r).2 ⟨hr, hmem, hzero, hidle 0 hzero⟩⟩

end Sys2Proof.Proofs
end
